-- ==== Sys2Proof/Word.lean ====
section
/-! DEFINITION. The words the block moves: command words (R81), response words (R67) and packed contexts (R30). -/

namespace Sys2Proof

/-- A command word, 64 bits (R81). -/
abbrev Word := BitVec 64

/-- A response word, 32 bits (R67). -/
abbrev Response := BitVec 32

/-- A packed context `(state << 1) | mps`, 7 bits (R30). -/
abbrev Packed := BitVec 7

end Sys2Proof
end

