-- ==== Sys2Proof/Syntax.lean ====
section
/-! DEFINITION. The ten commands of spec/opcode_table.json, one constructor per row, with the fields R81 gives each. -/

namespace Sys2Proof

/-- A legal command (R86 (c)): its field values may still fault (R237). Operands stand in the order of R91. -/
inductive Instr where
  /-- START (R111). -/
  | start
  /-- ENC_BIN ctx, v (R141). -/
  | encBin (ctx : BitVec 16) (v : BitVec 1)
  /-- ENC_EP v (R148). -/
  | encEp (v : BitVec 1)
  /-- ENC_EPS bits, n (R151). -/
  | encEps (bits : BitVec 32) (n : BitVec 6)
  /-- ENC_TRM v (R157). -/
  | encTrm (v : BitVec 1)
  /-- FINISH (R115). -/
  | finish
  /-- SET_CNT v (R122). -/
  | setCnt (v : BitVec 1)
  /-- CTX_WR ctx, packed (R124). -/
  | ctxWr (ctx : BitVec 16) (packed : Packed)
  /-- CTX_RD ctx (R125). -/
  | ctxRd (ctx : BitVec 16)
  /-- REG_RD sel (R126). -/
  | regRd (sel : BitVec 4)
  deriving DecidableEq, Repr

end Sys2Proof
end

