-- ==== Sys2Proof/Decode.lean ====
section
/-! DEFINITION. Decoding a command word (R87) and encoding a command (R91), from the fields of R81, the used masks of R83 and
the opcode map of R84. -/

namespace Sys2Proof

/-- The ten opcodes of R84. -/
inductive Opcode where
  | start | encBin | encEp | encEps | encTrm | finish | setCnt | ctxWr | ctxRd | regRd
  deriving DecidableEq, Repr

/-- The seven formats of R83. -/
inductive Format where
  | f0 | f1 | f2 | f3 | f4 | f5 | f6
  deriving DecidableEq, Repr

/-- Why a word is no legal command (R86 (a), (b)). -/
inductive DecodeError where
  /-- The opcode is 0x0 or 0xB..0xF (R85): fault code 1. -/
  | illegalOpcode
  /-- A legal opcode with a 1 outside its used mask (R83): fault code 2. -/
  | reservedBits
  deriving DecidableEq, Repr

/-- The opcode map (R84), from `cmd[3:0]`. -/
def Opcode.ofBits (b : BitVec 4) : Option Opcode :=
  match b.toNat with
  | 0x1 => some .start
  | 0x2 => some .encBin
  | 0x3 => some .encEp
  | 0x4 => some .encEps
  | 0x5 => some .encTrm
  | 0x6 => some .finish
  | 0x7 => some .setCnt
  | 0x8 => some .ctxWr
  | 0x9 => some .ctxRd
  | 0xA => some .regRd
  | _ => none

/-- The opcode's number (R84). -/
def Opcode.toBits (o : Opcode) : BitVec 4 :=
  match o with
  | .start => 0x1#4
  | .encBin => 0x2#4
  | .encEp => 0x3#4
  | .encEps => 0x4#4
  | .encTrm => 0x5#4
  | .finish => 0x6#4
  | .setCnt => 0x7#4
  | .ctxWr => 0x8#4
  | .ctxRd => 0x9#4
  | .regRd => 0xA#4

/-- The format of each opcode (R84). -/
def Opcode.format (o : Opcode) : Format :=
  match o with
  | .start => .f0
  | .encBin => .f2
  | .encEp => .f1
  | .encEps => .f3
  | .encTrm => .f1
  | .finish => .f0
  | .setCnt => .f1
  | .ctxWr => .f4
  | .ctxRd => .f5
  | .regRd => .f6

/-- The used mask of each format (R83). -/
def Format.usedMask (f : Format) : Word :=
  match f with
  | .f0 => 0x000000000000000F#64
  | .f1 => 0x000000000000001F#64
  | .f2 => 0x00000000FFFF001F#64
  | .f3 => 0xFFFFFFFF00003F0F#64
  | .f4 => 0x0000007FFFFF000F#64
  | .f5 => 0x00000000FFFF000F#64
  | .f6 => 0x0000000000000F0F#64

/-- `op = cmd[3:0]` (R81). -/
def fieldOp (cmd : Word) : BitVec 4 := cmd.extractLsb' 0 4
/-- `v = cmd[4]` (R81). -/
def fieldV (cmd : Word) : BitVec 1 := cmd.extractLsb' 4 1
/-- `n = cmd[13:8]` (R81). -/
def fieldN (cmd : Word) : BitVec 6 := cmd.extractLsb' 8 6
/-- `sel = cmd[11:8]` (R81). -/
def fieldSel (cmd : Word) : BitVec 4 := cmd.extractLsb' 8 4
/-- `ctx = cmd[31:16]` (R81). -/
def fieldCtx (cmd : Word) : BitVec 16 := cmd.extractLsb' 16 16
/-- `bits = cmd[63:32]` (R81). -/
def fieldBits (cmd : Word) : BitVec 32 := cmd.extractLsb' 32 32
/-- `packed = cmd[38:32]` (R81). -/
def fieldPacked (cmd : Word) : Packed := cmd.extractLsb' 32 7

/-- The command an opcode makes of a word's fields (R83, R84). -/
def Opcode.instr (o : Opcode) (cmd : Word) : Instr :=
  match o with
  | .start => .start
  | .encBin => .encBin (fieldCtx cmd) (fieldV cmd)
  | .encEp => .encEp (fieldV cmd)
  | .encEps => .encEps (fieldBits cmd) (fieldN cmd)
  | .encTrm => .encTrm (fieldV cmd)
  | .finish => .finish
  | .setCnt => .setCnt (fieldV cmd)
  | .ctxWr => .ctxWr (fieldCtx cmd) (fieldPacked cmd)
  | .ctxRd => .ctxRd (fieldCtx cmd)
  | .regRd => .regRd (fieldSel cmd)

/-- The bits of a word that its opcode leaves reserved, each of which must be 0 (R83). -/
def reservedPart (o : Opcode) (cmd : Word) : Word := cmd &&& ~~~ o.format.usedMask

/-- Decoding (R87): the opcode first, then the reserved bits. Total on every 64-bit word. -/
def decode (cmd : Word) : Except DecodeError Instr :=
  match Opcode.ofBits (fieldOp cmd) with
  | none => .error .illegalOpcode
  | some o => if reservedPart o cmd = 0#64 then .ok (o.instr cmd) else .error .reservedBits

/-- The word of a command (R91). -/
def encode (i : Instr) : Word :=
  match i with
  | .start => 0x1#64
  | .encBin ctx v => 0x2#64 ||| (v.setWidth 64 <<< 4) ||| (ctx.setWidth 64 <<< 16)
  | .encEp v => 0x3#64 ||| (v.setWidth 64 <<< 4)
  | .encEps bits n => 0x4#64 ||| (n.setWidth 64 <<< 8) ||| (bits.setWidth 64 <<< 32)
  | .encTrm v => 0x5#64 ||| (v.setWidth 64 <<< 4)
  | .finish => 0x6#64
  | .setCnt v => 0x7#64 ||| (v.setWidth 64 <<< 4)
  | .ctxWr ctx packed => 0x8#64 ||| (ctx.setWidth 64 <<< 16) ||| (packed.setWidth 64 <<< 32)
  | .ctxRd ctx => 0x9#64 ||| (ctx.setWidth 64 <<< 16)
  | .regRd sel => 0xA#64 ||| (sel.setWidth 64 <<< 8)

/-- The opcode of a command (R84). -/
def Instr.opcode (i : Instr) : Opcode :=
  match i with
  | .start => .start
  | .encBin _ _ => .encBin
  | .encEp _ => .encEp
  | .encEps _ _ => .encEps
  | .encTrm _ => .encTrm
  | .finish => .finish
  | .setCnt _ => .setCnt
  | .ctxWr _ _ => .ctxWr
  | .ctxRd _ => .ctxRd
  | .regRd _ => .regRd

/-- The command word whose low `nbits` bits are those of `w` and whose other bits are 0: a command is one 64-bit word
whose bits the table numbers as the spec does (R81). -/
def tableWord (nbits w : Nat) : Word := BitVec.ofNat 64 (w % 2 ^ nbits)

/-- What `decode` reads from a word of the opcode table, none where it refuses. -/
def decodeTableWord (nbits w : Nat) : Option Instr :=
  match decode (tableWord nbits w) with
  | .ok i => some i
  | .error _ => none

/-- `match` and `mask` of each row of opcode_table.json: `mask = 0xF | ~used_mask`, `match = op` (R87). -/
def Opcode.tableMatch (o : Opcode) : Word := o.toBits.setWidth 64
/-- See `Opcode.tableMatch`. -/
def Opcode.tableMask (o : Opcode) : Word := 0xF#64 ||| ~~~ o.format.usedMask

end Sys2Proof
end

