-- ==== Sys2Proof/Config.lean ====
section
/-! DEFINITION. What an implementation fixes. The spec leaves one parameter open, the size of the context table (R8, D7);
no behaviour of this block leaves a free value. -/

namespace Sys2Proof

/-- The block's open parameter (R8). -/
structure Config where
  /-- `NUM_CTX`, the number of entries of the context table. -/
  numCtx : Nat
  deriving DecidableEq, Repr

/-- `1 <= NUM_CTX <= 65536` (R8). -/
abbrev Config.Valid (c : Config) : Prop := 1 ≤ c.numCtx ∧ c.numCtx ≤ 65536

/-- The configuration `State.reset` takes: `NUM_CTX = 256`, the size the spec's own programs start from
(95_test_vectors.md section 4). DESIGN CHOICE, log entry 1; unsafe for a claim that rests on the number. -/
def Config.standard : Config := { numCtx := 256 }

end Sys2Proof
end

