-- ==== Sys2Proof/Machine/State.lean ====
section
/-! DEFINITION. The architectural state (R20), the channels (R63, R67), the host's inputs (R40, R80), the reasons a step stops,
and the state after hardware reset (R251, R266). Plain data throughout. -/

namespace Sys2Proof.Machine

/-- The five engine registers that hold no value before the first START (R21 to R25, R251). -/
structure Regs where
  /-- `low` (R21). -/
  low : BitVec 32
  /-- `range` (R22). -/
  range : BitVec 9
  /-- `bits_left` (R23). -/
  bitsLeft : BitVec 6
  /-- `buffered_byte` (R24). -/
  bufferedByte : BitVec 8
  /-- `num_buffered_bytes` (R25). -/
  numBufferedBytes : BitVec 32
  deriving DecidableEq, Repr

/-- The lifecycle state (R27) together with the five registers, which are absent exactly in UNINIT: R251 says the model holds
them as absent, not as 0. START sets all five at once and hardware reset takes all five away (log entry 2). -/
inductive Engine where
  /-- UNINIT: the registers hold no value. -/
  | uninit
  /-- OPEN. -/
  | opened (regs : Regs)
  /-- FINISHED: the registers keep what FINISH left (R116). -/
  | finished (regs : Regs)
  deriving DecidableEq, Repr

/-- The lifecycle register's three values (R27; the encoding 3 is never held, U22). -/
inductive Lifecycle where
  | uninit | opened | finished
  deriving DecidableEq, Repr

/-- An output event (R63). -/
inductive Event where
  /-- `BYTE(b)`. -/
  | byte (b : BitVec 8)
  /-- `BITS(v, n)`: `n` bits whose value is `v`. -/
  | bits (v : Nat) (n : Nat)
  deriving DecidableEq, Repr

/-- One action of the host on the block's input ports (R80): a command word, or a pulse of the reset input (R250). -/
inductive HostInput where
  | command (w : Word)
  | reset
  deriving DecidableEq, Repr

/-- The fault codes of R221 to R235. -/
inductive FaultCode where
  /-- Code 1 (R221). -/
  | illegalOpcode
  /-- Code 2 (R222). -/
  | reservedBits
  /-- Code 3 (R223). -/
  | notOpen
  /-- Code 4 (R224). -/
  | alreadyOpen
  /-- Code 5 (R225). -/
  | ctxRange
  /-- Code 6 (R226). -/
  | ctxUnwritten
  /-- Code 7 (R227). -/
  | ctxState63Lps
  /-- Code 8 (R228). -/
  | epsCount
  /-- Code 9 (R229). -/
  | epsWide
  /-- Code 10 (R230). -/
  | carryOverflow
  /-- Code 11 (R231). -/
  | finishInCount
  /-- Code 12 (R232). -/
  | nbbOverflow
  /-- Code 13 (R233). -/
  | regUninit
  /-- Code 14 (R234). -/
  | badRegSelect
  /-- Code 15 (R235). -/
  | lowOverflow
  deriving DecidableEq, Repr

/-- Why the MODEL has no step. These are not the block's faults (`FaultCode`), which are next states (R236). `belowZero` and
`bitsEventWidth` are raised only in constructed register states that no run from reset reaches (log entry 7). -/
inductive Fault where
  /-- Raised by `step`, and by no command, in a halted state for which the host's list holds no reset pulse; R238: "In a model,
  the halted state has no step except hardware reset" (log entry 4). Safe: the model stops where the block does. -/
  | halted
  /-- Raised by the bin commands and FINISH through `checkedSub` where the pseudocode would subtract a larger number from a
  smaller one; R13: "No rule subtracts a larger number from a smaller one". Safe: the model stops. -/
  | belowZero
  /-- Raised by FINISH through `emitBits` where the event's width would leave R63's 1..12. Safe: the model stops. -/
  | bitsEventWidth
  deriving DecidableEq, Repr

/-- Why the model refuses an instruction. -/
inductive Refusal where
  /-- Raised only by an arm of `exec` whose instruction has no meaning yet; no arm is so. Safe: the model stops. -/
  | notModelled (mnemonic : String)
  deriving DecidableEq, Repr

/-- How the steps inside a command end early: with a fault of the block (R15 `raise Fault(code)`), or with a stop of the
model. -/
inductive Stop where
  | raised (c : FaultCode)
  | stuck (f : Fault)
  deriving DecidableEq, Repr

/-- The values a command works on, as unbounded naturals (R13), with the events it has produced so far, oldest first. They
become visible together when the command completes (R16). -/
structure Coder where
  low : Nat
  range : Nat
  bitsLeft : Nat
  bufferedByte : Nat
  numBufferedBytes : Nat
  events : List Event
  deriving DecidableEq, Repr

/-- The context table's cells: (index, packed context), indices strictly rising; an index not listed holds no value (R29). It
is the block's only writable address space (R60). -/
abbrev Memory := List (Nat × Packed)

/-- The whole state of one instance. -/
structure State where
  /-- The open parameter `NUM_CTX` (R8); no step writes it. -/
  config : Config
  /-- Lifecycle and the five registers (R21 to R25, R27). -/
  engine : Engine
  /-- `only_count` (R26). -/
  onlyCount : BitVec 1
  /-- `FAULT` (R28). -/
  fault : BitVec 8
  /-- `FAULT_CMD` (R28). -/
  faultCmd : Word
  /-- The halt of R236, which the status port shows as `fault_o` (R239). -/
  halted : Bool
  /-- The context table `CTX` (R29). -/
  ctx : Memory
  /-- The output channel, oldest event first (R63, R66). -/
  output : List Event
  /-- The response channel, oldest word first (R67). -/
  response : List Response
  /-- What the host presents, in order (R40; log entry 3). -/
  program : List HostInput
  /-- The index in `program` of the next input, which advances by one per accepted command and by nothing else (R40; log
  entry 3). -/
  position : Nat
  deriving DecidableEq, Repr

/-- The state after hardware reset with the channels empty and nothing presented yet (R251, R266), for a given `NUM_CTX`. -/
def State.resetWith (c : Config) : State :=
  { config := c
    engine := .uninit
    onlyCount := 0#1
    fault := 0#8
    faultCmd := 0#64
    halted := false
    ctx := []
    output := []
    response := []
    program := []
    position := 0 }

/-- The machine right after reset (R251, R266), with the standard configuration (log entry 1). -/
def State.reset : State := State.resetWith Config.standard

end Sys2Proof.Machine
end

