-- ==== Sys2Proof/Machine/Ops.lean ====
section
/-! DEFINITION. The named operations over the state: the context table, the channels, the host's inputs, fault entry (R236),
hardware reset (R250), and the natural-number arithmetic a command works in (R13). -/

namespace Sys2Proof.Machine

/-! ### Notation of R12 -/

/-- `v[hi:lo]` as an unsigned number (R12). -/
def bitField (v hi lo : Nat) : Nat := (v >>> lo) % 2 ^ (hi + 1 - lo)

/-! ### The context table (R29, R60) -/

/-- `CTX[i]`, none where the entry holds no value. -/
def Memory.read : Memory → Nat → Option Packed
  | [], _ => none
  | (a, p) :: rest, i => if a = i then some p else Memory.read rest i

/-- `CTX[i] <- p`, keeping the indices strictly rising. -/
def Memory.write : Memory → Nat → Packed → Memory
  | [], i, p => [(i, p)]
  | (a, q) :: rest, i, p =>
    if i < a then (i, p) :: (a, q) :: rest
    else if i = a then (i, p) :: rest
    else (a, q) :: Memory.write rest i p

/-- The canonical form: strictly rising indices. An unlisted index holds no value, and no cell can say "no value". -/
abbrev Memory.wf (m : Memory) : Prop := m.Pairwise (fun x y => x.1 < y.1)

/-! ### Updates of the state -/

/-- Write the lifecycle and the engine registers. -/
def State.setEngine (s : State) (e : Engine) : State := { s with engine := e }
/-- `R.only_count <- v` (R26). -/
def State.setOnlyCount (s : State) (v : BitVec 1) : State := { s with onlyCount := v }
/-- `CTX[i] <- p` (R29). -/
def State.putCtx (s : State) (i : Nat) (p : Packed) : State := { s with ctx := Memory.write s.ctx i p }
/-- Append events to the output channel, in order (R66, R75). -/
def State.appendOutput (s : State) (es : List Event) : State := { s with output := s.output ++ es }
/-- `Respond(w)` (R15, R67). -/
def State.respond (s : State) (w : Response) : State := { s with response := s.response ++ [w] }
/-- A command has been accepted: the index moves on by one (R40, log entry 3). -/
def State.advance (s : State) : State := { s with position := s.position + 1 }

/-! ### Fault entry and the way out of it -/

/-- The number of each fault code (R221 to R235). -/
def FaultCode.code (c : FaultCode) : BitVec 8 :=
  match c with
  | .illegalOpcode => 1#8
  | .reservedBits => 2#8
  | .notOpen => 3#8
  | .alreadyOpen => 4#8
  | .ctxRange => 5#8
  | .ctxUnwritten => 6#8
  | .ctxState63Lps => 7#8
  | .epsCount => 8#8
  | .epsWide => 9#8
  | .carryOverflow => 10#8
  | .finishInCount => 11#8
  | .nbbOverflow => 12#8
  | .regUninit => 13#8
  | .badRegSelect => 14#8
  | .lowOverflow => 15#8

/-- Fault entry (R236): the state before the command, with the code and the command word recorded and the block halted. -/
def State.enterFault (s : State) (c : FaultCode) (cmd : Word) : State :=
  { s with fault := c.code, faultCmd := cmd, halted := true }

/-- Hardware reset (R250, R251): the fault state cleared, UNINIT, `only_count` 0, every register and context entry without a
value. The channels keep what they hold. It is the only way out of a fault (R240). -/
def State.hardReset (s : State) : State :=
  { s with
    engine := .uninit
    onlyCount := 0#1
    fault := 0#8
    faultCmd := 0#64
    halted := false
    ctx := [] }

/-- `raise Fault(code)` (R15). -/
def raise {α : Type} (c : FaultCode) : Except Stop α := .error (.raised c)

/-- How a command ends (R16, R236): with its whole effect, with fault entry on the state BEFORE it, or with a stop of the
model. -/
def State.complete (s : State) (cmd : Word) (r : Except Stop State) : Host.Outcome State Fault Refusal :=
  match r with
  | .ok t => .next t
  | .error (.raised c) => .next (s.enterFault c cmd)
  | .error (.stuck f) => .fault f

/-! ### The host's inputs (R40, R80; log entries 3 to 5) -/

/-- What the host presents next, none once it has presented everything. -/
def State.nextInput (s : State) : Option HostInput := s.program[s.position]?

/-- Nothing is presented: between commands the block holds its state (R247, R252; log entry 5). -/
def State.whenIdle (s : State) : Host.Outcome State Fault Refusal := .next s

/-- What the host has still to present. -/
def State.upcoming (s : State) : List HostInput := s.program.drop s.position

/-- What follows the first reset pulse of a list of inputs, none where it holds no pulse. -/
def afterReset : List HostInput → Option (List HostInput)
  | [] => none
  | .reset :: rest => some rest
  | .command _ :: rest => afterReset rest

/-- Hardware reset with `rest` still to be presented (R250). The pulse, and any command the block did not accept before it
(R238), leave the host's list; the index stays, since no command was accepted (R40, log entry 3). -/
def State.takeReset (s : State) (rest : List HostInput) : State :=
  State.hardReset { s with program := s.program.take s.position ++ rest }

/-- The step of a block that only a pulse of the reset input can move: the host's next pulse (R250, R263), and no step where
none is to come. Commands before the pulse are neither performed nor recorded (R238; log entry 4). -/
def State.awaitReset (s : State) : Host.Outcome State Fault Refusal :=
  match afterReset s.upcoming with
  | some rest => .next (s.takeReset rest)
  | none => .fault .halted

/-- The fault of a word that is no legal command (R221, R222). -/
def DecodeError.faultCode (e : DecodeError) : FaultCode :=
  match e with
  | .illegalOpcode => .illegalOpcode
  | .reservedBits => .reservedBits

/-- A word that decodes to no command faults (R86, R221, R222). -/
def State.whenRejected (s : State) (e : DecodeError) (w : Word) : Host.Outcome State Fault Refusal :=
  .next (s.advance.enterFault (DecodeError.faultCode e) w)

/-- `xs` with `x` at index `i`, lengthened by `pad` where it is too short. -/
def placeAt {α : Type} (xs : List α) (i : Nat) (x pad : α) : List α :=
  xs.take i ++ List.replicate (i - xs.length) pad ++ x :: xs.drop (i + 1)

/-- The host's list with `w` as the next command it presents. -/
def State.present (s : State) (w : Word) : State :=
  { s with program := placeAt s.program s.position (.command w) .reset }

/-! ### Natural-number arithmetic inside a command (R13) -/

/-- The registers as a command reads them at its start. -/
def Coder.load (r : Regs) : Coder :=
  { low := r.low.toNat
    range := r.range.toNat
    bitsLeft := r.bitsLeft.toNat
    bufferedByte := r.bufferedByte.toNat
    numBufferedBytes := r.numBufferedBytes.toNat
    events := [] }

/-- The registers as a command leaves them. The checks of R140 and R181 and the ROM bounds of R38 make every value fit its
register (`Coder.Fits` in Laws/Ops.lean), so nothing is cut off (R13). -/
def Coder.store (k : Coder) : Regs :=
  { low := BitVec.ofNat 32 k.low
    range := BitVec.ofNat 9 k.range
    bitsLeft := BitVec.ofNat 6 k.bitsLeft
    bufferedByte := BitVec.ofNat 8 k.bufferedByte
    numBufferedBytes := BitVec.ofNat 32 k.numBufferedBytes }

/-- The state after a command that leaves the stream open: registers and events become visible together (R16). -/
def State.commit (s : State) (k : Coder) : State := (s.setEngine (.opened k.store)).appendOutput k.events

/-- `a - b` where R13 gives it a value; otherwise the model stops (log entry 7). -/
def checkedSub (a b : Nat) : Except Stop Nat := if b ≤ a then .ok (a - b) else .error (.stuck .belowZero)

/-- `EmitByte(b)`, `count` times (R15): more than 0xFF raises CARRY_OVERFLOW. -/
def emitBytes (count b : Nat) (k : Coder) : Except Stop Coder :=
  if count = 0 then .ok k
  else if b > 0xFF then raise .carryOverflow
  else .ok { k with events := k.events ++ List.replicate count (.byte (BitVec.ofNat 8 b)) }

/-- `EmitBits(v, n)` (R15, R63). A width outside 1..12 has no event (log entry 7). -/
def emitBits (v n : Nat) (k : Coder) : Except Stop Coder :=
  if 1 ≤ n ∧ n ≤ 12 then .ok { k with events := k.events ++ [.bits v n] } else .error (.stuck .bitsEventWidth)

end Sys2Proof.Machine
end

