-- ==== Sys2Proof/Machine/Flags.lean ====
section
/-! DEFINITION. The status bits. The block has no condition flags (R39): its status is the lifecycle (R27), `only_count` (R26)
and the fault state (R28), and here stand the views and checks made of them (R41, R42, R110, R239). -/

namespace Sys2Proof.Machine

/-- The lifecycle state (R27). -/
def State.lifecycle (s : State) : Lifecycle :=
  match s.engine with
  | .uninit => .uninit
  | .opened _ => .opened
  | .finished _ => .finished

/-- The lifecycle's 2-bit encoding (R27). -/
def Lifecycle.code (l : Lifecycle) : BitVec 2 :=
  match l with
  | .uninit => 0#2
  | .opened => 1#2
  | .finished => 2#2

/-- The STATUS word `{zeros(29), lifecycle[1:0], only_count}` (R42, R126). -/
def State.statusWord (s : State) : Response := 0#29 ++ s.lifecycle.code ++ s.onlyCount

/-- `fault_o`: 1 while halted, 0 otherwise (R239). -/
def State.faultO (s : State) : BitVec 1 := BitVec.ofBool s.halted

/-- The status port (R80, R239): `fault_o`, `FAULT`, `FAULT_CMD`, valid at all times. -/
def State.statusPort (s : State) : BitVec 1 × BitVec 8 × Word := (s.faultO, s.fault, s.faultCmd)

/-- The check of R223: the registers in OPEN, NOT_OPEN otherwise. -/
def State.openRegs (s : State) : Except Stop Regs :=
  match s.engine with
  | .opened r => .ok r
  | .uninit => raise .notOpen
  | .finished _ => raise .notOpen

/-- The check of R224: START runs in UNINIT and FINISHED. -/
def State.requireNotOpen (s : State) : Except Stop Unit :=
  match s.engine with
  | .opened _ => raise .alreadyOpen
  | .uninit => .ok ()
  | .finished _ => .ok ()

/-- The check of R233: the registers in OPEN and FINISHED, REG_UNINIT otherwise. -/
def State.heldRegs (s : State) : Except Stop Regs :=
  match s.engine with
  | .opened r => .ok r
  | .finished r => .ok r
  | .uninit => raise .regUninit

/-- The check of R231: FINISH in count-only mode. -/
def State.requireNormalMode (s : State) : Except Stop Unit :=
  if s.onlyCount = 1#1 then raise .finishInCount else .ok ()

end Sys2Proof.Machine
end

