-- ==== Sys2Proof/Machine/Operands.lean ====
section
/-! DEFINITION. The operand forms: the context operand with its two checks (R225, R226), the fields of a packed context (R30),
the field-value checks of ENC_EPS (R228, R229) and the register selector of REG_RD (R41). -/

namespace Sys2Proof.Machine

/-- `state`, the probability state of a packed context: `p[6:1]` (R30). -/
def ctxStateOf (p : Packed) : Nat := (p.extractLsb' 1 6).toNat

/-- `mps` of a packed context: `p[0]` (R30). -/
def ctxMpsOf (p : Packed) : BitVec 1 := p.extractLsb' 0 1

/-- The check of R225: CTX_RANGE if `ctx >= NUM_CTX`. No index wraps (R61). -/
def State.requireCtxInRange (s : State) (ctx : BitVec 16) : Except Stop Unit :=
  if ctx.toNat < s.config.numCtx then .ok () else raise .ctxRange

/-- `CTX[ctx]` with the checks of R237 steps 6 and 7: CTX_RANGE, then CTX_UNWRITTEN. -/
def State.readCtx (s : State) (ctx : BitVec 16) : Except Stop Packed :=
  if ctx.toNat < s.config.numCtx then
    match Memory.read s.ctx ctx.toNat with
    | some p => .ok p
    | none => raise .ctxUnwritten
  else raise .ctxRange

/-- The field-value checks of ENC_EPS: EPS_COUNT, then EPS_WIDE (R237 step 3). -/
def requireEpsFields (bits : BitVec 32) (n : BitVec 6) : Except Stop Unit :=
  if n.toNat > 32 then raise .epsCount
  else if bits.toNat ≥ 2 ^ n.toNat then raise .epsWide
  else .ok ()

/-- The response of REG_RD (R41, R126) with its checks in the order of R237: BAD_REG_SELECT, then REG_UNINIT. STATUS is readable
in every lifecycle state. -/
def State.selectReg (s : State) (sel : BitVec 4) : Except Stop Response :=
  if sel.toNat > 5 then raise .badRegSelect
  else if sel.toNat = 5 then .ok s.statusWord
  else do
    let r ← s.heldRegs
    match sel.toNat with
    | 0 => .ok r.low
    | 1 => .ok (r.range.setWidth 32)
    | 2 => .ok (r.bitsLeft.setWidth 32)
    | 3 => .ok (r.bufferedByte.setWidth 32)
    | _ => .ok r.numBufferedBytes

end Sys2Proof.Machine
end

