-- ==== Sys2Proof/Machine/Emitter.lean ====
section
/-! DEFINITION. The byte emitter and carry layer (42_byte_emitter.md) and the shared steps after each shift step (R140). -/

namespace Sys2Proof.Machine

/-- Steps 3 to 5 of EMIT (R181): what becomes of the lead byte. Count-only mode counts it (R186); 0xFF is deferred (R183); any
other lead writes the pending run with its carry applied and starts a new run (R184). -/
def emitLead (onlyCount : BitVec 1) (lead : Nat) (k : Coder) : Except Stop Coder :=
  if onlyCount = 1#1 then .ok { k with numBufferedBytes := k.numBufferedBytes + 1 }
  else if lead = 0xFF then .ok { k with numBufferedBytes := k.numBufferedBytes + 1 }
  else if k.numBufferedBytes > 0 then do
    let carry := lead >>> 8
    let k1 ← emitBytes 1 (k.bufferedByte + carry) k
    let k2 ← emitBytes (k.numBufferedBytes - 1) ((0xFF + carry) &&& 0xFF) k1
    .ok { k2 with bufferedByte := lead &&& 0xFF, numBufferedBytes := 1 }
  else if lead > 0xFF then raise .carryOverflow
  else .ok { k with bufferedByte := lead &&& 0xFF, numBufferedBytes := 1 }

/-- The last line of EMIT (R181): `num_buffered_bytes` past 2^32 - 1 raises NBB_OVERFLOW (R232). -/
def checkCount (k : Coder) : Except Stop Coder :=
  if k.numBufferedBytes > 0xFFFFFFFF then raise .nbbOverflow else .ok k

/-- EMIT (R181). It runs only when `bits_left < 12` (R180). -/
def emit (onlyCount : BitVec 1) (k : Coder) : Except Stop Coder :=
  let lead := k.low >>> (24 - k.bitsLeft)
  let bitsLeft := k.bitsLeft + 8
  let low := k.low &&& (0xFFFFFFFF >>> bitsLeft)
  if lead > 0x1FF then raise .carryOverflow
  else do
    let k1 ← emitLead onlyCount lead { k with bitsLeft := bitsLeft, low := low }
    checkCount k1

/-- The shared steps after every shift step (R140): LOW_OVERFLOW, then at most one EMIT. -/
def afterShift (onlyCount : BitVec 1) (k : Coder) : Except Stop Coder :=
  if k.low ≥ 2 ^ 32 then raise .lowOverflow
  else if k.bitsLeft < 12 then emit onlyCount k
  else .ok k

/-- `R.bits_left <- R.bits_left - n`. -/
def takeBits (n : Nat) (k : Coder) : Except Stop Coder := do
  let bl ← checkedSub k.bitsLeft n
  .ok { k with bitsLeft := bl }

end Sys2Proof.Machine
end

