-- ==== Sys2Proof/Machine/BinCoding.lean ====
section
/-! DEFINITION. The bin coding commands ENC_BIN, ENC_EP, ENC_EPS and ENC_TRM (41_bin_coding.md). -/

namespace Sys2Proof.Machine

/-- The renormalization of the MPS path (R144, R158): below 256, double `low` and `range` once. -/
def renormMps (k : Coder) : Except Stop Coder :=
  if k.range < 256 then takeBits 1 { k with low := k.low <<< 1, range := k.range <<< 1 } else .ok k

/-- The arithmetic of ENC_BIN under context `p` (R142), without the context's update. CTX_STATE63_LPS is raised before any
register changes (R237 step 8). -/
def codeRegular (p : Packed) (v : BitVec 1) (k : Coder) : Except Stop Coder :=
  let state := ctxStateOf p
  let lps := rangeLps state (bitField k.range 7 6)
  if v ≠ ctxMpsOf p then
    if state = 63 then raise .ctxState63Lps
    else do
      let mpsRange ← checkedSub k.range lps
      let shift := renorm (lps >>> 3)
      takeBits shift { k with low := (k.low + mpsRange) <<< shift, range := lps <<< shift }
  else do
    let mpsRange ← checkedSub k.range lps
    renormMps { k with range := mpsRange }

/-- The context after a regular bin (R31): NEXT_MPS after an MPS, NEXT_LPS after an LPS. -/
def nextContext (p : Packed) (v : BitVec 1) : Packed := if v = ctxMpsOf p then nextMps p else nextLps p

/-- ENC_BIN (R141, R142). -/
def execEncBin (ctx : BitVec 16) (v : BitVec 1) (s : State) : Host.Outcome State Fault Refusal :=
  s.complete (encode (.encBin ctx v)) do
    let r ← s.openRegs
    let p ← s.readCtx ctx
    let k1 ← codeRegular p v (Coder.load r)
    let k2 ← afterShift s.onlyCount k1
    .ok ((s.commit k2).putCtx ctx.toNat (nextContext p v))

/-- One chunk of `m` bypass bins with value `pattern` (R152, R153); a single bypass bin is the chunk with `m = 1` (R148). -/
def bypassChunk (onlyCount : BitVec 1) (m pattern : Nat) (k : Coder) : Except Stop Coder := do
  let k1 ← takeBits m { k with low := (k.low <<< m) + k.range * pattern }
  afterShift onlyCount k1

/-- ENC_EP (R148). -/
def execEncEp (v : BitVec 1) (s : State) : Host.Outcome State Fault Refusal :=
  s.complete (encode (.encEp v)) do
    let r ← s.openRegs
    let k ← bypassChunk s.onlyCount 1 v.toNat (Coder.load r)
    .ok (s.commit k)

/-- The chunk loop of ENC_EPS (R152): full chunks of 8 from the most significant end while more than 8 bins remain, then the
rest in one chunk. The first argument bounds the loop; the number of bins is enough. -/
def bypassRun (onlyCount : BitVec 1) : Nat → Nat → Nat → Coder → Except Stop Coder
  | 0, m, b, k => bypassChunk onlyCount m b k
  | fuel + 1, m, b, k =>
    if m > 8 then do
      let pattern := b >>> (m - 8)
      let k1 ← bypassChunk onlyCount 8 pattern k
      bypassRun onlyCount fuel (m - 8) (b - (pattern <<< (m - 8))) k1
    else bypassChunk onlyCount m b k

/-- ENC_EPS (R151, R152). `ENC_EPS 0, 0` changes nothing, as R154 (a) says, where R70 says a repeated bin command changes the
stream or faults (DESIGN CHOICE, log entry 20). -/
def execEncEps (bits : BitVec 32) (n : BitVec 6) (s : State) : Host.Outcome State Fault Refusal :=
  s.complete (encode (.encEps bits n)) do
    requireEpsFields bits n
    let r ← s.openRegs
    let k ← bypassRun s.onlyCount n.toNat n.toNat bits.toNat (Coder.load r)
    .ok (s.commit k)

/-- The arithmetic of ENC_TRM (R158): a terminate bin has an LPS width of 2 and no context. -/
def codeTerminate (v : BitVec 1) (k : Coder) : Except Stop Coder := do
  let mpsRange ← checkedSub k.range 2
  if v = 1#1 then takeBits 7 { k with low := (k.low + mpsRange) <<< 7, range := 256 }
  else renormMps { k with range := mpsRange }

/-- ENC_TRM (R157, R158). -/
def execEncTrm (v : BitVec 1) (s : State) : Host.Outcome State Fault Refusal :=
  s.complete (encode (.encTrm v)) do
    let r ← s.openRegs
    let k1 ← codeTerminate v (Coder.load r)
    let k2 ← afterShift s.onlyCount k1
    .ok (s.commit k2)

end Sys2Proof.Machine
end

