-- ==== Sys2Proof/Machine/EngineControl.lean ====
section
/-! DEFINITION. The engine control commands START, FINISH, SET_CNT, CTX_WR, CTX_RD and REG_RD (40_engine_control.md). -/

namespace Sys2Proof.Machine

/-- The registers START sets (R112), with the sentinel of R113. -/
def startRegs : Regs :=
  { low := 0#32
    range := 510#9
    bitsLeft := 23#6
    bufferedByte := 0xFF#8
    numBufferedBytes := 0#32 }

/-- START (R111, R112). The context table and both channels stay as they are. -/
def execStart (s : State) : Host.Outcome State Fault Refusal :=
  s.complete (encode .start) do
    s.requireNotOpen
    .ok ((s.setEngine (.opened startRegs)).setOnlyCount 0#1)

/-- The carry branch of FINISH (R118): the run with the carry applied, and the carry taken off `low`. -/
def finishCarry (carryPos : Nat) (k : Coder) : Except Stop Coder := do
  let k1 ← emitBytes 1 (k.bufferedByte + 1) k
  let k2 ← emitBytes (k.numBufferedBytes - 1) 0x00 k1
  let low ← checkedSub k.low (2 ^ carryPos)
  .ok { k2 with low := low }

/-- The branch of FINISH without a carry (R119): the run as it is, nothing where nothing is pending. -/
def finishNoCarry (k : Coder) : Except Stop Coder := do
  let k1 ← emitBytes (if k.numBufferedBytes > 0 then 1 else 0) k.bufferedByte k
  emitBytes (k.numBufferedBytes - 1) 0xFF k1

/-- The flush of FINISH (R116). -/
def finishFlush (k : Coder) : Except Stop Coder := do
  let carryPos ← checkedSub 32 k.bitsLeft
  let c := k.low >>> carryPos
  if c > 1 then raise .carryOverflow
  else do
    let k1 ← if c = 1 then finishCarry carryPos k else finishNoCarry k
    let width ← checkedSub 24 k.bitsLeft
    emitBits (k1.low >>> 8) width
      { k1 with numBufferedBytes := if k.numBufferedBytes > 1 then 1 else k.numBufferedBytes }

/-- FINISH (R115, R116). -/
def execFinish (s : State) : Host.Outcome State Fault Refusal :=
  s.complete (encode .finish) do
    let r ← s.openRegs
    s.requireNormalMode
    let k ← finishFlush (Coder.load r)
    .ok ((s.setEngine (.finished k.store)).appendOutput k.events)

/-- SET_CNT (R122, R123): the flag and nothing else; with the value already held it changes nothing, as R122 says, where R70
says a repeated SET_CNT changes the stream or faults (DESIGN CHOICE, log entry 20). -/
def execSetCnt (v : BitVec 1) (s : State) : Host.Outcome State Fault Refusal :=
  s.complete (encode (.setCnt v)) do
    let _ ← s.openRegs
    .ok (s.setOnlyCount v)

/-- CTX_WR (R124), in every lifecycle state. -/
def execCtxWr (ctx : BitVec 16) (packed : Packed) (s : State) : Host.Outcome State Fault Refusal :=
  s.complete (encode (.ctxWr ctx packed)) do
    s.requireCtxInRange ctx
    .ok (s.putCtx ctx.toNat packed)

/-- CTX_RD (R125, R90), in every lifecycle state. -/
def execCtxRd (ctx : BitVec 16) (s : State) : Host.Outcome State Fault Refusal :=
  s.complete (encode (.ctxRd ctx)) do
    let p ← s.readCtx ctx
    .ok (s.respond (p.setWidth 32))

/-- REG_RD (R126, R41). -/
def execRegRd (sel : BitVec 4) (s : State) : Host.Outcome State Fault Refusal :=
  s.complete (encode (.regRd sel)) do
    let w ← s.selectReg sel
    .ok (s.respond w)

end Sys2Proof.Machine
end

