-- ==== Sys2Proof/Machine/Dispatch.lean ====
section
/-! DEFINITION. The meaning of each command: one arm per constructor of Instr. -/

namespace Sys2Proof.Machine

def exec (i : Instr) (s : State) : Host.Outcome State Fault Refusal :=
  match i with
  | .start => Sys2Proof.Machine.execStart s
  | .encBin ctx v => Sys2Proof.Machine.execEncBin ctx v s
  | .encEp v => Sys2Proof.Machine.execEncEp v s
  | .encEps bits n => Sys2Proof.Machine.execEncEps bits n s
  | .encTrm v => Sys2Proof.Machine.execEncTrm v s
  | .finish => Sys2Proof.Machine.execFinish s
  | .setCnt v => Sys2Proof.Machine.execSetCnt v s
  | .ctxWr ctx packed => Sys2Proof.Machine.execCtxWr ctx packed s
  | .ctxRd ctx => Sys2Proof.Machine.execCtxRd ctx s
  | .regRd sel => Sys2Proof.Machine.execRegRd sel s

end Sys2Proof.Machine
end

