-- ==== Sys2Proof/Machine/Step.lean ====
section
/-! DEFINITION. One step: one input of the host (R40, R79, R80), performed completely (R16, R74). -/

namespace Sys2Proof.Machine

/-- One step. A halted block accepts no command and steps only by hardware reset (R238, R240). Otherwise one input of the host
is performed completely: a reset pulse (R250); a word that is no command, which faults (R221, R222); or a command by its own
rule. With nothing presented the block holds its state (R247, R252). -/
def step (s : State) : Host.Outcome State Fault Refusal :=
  if s.halted then s.awaitReset
  else
    match s.nextInput with
    | none => s.whenIdle
    | some .reset => s.awaitReset
    | some (.command w) =>
      match decode w with
      | .error e => s.whenRejected e w
      | .ok i => exec i s.advance

/-- `s` with the instruction whose table bits are `w` as the command the host presents next (log entry 3). Nothing else
changes. -/
def State.withFetchWord (s : State) (nbits w : Nat) : State := s.present (tableWord nbits w)

end Sys2Proof.Machine
end

