-- ==== Sys2Proof/Machine/Binarization.lean ====
section
/-! DEFINITION. The host's binarization pseudo-instructions (43_binarization.md): fixed expansions into commands, made by the
host and never by the block (R92, R200). Operands are host integers; a refused expansion issues nothing (R215). -/

namespace Sys2Proof.Machine

/-- Why the host refuses an expansion or an assembler line; no command of it is issued (R215, R264). -/
inductive HostRefusal where
  /-- COEFF_REMAIN with a negative symbol or `r` outside 0..4 (R215 (a)). -/
  | coeffRemainOperand
  /-- TU_CTX or TU_EP with `symbol > max` or a negative operand (R215 (b), R200, R205). -/
  | truncatedUnaryOperand
  /-- TU_CTX with an index above 65535 or a negative one (R215 (c), R205). -/
  | contextIndex
  /-- EGK with a negative symbol or `k` (R215 (d)). -/
  | expGolombOperand
  /-- An assembler operand outside its range (R91, U2). -/
  | assemblerOperand
  deriving DecidableEq, Repr

/-- A bypass run: a value and the number of bins it is coded in, most significant first (R213). -/
structure BypassRun where
  value : Nat
  length : Nat
  deriving DecidableEq, Repr

/-- `ENC_EPS bits, n`. -/
def epsCommand (bits n : Nat) : Instr := .encEps (BitVec.ofNat 32 bits) (BitVec.ofNat 6 n)

/-- The split of R213: pieces of at most 32 bins, most significant first. The first argument bounds the loop. -/
def splitRun : Nat → Nat → Nat → List Instr
  | 0, v, l => [epsCommand v l]
  | fuel + 1, v, l =>
    if l > 32 then epsCommand (v >>> (l - 32)) 32 :: splitRun fuel (v &&& (2 ^ (l - 32) - 1)) (l - 32)
    else [epsCommand v l]

/-- The commands a bypass run is issued as (R213); a run of length 0 is issued as `ENC_EPS 0, 0`. -/
def BypassRun.commands (r : BypassRun) : List Instr := splitRun r.length r.value r.length

/-- The subtracting loop of R201 and R203: take `2^length` off `code` and raise `length` while it fits. The first argument
bounds the loop; every turn lowers `code`. -/
def escapeLoop : Nat → Nat → Nat → Nat × Nat
  | 0, code, length => (code, length)
  | fuel + 1, code, length =>
    if code ≥ 2 ^ length then escapeLoop fuel (code - 2 ^ length) (length + 1) else (code, length)

/-- The two bypass runs of COEFF_REMAIN (R201): short form (R202) and long form (R203). -/
def coeffRemainRuns (symbol r : Nat) : List BypassRun :=
  if symbol < 3 <<< r then
    let len := symbol >>> r
    [⟨2 ^ (len + 1) - 2, len + 1⟩, ⟨symbol - (len <<< r), r⟩]
  else
    let e := escapeLoop (symbol - (3 <<< r) + 1) (symbol - (3 <<< r)) r
    let p := 3 + e.2 + 1 - r
    [⟨2 ^ p - 2, p⟩, ⟨e.1, e.2⟩]

/-- COEFF_REMAIN symbol, r (R201). -/
def coeffRemain (symbol r : Int) : Except HostRefusal (List Instr) :=
  if symbol < 0 ∨ r < 0 ∨ r > 4 then .error .coeffRemainOperand
  else .ok ((coeffRemainRuns symbol.toNat r.toNat).flatMap BypassRun.commands)

/-- The bins of truncated unary (R205): `symbol` ones, and a closing zero unless `symbol = max`; nothing where `max = 0`. -/
def truncatedUnaryBins (symbol max : Nat) : List (BitVec 1) :=
  if max = 0 then []
  else List.replicate symbol 1#1 ++ (if symbol < max then [0#1] else [])

/-- The bins of TU_CTX under their contexts: the first under `base`, the others under `base + offset` (R205). -/
def underContexts (base offset : Nat) (bins : List (BitVec 1)) : List Instr :=
  match bins with
  | [] => []
  | b :: rest =>
    .encBin (BitVec.ofNat 16 base) b :: rest.map (fun b' => .encBin (BitVec.ofNat 16 (base + offset)) b')

/-- TU_CTX symbol, max, base, offset (R205). Where cases (b) and (c) of R215 both hold, the refusal recorded is that of (b)
(DESIGN CHOICE, log entry 22). -/
def tuCtx (symbol max base offset : Int) : Except HostRefusal (List Instr) :=
  if symbol < 0 ∨ symbol > max then .error .truncatedUnaryOperand
  else if base < 0 ∨ offset < 0 ∨ base > 65535 ∨ base + offset > 65535 then .error .contextIndex
  else .ok (underContexts base.toNat offset.toNat (truncatedUnaryBins symbol.toNat max.toNat))

/-- TU_EP symbol, max (R208). -/
def tuEp (symbol max : Int) : Except HostRefusal (List Instr) :=
  if symbol < 0 ∨ symbol > max then .error .truncatedUnaryOperand
  else .ok ((truncatedUnaryBins symbol.toNat max.toNat).map Instr.encEp)

/-- The variables of EGK's loop (R210). -/
structure EgkVars where
  bins : Nat
  nbits : Nat
  count : Nat
  s : Nat
  deriving DecidableEq, Repr

/-- Step 2 of EGK (R210). The first argument bounds the loop; every turn lowers `s`. -/
def egkLoop : Nat → EgkVars → EgkVars
  | 0, x => x
  | fuel + 1, x =>
    if x.s ≥ 2 ^ x.count then
      egkLoop fuel { bins := 2 * x.bins + 1, nbits := x.nbits + 1, count := x.count + 1, s := x.s - 2 ^ x.count }
    else x

/-- The bypass run of EGK (R210): steps 1 to 4. -/
def egkRun (symbol k : Nat) : BypassRun :=
  let x := egkLoop (symbol + 1) { bins := 0, nbits := 0, count := k, s := symbol }
  ⟨((2 * x.bins) <<< x.count) ||| x.s, x.nbits + 1 + x.count⟩

/-- EGK symbol, k (R210). -/
def egk (symbol k : Int) : Except HostRefusal (List Instr) :=
  if symbol < 0 ∨ k < 0 then .error .expGolombOperand
  else .ok (egkRun symbol.toNat k.toNat).commands

/-- CLOSE (R214). -/
def closeStream : List Instr := [.encTrm 1#1, .finish]

end Sys2Proof.Machine
end

