-- ==== Sys2Proof/Machine/Assembler.lean ====
section
/-! DEFINITION. The assembler's lines with their operand ranges (R91), the pseudo-instructions among them (R92), and the list of
commands a host program presents (R40, R264). -/

namespace Sys2Proof.Machine

/-- The names REG_RD takes for its selector (R91, R41). -/
inductive RegName where
  | low | range | bitsLeft | bufferedByte | numBufferedBytes | status
  deriving DecidableEq, Repr

/-- The selector a name stands for (R41). -/
def RegName.selector (n : RegName) : Nat :=
  match n with
  | .low => 0
  | .range => 1
  | .bitsLeft => 2
  | .bufferedByte => 3
  | .numBufferedBytes => 4
  | .status => 5

/-- How a name is written (R91). -/
def RegName.spelling (n : RegName) : String :=
  match n with
  | .low => "LOW"
  | .range => "RANGE"
  | .bitsLeft => "BITS_LEFT"
  | .bufferedByte => "BUFFERED_BYTE"
  | .numBufferedBytes => "NUM_BUFFERED_BYTES"
  | .status => "STATUS"

/-- One line of a host program: a command with numeric operands (R91) or a pseudo-instruction (R92). -/
inductive AsmLine where
  | start
  | encBin (ctx v : Nat)
  | encEp (v : Nat)
  | encEps (bits n : Nat)
  /-- `ENC_EPS!`, which may lie outside the ranges on purpose (R91). -/
  | encEpsForced (bits n : Nat)
  | encTrm (v : Nat)
  | finish
  | setCnt (v : Nat)
  | ctxWr (ctx packed : Nat)
  /-- `CTX_WR ctx, state:mps`, another spelling of `CTX_WR ctx, (state<<1)|mps` (R91). -/
  | ctxWrPair (ctx state mps : Nat)
  | ctxRd (ctx : Nat)
  | regRd (sel : Nat)
  /-- `REG_RD` with its selector given by name (R91). -/
  | regRdNamed (name : RegName)
  | coeffRemain (symbol r : Int)
  | tuCtx (symbol max base offset : Int)
  | tuEp (symbol max : Int)
  | egk (symbol k : Int)
  | close
  deriving DecidableEq, Repr

/-- One command, where its operands are in range (R91). -/
def oneCommand (inRange : Bool) (i : Instr) : Except HostRefusal (List Instr) :=
  if inRange then .ok [i] else .error .assemblerOperand

/-- The commands of one line, or the host's refusal (R91, R92, R215). `ENC_EPS!` is accepted for every operand its fields can
hold, the ranges of plain `ENC_EPS` among them (DESIGN CHOICE, log entry 21). -/
def assemble (line : AsmLine) : Except HostRefusal (List Instr) :=
  match line with
  | .start => .ok [.start]
  | .encBin ctx v => oneCommand (decide (ctx < 65536) && decide (v < 2)) (.encBin (BitVec.ofNat 16 ctx) (BitVec.ofNat 1 v))
  | .encEp v => oneCommand (decide (v < 2)) (.encEp (BitVec.ofNat 1 v))
  | .encEps bits n => oneCommand (decide (n ≤ 32) && decide (bits < 2 ^ n)) (epsCommand bits n)
  | .encEpsForced bits n => oneCommand (decide (n < 64) && decide (bits < 2 ^ 32)) (epsCommand bits n)
  | .encTrm v => oneCommand (decide (v < 2)) (.encTrm (BitVec.ofNat 1 v))
  | .finish => .ok [.finish]
  | .setCnt v => oneCommand (decide (v < 2)) (.setCnt (BitVec.ofNat 1 v))
  | .ctxWr ctx packed =>
    oneCommand (decide (ctx < 65536) && decide (packed < 128)) (.ctxWr (BitVec.ofNat 16 ctx) (BitVec.ofNat 7 packed))
  | .ctxWrPair ctx state mps =>
    oneCommand (decide (ctx < 65536) && decide (state < 64) && decide (mps < 2))
      (.ctxWr (BitVec.ofNat 16 ctx) (BitVec.ofNat 7 ((state <<< 1) ||| mps)))
  | .ctxRd ctx => oneCommand (decide (ctx < 65536)) (.ctxRd (BitVec.ofNat 16 ctx))
  | .regRd sel => oneCommand (decide (sel ≤ 5)) (.regRd (BitVec.ofNat 4 sel))
  | .regRdNamed name => .ok [.regRd (BitVec.ofNat 4 name.selector)]
  | .coeffRemain symbol r => Sys2Proof.Machine.coeffRemain symbol r
  | .tuCtx symbol max base offset => Sys2Proof.Machine.tuCtx symbol max base offset
  | .tuEp symbol max => Sys2Proof.Machine.tuEp symbol max
  | .egk symbol k => Sys2Proof.Machine.egk symbol k
  | .close => .ok closeStream

/-- What the host presents for a program: the words of its lines up to the first it refuses, and that refusal. No command of a
refused line or after it is issued (R264). A command line the assembler rejects ends the program in the same way, with the lines
before it issued (DESIGN CHOICE, log entry 25). -/
def hostProgram : List AsmLine → List HostInput × Option HostRefusal
  | [] => ([], none)
  | line :: rest =>
    match assemble line with
    | .error e => ([], some e)
    | .ok cmds =>
      let (inputs, stop) := hostProgram rest
      (cmds.map (fun i => .command (encode i)) ++ inputs, stop)

end Sys2Proof.Machine
end

