-- ==== Sys2Proof/Machine/Stream.lean ====
section
/-! DEFINITION. The coded bitstream as the host reads it off the output channel (R64, R65, R262, R267), and the quantities the
spec speaks of: the pending run (R185), the coded value (R45) and the number of bit positions coded (R54, R127). -/

namespace Sys2Proof.Machine

/-- How many bits an event contributes (R64, R65). -/
def Event.width (e : Event) : Nat :=
  match e with
  | .byte _ => 8
  | .bits _ n => n

/-- The number an event's bits spell. -/
def Event.value (e : Event) : Nat :=
  match e with
  | .byte b => b.toNat
  | .bits v _ => v

/-- An event in the format of R63: `BITS(v, n)` has `n` in 1..12 and `v < 2^n`. -/
def Event.wellFormed (e : Event) : Bool :=
  match e with
  | .byte _ => true
  | .bits v n => decide (1 ≤ n) && decide (n ≤ 12) && decide (v < 2 ^ n)

/-- The low `n` bits of `v`, most significant first (R64). -/
def msbFirst (v n : Nat) : List Bool := (List.range n).map (fun i => v.testBit (n - 1 - i))

/-- The bits of an event, in stream order (R64). -/
def Event.toBits (e : Event) : List Bool := msbFirst e.value e.width

/-- The coded bitstream: all events' bits, in event order (R64). -/
def bitstream (es : List Event) : List Bool := es.flatMap Event.toBits

/-- The length of the bitstream (R65). -/
def eventsWidth (es : List Event) : Nat := (es.map Event.width).sum

/-- The events' bits read as one number, first bit most significant. -/
def eventsValue (es : List Event) : Nat := es.foldl (fun acc e => acc * 2 ^ e.width + e.value) 0

/-- What the host appends after FINISH (R262): one bit 1, then bits 0 up to a byte boundary. -/
def trailingBits (length : Nat) : List Bool := true :: List.replicate ((8 - (length + 1) % 8) % 8) false

/-- One stream with the host's trailing bits (R262). -/
def alignedStream (es : List Event) : List Bool := bitstream es ++ trailingBits (bitstream es).length

/-- The events of each closed stream, in order: every stream's events end with the BITS event of its FINISH (R120, R267). The
events after the last BITS event belong to a stream still open and are left out. The events of a stream that a hardware reset
cut off have no BITS event of their own and stand at the front of the next closed stream (DESIGN CHOICE, log entry 24). -/
def closedStreams : List Event → List Event → List (List Event)
  | _, [] => []
  | sofar, .byte b :: rest => closedStreams (sofar ++ [.byte b]) rest
  | sofar, .bits v n :: rest => (sofar ++ [.bits v n]) :: closedStreams [] rest

/-- The pending bytes (R185): `buffered_byte`, then `num_buffered_bytes - 1` bytes 0xFF; nothing where the count is 0. -/
def pendingRun (r : Regs) : List Event :=
  if r.numBufferedBytes.toNat = 0 then []
  else .byte r.bufferedByte :: List.replicate (r.numBufferedBytes.toNat - 1) (.byte 0xFF#8)

/-- The value coded so far, with `bits_left` giving the place of `low` (R45): the bytes written, then the pending run, then the
bits of `low`, whose carry bit adds into the run. -/
def codedValue (out : List Event) (r : Regs) : Nat :=
  eventsValue (out ++ pendingRun r) * 2 ^ (32 - r.bitsLeft.toNat) + r.low.toNat

/-- How many bits the channel will hold once FINISH has flushed these registers (R65, R116). -/
def codedWidth (out : List Event) (r : Regs) : Nat :=
  eventsWidth (out ++ pendingRun r) + (24 - r.bitsLeft.toNat)

/-- The bit positions the host counts in count-only mode (R127): `8 * num_buffered_bytes + (23 - bits_left)`. -/
def countedBits (r : Regs) : Nat := 8 * r.numBufferedBytes.toNat + (23 - r.bitsLeft.toNat)

end Sys2Proof.Machine
end

