-- ==== Sys2Proof/Safety.lean ====
section
/-! DEFINITION. What counts as a good state and a good run, in the terms the claims use: the invariant of every step, the
premises under which a bin command completes, the outcome of a run (R264), and runs of commands. -/

namespace Sys2Proof.Machine

/-- The bounds of R50, R51 and R53 at a command boundary. -/
abbrev Regs.Bounded (r : Regs) : Prop :=
  256 ≤ r.range.toNat ∧ r.range.toNat ≤ 510 ∧ 12 ≤ r.bitsLeft.toNat ∧ r.bitsLeft.toNat ≤ 23 ∧
    r.low.toNat + r.range.toNat ≤ 2 ^ (33 - r.bitsLeft.toNat)

/-- The sentinel of R113 and D32: while nothing is pending, `buffered_byte` is 0xFF. -/
abbrev Regs.Sentinel (r : Regs) : Prop := r.numBufferedBytes = 0#32 → r.bufferedByte = 0xFF#8

/-- R52 in inductive form: a `buffered_byte` of 0xFF never sees a carry, because the interval's top is then at most the carry
position. It holds in normal mode from START. -/
abbrev Regs.NoCarryInto0xFF (r : Regs) : Prop :=
  r.bufferedByte = 0xFF#8 → r.low.toNat + r.range.toNat ≤ 2 ^ (32 - r.bitsLeft.toNat)

/-- What holds of the registers at every command boundary, in both modes. -/
abbrev Regs.Inv (r : Regs) : Prop := r.Bounded ∧ r.Sentinel

/-- What holds of the engine: the registers' invariant wherever they hold a value (R51, R53, R251). -/
def Engine.Inv (e : Engine) : Prop :=
  match e with
  | .uninit => True
  | .opened r => r.Inv
  | .finished r => r.Inv

/-- The invariant every step keeps: a legal configuration (R8), the engine's bounds (R50, R51, R53), `only_count` set only in
OPEN (R122, R115), the halt and the fault registers in step (R28, R239), the context table canonical and inside `NUM_CTX`
(R29, R61), and every output event in the format of R63. -/
structure State.Inv (s : State) : Prop where
  config : s.config.Valid
  engine : s.engine.Inv
  count : s.onlyCount = 1#1 → s.lifecycle = .opened
  halt : s.halted = true ↔ s.fault ≠ 0#8
  codes : s.fault.toNat ≤ 15
  clear : s.halted = false → s.faultCmd = 0#64
  ctxWf : Memory.wf s.ctx
  ctxBound : ∀ c ∈ s.ctx, c.1 < s.config.numCtx
  events : ∀ e ∈ s.output, e.wellFormed = true

/-- The four commands that code bins (41_bin_coding.md). -/
def isBin (i : Instr) : Bool :=
  match i with
  | .encBin _ _ => true
  | .encEp _ => true
  | .encEps _ _ => true
  | .encTrm _ => true
  | _ => false

/-- The operands of a bin command pass the checks of R237 steps 3, 6 and 7 and of R227: those that do not look at the engine
registers. -/
def State.Admits (s : State) (i : Instr) : Prop :=
  match i with
  | .encBin ctx v =>
    ctx.toNat < s.config.numCtx ∧
      ∃ p, Memory.read s.ctx ctx.toNat = some p ∧ (ctxStateOf p = 63 → v = ctxMpsOf p)
  | .encEps bits n => n.toNat ≤ 32 ∧ bits.toNat < 2 ^ n.toNat
  | _ => True

/-- A state from which bin commands code a stream: OPEN with registers inside their bounds, room in the counter for the at most
four emissions of one command (R188), and, in normal mode, no carry due into a 0xFF byte (R52). -/
structure State.Coding (s : State) (r : Regs) : Prop where
  isOpen : s.engine = .opened r
  inv : r.Inv
  noCarry : s.onlyCount = 0#1 → r.NoCarryInto0xFF
  room : r.numBufferedBytes.toNat + 4 < 2 ^ 32

/-- The same, in normal mode. -/
structure State.CodingNormal (s : State) (r : Regs) : Prop extends s.Coding r where
  normal : s.onlyCount = 0#1

/-- Run a list of commands one after the other, stopping at the first outcome that is no next state. -/
def execAll : List Instr → State → Host.Outcome State Fault Refusal
  | [], s => .next s
  | i :: rest, s =>
    match exec i s with
    | .next t => execAll rest t
    | .fault f => .fault f
    | .refused r => .refused r

/-- The bits of `v` as `n` single bypass bins, most significant first (R151, R156). -/
def singleBins (v n : Nat) : List Instr := (msbFirst v n).map (fun b => .encEp (BitVec.ofBool b))

/-- The state R236 gives after a fault: exactly `s`, plus the code and the command word, and halted. -/
def State.faultedBy (s : State) (code : BitVec 8) (cmd : Word) : State :=
  { s with fault := code, faultCmd := cmd, halted := true }

/-- What one bin command does to the coded interval, on unbounded numbers and without any emitter: it shifts the coded value left
by `shift`, adds `addend`, and leaves the width `range`. -/
structure IdealStep where
  shift : Nat
  addend : Nat
  range : Nat
  deriving DecidableEq, Repr

/-- The MPS path: the reduced width, doubled once where it fell below 256 (R144, R158). -/
def idealMps (rest : Nat) : IdealStep := if rest < 256 then ⟨1, 0, 2 * rest⟩ else ⟨0, 0, rest⟩

/-- The interval arithmetic of the four bin commands (R142, R148, R152 with R153, R158). -/
def idealStep (s : State) (r : Regs) (i : Instr) : IdealStep :=
  let w := r.range.toNat
  match i with
  | .encBin ctx v =>
    match Memory.read s.ctx ctx.toNat with
    | none => ⟨0, 0, w⟩
    | some p =>
      let lps := rangeLps (ctxStateOf p) (w / 64 % 4)
      if v = ctxMpsOf p then idealMps (w - lps)
      else ⟨renorm (lps / 8), (w - lps) * 2 ^ renorm (lps / 8), lps * 2 ^ renorm (lps / 8)⟩
  | .encEp v => ⟨1, w * v.toNat, w⟩
  | .encEps bits n => ⟨n.toNat, w * bits.toNat, w⟩
  | .encTrm v => if v = 1#1 then ⟨7, (w - 2) * 2 ^ 7, 256⟩ else idealMps (w - 2)
  | _ => ⟨0, 0, w⟩

/-- Two open streams that agree in what R156 compares: the coded bits so far, `range`, and every context. -/
structure SameCode (s : State) (r : Regs) (t : State) (q : Regs) : Prop where
  value : codedValue s.output r = codedValue t.output q
  width : codedWidth s.output r = codedWidth t.output q
  range : r.range = q.range
  ctx : s.ctx = t.ctx
  config : s.config = t.config

/-- The step from `s` is hardware reset: the host presents the pulse next, or the block is halted and the pulse comes later. -/
abbrev State.TakesReset (s : State) : Prop :=
  s.nextInput = some .reset ∨ (s.halted = true ∧ HostInput.reset ∈ s.upcoming)

end Sys2Proof.Machine
end

