-- ==== Sys2Proof/WellFormed.lean ====
section
/-! DEFINITION. The operand ranges an assembler accepts (R91). A command outside them can be encoded and decoded; the block
answers it with the fault R228, R229 or R234 names. -/

namespace Sys2Proof

/-- The operands lie in the ranges of R91: `ENC_EPS` has `n` in 0..32 and `bits < 2^n`, `REG_RD` has `sel` in 0..5. -/
def Instr.wellFormed (i : Instr) : Bool :=
  match i with
  | .start => true
  | .encBin _ _ => true
  | .encEp _ => true
  | .encEps bits n => decide (n.toNat ≤ 32) && decide (bits.toNat < 2 ^ n.toNat)
  | .encTrm _ => true
  | .finish => true
  | .setCnt _ => true
  | .ctxWr _ _ => true
  | .ctxRd _ => true
  | .regRd sel => decide (sel.toNat ≤ 5)

end Sys2Proof
end

