-- ==== Sys2Proof/Certificates/Slice0/Obligations.lean ====
section
/-! DEFINITION. The statements for the provers, one definition each, from the spec's numbered rules. -/

open Sys2Proof Sys2Proof.Machine

/-! ### The command word (30_encoding.md) -/

/-- Every command decodes from its own word with every operand at every value (R87, R91). -/
def Obligations.DecodeOfEncodeIsTheCommand : Prop := ∀ i : Instr, decode (encode i) = .ok i

/-- A legal word is exactly its command's word: no bit of it is ignored (R83, R86). -/
def Obligations.EncodeOfDecodeIsTheWord : Prop := ∀ (w : Word) (i : Instr), decode w = .ok i → encode i = w

/-- R85 and R221: a word with opcode 0x0 or 0xB..0xF raises ILLEGAL_OPCODE, whatever its other bits hold. The
host's position is left open here. -/
def Obligations.IllegalOpcodeRaisesCode1 : Prop :=
  ∀ (s : State) (w : Word), s.halted = false → s.nextInput = some (.command w) →
    (w.toNat % 16 = 0 ∨ 11 ≤ w.toNat % 16) →
    ∃ t, step s = .next t ∧ t = { s.faultedBy 1#8 w with position := t.position }

/-- R222 with the used masks of R83 written out: a legal opcode with a 1 outside its used mask raises RESERVED_BITS.
The host's position is left open here. -/
def Obligations.ReservedBitsRaiseCode2 : Prop :=
  ∀ (s : State) (w : Word), s.halted = false → s.nextInput = some (.command w) →
    (∃ row ∈ ([(1, 0x000000000000000F#64), (2, 0x00000000FFFF001F#64), (3, 0x000000000000001F#64),
        (4, 0xFFFFFFFF00003F0F#64), (5, 0x000000000000001F#64), (6, 0x000000000000000F#64), (7, 0x000000000000001F#64),
        (8, 0x0000007FFFFF000F#64), (9, 0x00000000FFFF000F#64), (10, 0x0000000000000F0F#64)] : List (Nat × Word)),
      w.toNat % 16 = row.1 ∧ w &&& ~~~ row.2 ≠ 0#64) →
    ∃ t, step s = .next t ∧ t = { s.faultedBy 2#8 w with position := t.position }

/-- The last sentences of R87: a word is a legal command exactly when it matches a row of opcode_table.json, whose `match` and
`mask` stand here as the table gives them. -/
def Obligations.LegalWordsAreTheTableRows : Prop :=
  ∀ w : Word, (∃ i, decode w = .ok i) ↔
    ∃ row ∈ ([(0x1#64, 0xFFFFFFFFFFFFFFFF#64), (0x2#64, 0xFFFFFFFF0000FFEF#64), (0x3#64, 0xFFFFFFFFFFFFFFEF#64),
        (0x4#64, 0x00000000FFFFC0FF#64), (0x5#64, 0xFFFFFFFFFFFFFFEF#64), (0x6#64, 0xFFFFFFFFFFFFFFFF#64),
        (0x7#64, 0xFFFFFFFFFFFFFFEF#64), (0x8#64, 0xFFFFFF800000FFFF#64), (0x9#64, 0xFFFFFFFF0000FFFF#64),
        (0xA#64, 0xFFFFFFFFFFFFF0FF#64)] : List (Word × Word)),
      w &&& row.2 = row.1

/-- A few words of 95_test_vectors.md decode to the commands they stand for. -/
def Obligations.SampleWordsDecode : Prop :=
  decode 0x0000000000000001#64 = .ok .start ∧
  decode 0x0000000000020012#64 = .ok (.encBin 2#16 1#1) ∧
  decode 0x0000000000000013#64 = .ok (.encEp 1#1) ∧
  decode 0x0000ABCD00001004#64 = .ok (.encEps 0xABCD#32 16#6) ∧
  decode 0x0000000000000015#64 = .ok (.encTrm 1#1) ∧
  decode 0x0000000000000017#64 = .ok (.setCnt 1#1) ∧
  decode 0x0000003C00020008#64 = .ok (.ctxWr 2#16 0x3C#7) ∧
  decode 0x000000000000050A#64 = .ok (.regRd 5#4)

/-! ### One step (20_memory.md section 5, 60_exceptions.md section 3, 70_reset_and_hazards.md) -/

/-- The host's next input is a word that decodes: the step is `exec` of that command, after the host has moved on to its next
input. Moving the position is the model's convention (log entry 3). -/
def Obligations.StepRunsTheDecodedCommand : Prop :=
  ∀ (s : State) (w : Word) (i : Instr), s.halted = false → s.nextInput = some (.command w) → decode w = .ok i →
    step s = exec i { s with position := s.position + 1 }

/-- The halted state has no step except hardware reset (R238, R240): with no pulse to come the model stops, whatever commands the
host presents, and a next state is one that a reset made. How the model says "no step" is its own choice (log entry 4). A block
that is not halted holds its state while nothing is presented (R247, R252); that this is a step is the model's choice (log
entry 5). -/
def Obligations.HaltedBlockStepsOnlyByReset : Prop :=
  ∀ s : State,
    (s.halted = true → HostInput.reset ∉ s.program.drop s.position → step s = .fault .halted) ∧
    (s.halted = true → ∀ t, step s = .next t → HostInput.reset ∈ s.program.drop s.position ∧ t.engine = .uninit ∧
      t.halted = false ∧ t.output = s.output ∧ t.response = s.response ∧ t.position = s.position) ∧
    (s.halted = false → s.nextInput = none → step s = .next s)

/-- A reset pulse, at any time and in any state, the first input of the host or, in a halted block, behind commands that are not
performed: UNINIT, `only_count` 0, no fault, no context holding a value, the registers without a value, and both channels as they
were (R250, R251, R240, R238). That the pulse and those commands leave the host's list is the model's choice (log entry 3). -/
def Obligations.HardwareResetClearsAllButTheChannels : Prop :=
  ∀ (s : State) (skipped rest : List HostInput), s.program.drop s.position = skipped ++ .reset :: rest →
    HostInput.reset ∉ skipped → (s.halted = false → skipped = []) →
    ∃ t, step s = .next t ∧ t.engine = .uninit ∧ t.onlyCount = 0#1 ∧ t.fault = 0#8 ∧ t.faultCmd = 0#64 ∧
      t.halted = false ∧ t.faultO = 0#1 ∧ (∀ j, Memory.read t.ctx j = none) ∧
      t.output = s.output ∧ t.response = s.response ∧ t.config = s.config ∧
      t.program = s.program.take s.position ++ rest ∧ t.position = s.position

/-- The launch premises of a run from reset (R266): no fault, UNINIT, `only_count` 0, empty channels, no context holding a value;
for every `NUM_CTX`. -/
def Obligations.ResetStateMeetsTheLaunchPremises : Prop :=
  ∀ c : Config, (State.resetWith c).statusPort = (0#1, 0#8, 0#64) ∧ (State.resetWith c).lifecycle = .uninit ∧
    (State.resetWith c).onlyCount = 0#1 ∧ (State.resetWith c).output = [] ∧ (State.resetWith c).response = [] ∧
    (∀ j, Memory.read (State.resetWith c).ctx j = none) ∧ (State.resetWith c).config = c

/-! ### Faults (60_exceptions.md) -/

/-- R236: a command that raises a fault has no other effect. From a block that is not halted, a next state that is halted is
the state before the command plus one of the codes 1..15 and the command's word. -/
def Obligations.FaultsArePrecise : Prop :=
  ∀ (i : Instr) (s t : State), s.halted = false → exec i s = .next t → t.halted = true →
    ∃ code : BitVec 8, 1 ≤ code.toNat ∧ code.toNat ≤ 15 ∧ t = s.faultedBy code (encode i)

/-- R223: the six commands that need OPEN raise NOT_OPEN outside it, before any look at their context (R237). -/
def Obligations.NotOpenIsRaisedOutsideOpen : Prop :=
  ∀ s : State, s.lifecycle ≠ .opened →
    (∀ ctx v, exec (.encBin ctx v) s = .next (s.faultedBy 3#8 (encode (.encBin ctx v)))) ∧
    (∀ v, exec (.encEp v) s = .next (s.faultedBy 3#8 (encode (.encEp v)))) ∧
    (∀ (bits : BitVec 32) (n : BitVec 6), n.toNat ≤ 32 → bits.toNat < 2 ^ n.toNat →
      exec (.encEps bits n) s = .next (s.faultedBy 3#8 (encode (.encEps bits n)))) ∧
    (∀ v, exec (.encTrm v) s = .next (s.faultedBy 3#8 (encode (.encTrm v)))) ∧
    exec .finish s = .next (s.faultedBy 3#8 (encode .finish)) ∧
    (∀ v, exec (.setCnt v) s = .next (s.faultedBy 3#8 (encode (.setCnt v))))

/-- R225: an index at or above `NUM_CTX` raises CTX_RANGE in ENC_BIN, CTX_WR and CTX_RD. R226: an entry that holds no value
raises CTX_UNWRITTEN in ENC_BIN and CTX_RD. ENC_BIN gets that far only in OPEN (R237). -/
def Obligations.ContextOperandFaults : Prop :=
  ∀ (s : State) (ctx : BitVec 16),
    (s.config.numCtx ≤ ctx.toNat →
      (∀ v, s.lifecycle = .opened → exec (.encBin ctx v) s = .next (s.faultedBy 5#8 (encode (.encBin ctx v)))) ∧
      (∀ p, exec (.ctxWr ctx p) s = .next (s.faultedBy 5#8 (encode (.ctxWr ctx p)))) ∧
      exec (.ctxRd ctx) s = .next (s.faultedBy 5#8 (encode (.ctxRd ctx)))) ∧
    (ctx.toNat < s.config.numCtx → Memory.read s.ctx ctx.toNat = none →
      (∀ v, s.lifecycle = .opened → exec (.encBin ctx v) s = .next (s.faultedBy 6#8 (encode (.encBin ctx v)))) ∧
      exec (.ctxRd ctx) s = .next (s.faultedBy 6#8 (encode (.ctxRd ctx))))

/-- R227: an LPS at state 63 raises CTX_STATE63_LPS, whatever the registers hold. -/
def Obligations.LpsAtState63RaisesCode7 : Prop :=
  ∀ (s : State) (r : Regs) (ctx : BitVec 16) (p : Packed) (v : BitVec 1), s.engine = .opened r →
    ctx.toNat < s.config.numCtx → Memory.read s.ctx ctx.toNat = some p → p.toNat / 2 = 63 → v.toNat ≠ p.toNat % 2 →
    exec (.encBin ctx v) s = .next (s.faultedBy 7#8 (encode (.encBin ctx v)))

/-- R228 and R229: ENC_EPS refuses a count above 32, then a value of 2^n or more, in every lifecycle state (R237). -/
def Obligations.EpsFieldFaults : Prop :=
  ∀ (s : State) (bits : BitVec 32) (n : BitVec 6),
    (32 < n.toNat → exec (.encEps bits n) s = .next (s.faultedBy 8#8 (encode (.encEps bits n)))) ∧
    (n.toNat ≤ 32 → 2 ^ n.toNat ≤ bits.toNat →
      exec (.encEps bits n) s = .next (s.faultedBy 9#8 (encode (.encEps bits n))))

/-- R224: START in OPEN raises ALREADY_OPEN. R231: FINISH in OPEN with `only_count` 1 raises FINISH_IN_COUNT. -/
def Obligations.StartAndFinishAreRefusedInOpen : Prop :=
  ∀ s : State, s.lifecycle = .opened →
    exec .start s = .next (s.faultedBy 4#8 (encode .start)) ∧
    (s.onlyCount = 1#1 → exec .finish s = .next (s.faultedBy 11#8 (encode .finish)))

/-- R230's three cases in an emission, at ENC_EP with one bit position left before it is due, in normal mode: a lead above
0x1FF; a carry with nothing buffered; a carry into a buffered 0xFF. -/
def Obligations.UnwritableCarryRaisesCode10 : Prop :=
  ∀ (s : State) (r : Regs) (v : BitVec 1), s.engine = .opened r → s.onlyCount = 0#1 → r.bitsLeft = 12#6 →
    2 * r.low.toNat + r.range.toNat * v.toNat < 2 ^ 32 →
    let lead := (2 * r.low.toNat + r.range.toNat * v.toNat) / 2 ^ 13
    (0x1FF < lead ∨ (0xFF < lead ∧ r.numBufferedBytes = 0#32) ∨ (0xFF < lead ∧ r.bufferedByte = 0xFF#8)) →
    exec (.encEp v) s = .next (s.faultedBy 10#8 (encode (.encEp v)))

/-- R232 and R235 at ENC_EP: a count-mode emission past 2^32 - 1 raises NBB_OVERFLOW, and a shift to 2^32 or more raises
LOW_OVERFLOW. -/
def Obligations.CounterAndLowOverflowFaults : Prop :=
  ∀ (s : State) (r : Regs) (v : BitVec 1), s.engine = .opened r →
    (s.onlyCount = 1#1 → r.bitsLeft = 12#6 → r.numBufferedBytes = 0xFFFFFFFF#32 →
      2 * r.low.toNat + r.range.toNat * v.toNat < 2 ^ 22 →
      exec (.encEp v) s = .next (s.faultedBy 12#8 (encode (.encEp v)))) ∧
    (1 ≤ r.bitsLeft.toNat → 2 ^ 32 ≤ 2 * r.low.toNat + r.range.toNat * v.toNat →
      exec (.encEp v) s = .next (s.faultedBy 15#8 (encode (.encEp v))))

/-! ### Engine control (40_engine_control.md) -/

/-- R112: START's values, from UNINIT and from FINISHED; nothing else changes. -/
def Obligations.StartSetsTheStreamRegisters : Prop :=
  ∀ s : State, s.lifecycle ≠ .opened →
    exec .start s =
      .next { s with engine := .opened ⟨0#32, 510#9, 23#6, 0xFF#8, 0#32⟩, onlyCount := 0#1 }

/-- SET_CNT writes the flag and changes nothing else (R122, R123). -/
def Obligations.SetCntWritesOnlyTheFlag : Prop :=
  ∀ (s : State) (v : BitVec 1), s.lifecycle = .opened → exec (.setCnt v) s = .next { s with onlyCount := v }

/-- CTX_WR in every lifecycle state: the commanded entry holds the value, every other entry reads as before, and nothing else
changes (R124). -/
def Obligations.CtxWrWritesOneContext : Prop :=
  ∀ (s : State) (ctx : BitVec 16) (p : Packed), ctx.toNat < s.config.numCtx →
    ∃ t, exec (.ctxWr ctx p) s = .next t ∧ t = { s with ctx := t.ctx } ∧
      ∀ j, Memory.read t.ctx j = if j = ctx.toNat then some p else Memory.read s.ctx j

/-- CTX_RD in every lifecycle state: one response word holding the packed context, bits 31:7 zero, and nothing else (R125, R90). -/
def Obligations.CtxRdRespondsWithTheContext : Prop :=
  ∀ (s : State) (ctx : BitVec 16) (p : Packed), ctx.toNat < s.config.numCtx → Memory.read s.ctx ctx.toNat = some p →
    exec (.ctxRd ctx) s = .next { s with response := s.response ++ [BitVec.ofNat 32 p.toNat] }

/-- The read-out map (R41, R42) with its faults (R233, R234): the five registers in OPEN and FINISHED, STATUS in every state,
BAD_REG_SELECT for selectors 6..15, REG_UNINIT for 0..4 in UNINIT. -/
def Obligations.RegRdReadOutMap : Prop :=
  ∀ s : State,
    (∀ r, (s.engine = .opened r ∨ s.engine = .finished r) →
      exec (.regRd 0#4) s = .next { s with response := s.response ++ [r.low] } ∧
      exec (.regRd 1#4) s = .next { s with response := s.response ++ [BitVec.ofNat 32 r.range.toNat] } ∧
      exec (.regRd 2#4) s = .next { s with response := s.response ++ [BitVec.ofNat 32 r.bitsLeft.toNat] } ∧
      exec (.regRd 3#4) s = .next { s with response := s.response ++ [BitVec.ofNat 32 r.bufferedByte.toNat] } ∧
      exec (.regRd 4#4) s = .next { s with response := s.response ++ [r.numBufferedBytes] }) ∧
    (exec (.regRd 5#4) s = .next { s with response := s.response ++
        [BitVec.ofNat 32 (s.onlyCount.toNat +
          2 * (match s.lifecycle with | .uninit => 0 | .opened => 1 | .finished => 2))] }) ∧
    (∀ sel : BitVec 4, 5 < sel.toNat → exec (.regRd sel) s = .next (s.faultedBy 14#8 (encode (.regRd sel)))) ∧
    (∀ sel : BitVec 4, sel.toNat ≤ 4 → s.lifecycle = .uninit →
      exec (.regRd sel) s = .next (s.faultedBy 13#8 (encode (.regRd sel))))

/-- FINISH's carry branch (R116, R118): the run with the carry, the carry taken off `low`, and the last bits (R120). -/
def Obligations.FinishWithCarryFlushesTheRunPlusOne : Prop :=
  ∀ (s : State) (r : Regs), s.engine = .opened r → s.onlyCount = 0#1 → 12 ≤ r.bitsLeft.toNat → r.bitsLeft.toNat ≤ 23 →
    r.low.toNat / 2 ^ (32 - r.bitsLeft.toNat) = 1 → r.bufferedByte ≠ 0xFF#8 →
    let low := r.low.toNat - 2 ^ (32 - r.bitsLeft.toNat)
    exec .finish s = .next { s with
      engine := .finished { r with
        low := BitVec.ofNat 32 low
        numBufferedBytes := if 1 < r.numBufferedBytes.toNat then 1#32 else r.numBufferedBytes }
      output := s.output ++ .byte (r.bufferedByte + 1#8) ::
        (List.replicate (r.numBufferedBytes.toNat - 1) (.byte 0#8) ++ [.bits (low / 256) (24 - r.bitsLeft.toNat)]) }

/-- FINISH without a carry (R116, R119): the pending run as it is, and the last bits (R120). -/
def Obligations.FinishWithoutCarryFlushesTheRun : Prop :=
  ∀ (s : State) (r : Regs), s.engine = .opened r → s.onlyCount = 0#1 → 12 ≤ r.bitsLeft.toNat → r.bitsLeft.toNat ≤ 23 →
    r.low.toNat < 2 ^ (32 - r.bitsLeft.toNat) →
    exec .finish s = .next { s with
      engine := .finished { r with
        numBufferedBytes := if 1 < r.numBufferedBytes.toNat then 1#32 else r.numBufferedBytes }
      output := s.output ++ (if r.numBufferedBytes = 0#32 then [] else
          .byte r.bufferedByte :: List.replicate (r.numBufferedBytes.toNat - 1) (.byte 0xFF#8)) ++
        [.bits (r.low.toNat / 256) (24 - r.bitsLeft.toNat)] }

/-- FINISH flushes exactly the coded value, less the 8 low bits of `low` (R45, R116, R120), in the number of bits R65 counts,
and closes the stream; nothing but the lifecycle, the registers and the output changes. -/
def Obligations.FinishFlushesTheCodedValue : Prop :=
  ∀ (s : State) (r : Regs), s.CodingNormal r →
    ∃ t q, exec .finish s = .next t ∧ t = { s with engine := .finished q, output := t.output } ∧
      eventsValue t.output = codedValue s.output r / 256 ∧ eventsWidth t.output = codedWidth s.output r

/-! ### Bin coding (41_bin_coding.md) and the emitter (42_byte_emitter.md) -/

/-- ENC_BIN's LPS path where no emission is due (R142, R143): registers, the new context, every other context as before. -/
def Obligations.EncBinLpsWithoutEmission : Prop :=
  ∀ (s : State) (r : Regs) (ctx : BitVec 16) (p : Packed) (v : BitVec 1), s.engine = .opened r → r.Bounded →
    ctx.toNat < s.config.numCtx → Memory.read s.ctx ctx.toNat = some p → p.toNat / 2 ≤ 62 → v.toNat ≠ p.toNat % 2 →
    let lps := rangeLps (p.toNat / 2) (r.range.toNat / 64 % 4)
    let k := renorm (lps / 8)
    12 + k ≤ r.bitsLeft.toNat →
    ∃ t, exec (.encBin ctx v) s = .next t ∧
      t = { s with
        engine := .opened { r with
          low := BitVec.ofNat 32 ((r.low.toNat + (r.range.toNat - lps)) * 2 ^ k)
          range := BitVec.ofNat 9 (lps * 2 ^ k)
          bitsLeft := BitVec.ofNat 6 (r.bitsLeft.toNat - k) }
        ctx := t.ctx } ∧
      ∀ j, Memory.read t.ctx j = if j = ctx.toNat then some (nextLps p) else Memory.read s.ctx j

/-- ENC_BIN's MPS path where no emission is due (R142, R144), at every state: with and without the doubling. -/
def Obligations.EncBinMpsWithoutEmission : Prop :=
  ∀ (s : State) (r : Regs) (ctx : BitVec 16) (p : Packed) (v : BitVec 1), s.engine = .opened r → r.Bounded →
    ctx.toNat < s.config.numCtx → Memory.read s.ctx ctx.toNat = some p → v.toNat = p.toNat % 2 →
    let rest := r.range.toNat - rangeLps (p.toNat / 2) (r.range.toNat / 64 % 4)
    (rest < 256 → 13 ≤ r.bitsLeft.toNat) →
    ∃ t, exec (.encBin ctx v) s = .next t ∧
      t = { s with
        engine := .opened (if rest < 256 then
            { r with
              low := BitVec.ofNat 32 (2 * r.low.toNat)
              range := BitVec.ofNat 9 (2 * rest)
              bitsLeft := BitVec.ofNat 6 (r.bitsLeft.toNat - 1) }
          else { r with range := BitVec.ofNat 9 rest })
        ctx := t.ctx } ∧
      ∀ j, Memory.read t.ctx j = if j = ctx.toNat then some (nextMps p) else Memory.read s.ctx j

/-- ENC_EP where no emission is due (R148): `low` and `bits_left`, and nothing else. -/
def Obligations.EncEpWithoutEmission : Prop :=
  ∀ (s : State) (r : Regs) (v : BitVec 1), s.engine = .opened r → 13 ≤ r.bitsLeft.toNat →
    2 * r.low.toNat + r.range.toNat * v.toNat < 2 ^ 32 →
    exec (.encEp v) s = .next { s with engine := .opened { r with
      low := BitVec.ofNat 32 (2 * r.low.toNat + r.range.toNat * v.toNat)
      bitsLeft := BitVec.ofNat 6 (r.bitsLeft.toNat - 1) } }

/-- ENC_EPS of at most 8 bins where no emission is due (R152, R154 (a), (b)): one chunk; `n = 0` changes nothing. -/
def Obligations.EncEpsOneChunkWithoutEmission : Prop :=
  ∀ (s : State) (r : Regs) (bits : BitVec 32) (n : BitVec 6), s.engine = .opened r → n.toNat ≤ 8 →
    bits.toNat < 2 ^ n.toNat → 12 + n.toNat ≤ r.bitsLeft.toNat →
    r.low.toNat * 2 ^ n.toNat + r.range.toNat * bits.toNat < 2 ^ 32 →
    exec (.encEps bits n) s = .next { s with engine := .opened { r with
      low := BitVec.ofNat 32 (r.low.toNat * 2 ^ n.toNat + r.range.toNat * bits.toNat)
      bitsLeft := BitVec.ofNat 6 (r.bitsLeft.toNat - n.toNat) } }

/-- ENC_TRM where no emission is due (R158): the terminate bin 1, and the bin 0 with and without the doubling. -/
def Obligations.EncTrmWithoutEmission : Prop :=
  ∀ (s : State) (r : Regs), s.engine = .opened r → r.Bounded →
    (19 ≤ r.bitsLeft.toNat →
      exec (.encTrm 1#1) s = .next { s with engine := .opened { r with
        low := BitVec.ofNat 32 ((r.low.toNat + (r.range.toNat - 2)) * 2 ^ 7)
        range := 256#9
        bitsLeft := BitVec.ofNat 6 (r.bitsLeft.toNat - 7) } }) ∧
    (r.range.toNat - 2 < 256 → 13 ≤ r.bitsLeft.toNat →
      exec (.encTrm 0#1) s = .next { s with engine := .opened { r with
        low := BitVec.ofNat 32 (2 * r.low.toNat)
        range := BitVec.ofNat 9 (2 * (r.range.toNat - 2))
        bitsLeft := BitVec.ofNat 6 (r.bitsLeft.toNat - 1) } }) ∧
    (256 ≤ r.range.toNat - 2 →
      exec (.encTrm 0#1) s = .next { s with engine := .opened { r with
        range := BitVec.ofNat 9 (r.range.toNat - 2) } })

/-- An emission in normal mode with a lead other than 0xFF and a run pending, at ENC_EP (R181, R184): the run is written with the
carry applied, and the lead starts a new run of one byte. -/
def Obligations.EmissionWritesThePendingRun : Prop :=
  ∀ (s : State) (r : Regs) (v : BitVec 1), s.engine = .opened r → s.onlyCount = 0#1 → r.bitsLeft = 12#6 →
    let low := 2 * r.low.toNat + r.range.toNat * v.toNat
    let lead := low / 2 ^ 13
    lead ≤ 0x1FF → lead ≠ 0xFF → r.numBufferedBytes ≠ 0#32 → r.bufferedByte.toNat + lead / 256 ≤ 0xFF →
    exec (.encEp v) s = .next { s with
      engine := .opened { r with
        low := BitVec.ofNat 32 (low % 2 ^ 13)
        bitsLeft := 19#6
        bufferedByte := BitVec.ofNat 8 (lead % 256)
        numBufferedBytes := 1#32 }
      output := s.output ++ .byte (BitVec.ofNat 8 (r.bufferedByte.toNat + lead / 256)) ::
        List.replicate (r.numBufferedBytes.toNat - 1) (.byte (if 0xFF < lead then 0#8 else 0xFF#8)) }

/-- An emission in normal mode that writes nothing, at ENC_EP: a lead of 0xFF is deferred (R183), and the first lead of a stream
only fills the buffer (R184, R113). -/
def Obligations.EmissionDefersOrFillsTheBuffer : Prop :=
  ∀ (s : State) (r : Regs) (v : BitVec 1), s.engine = .opened r → s.onlyCount = 0#1 → r.bitsLeft = 12#6 →
    let low := 2 * r.low.toNat + r.range.toNat * v.toNat
    let lead := low / 2 ^ 13
    (lead = 0xFF → r.numBufferedBytes ≠ 0xFFFFFFFF#32 →
      exec (.encEp v) s = .next { s with engine := .opened { r with
        low := BitVec.ofNat 32 (low % 2 ^ 13)
        bitsLeft := 19#6
        numBufferedBytes := r.numBufferedBytes + 1#32 } }) ∧
    (lead < 0xFF → r.numBufferedBytes = 0#32 →
      exec (.encEp v) s = .next { s with engine := .opened { r with
        low := BitVec.ofNat 32 (low % 2 ^ 13)
        bitsLeft := 19#6
        bufferedByte := BitVec.ofNat 8 lead
        numBufferedBytes := 1#32 } })

/-- An emission in count-only mode, at ENC_EP (R186): 1 more counted, nothing written, `buffered_byte` unchanged, the carry bit
gone from `low`. -/
def Obligations.CountModeEmissionOnlyCounts : Prop :=
  ∀ (s : State) (r : Regs) (v : BitVec 1), s.engine = .opened r → s.onlyCount = 1#1 → r.bitsLeft = 12#6 →
    let low := 2 * r.low.toNat + r.range.toNat * v.toNat
    low / 2 ^ 13 ≤ 0x1FF → r.numBufferedBytes ≠ 0xFFFFFFFF#32 →
    exec (.encEp v) s = .next { s with engine := .opened { r with
      low := BitVec.ofNat 32 (low % 2 ^ 13)
      bitsLeft := 19#6
      numBufferedBytes := r.numBufferedBytes + 1#32 } }

/-- Every bin command with admissible operands completes from every coding state, in both modes, and leaves a coding state:
R50, R51, R53 and, in normal mode, R52 hold again. Only registers, contexts and output change, and output only grows. -/
def Obligations.BinCommandsCompleteInsideTheBounds : Prop :=
  ∀ (s : State) (r : Regs) (i : Instr), s.Coding r → isBin i = true → s.Admits i →
    ∃ t q es, exec i s = .next t ∧
      t = { s with engine := .opened q, ctx := t.ctx, output := s.output ++ es } ∧
      q.Inv ∧ (s.onlyCount = 0#1 → q.NoCarryInto0xFF) ∧
      ((∀ ctx v, i ≠ .encBin ctx v) → t.ctx = s.ctx)

/-- ENC_BIN's context update in every case, with an emission or without one (R31, R142): the coded context moves by NEXT_MPS or
NEXT_LPS, and no other context changes. -/
def Obligations.EncBinMovesOneContext : Prop :=
  ∀ (s : State) (r : Regs) (ctx : BitVec 16) (v : BitVec 1) (p : Packed), s.Coding r → s.Admits (.encBin ctx v) →
    Memory.read s.ctx ctx.toNat = some p →
    ∃ t q, exec (.encBin ctx v) s = .next t ∧ t = { s with engine := .opened q, ctx := t.ctx, output := t.output } ∧
      ∀ j, Memory.read t.ctx j =
        if j = ctx.toNat then some (if v.toNat = p.toNat % 2 then nextMps p else nextLps p) else Memory.read s.ctx j

/-- The carry layer does its job: in normal mode every bin command moves the coded value (bytes written, pending run and `low`
together, R45) exactly as the interval arithmetic on unbounded numbers does (R142, R148, R153, R158), whatever is emitted. -/
def Obligations.BinCommandsRefineTheIdealCoder : Prop :=
  ∀ (s : State) (r : Regs) (i : Instr), s.CodingNormal r → isBin i = true → s.Admits i →
    ∃ t q, exec i s = .next t ∧ t.engine = .opened q ∧
      codedValue t.output q = codedValue s.output r * 2 ^ (idealStep s r i).shift + (idealStep s r i).addend ∧
      codedWidth t.output q = codedWidth s.output r + (idealStep s r i).shift ∧
      q.range.toNat = (idealStep s r i).range

/-- R156 up to FINISH: ENC_EPS and the `n` single ENC_EP commands end, after FINISH, in the same bitstream, with the same `range`
and contexts. -/
def Obligations.EncEpsCodesTheSameBitsAsSingleBins : Prop :=
  ∀ (s : State) (r : Regs) (bits : BitVec 32) (n : BitVec 6), s.CodingNormal r → (∀ e ∈ s.output, e.wellFormed = true) →
    n.toNat ≤ 32 → bits.toNat < 2 ^ n.toNat → r.numBufferedBytes.toNat + 40 < 2 ^ 32 →
    ∃ t u q q', execAll [.encEps bits n, .finish] s = .next t ∧
      execAll (singleBins bits.toNat n.toNat ++ [.finish]) s = .next u ∧
      bitstream t.output = bitstream u.output ∧ t.engine = .finished q ∧ u.engine = .finished q' ∧
      q.range = q'.range ∧ t.ctx = u.ctx

/-- R156's "then any commands": two open streams that agree in coded value, coded width, `range` and contexts still agree after
the same bin command, though `low` and the pending run may differ. -/
def Obligations.SameCodeStaysTheSame : Prop :=
  ∀ (s t : State) (r q : Regs) (i : Instr), s.CodingNormal r → t.CodingNormal q → SameCode s r t q →
    isBin i = true → s.Admits i →
    ∃ s' t' r' q', exec i s = .next s' ∧ exec i t = .next t' ∧ s'.engine = .opened r' ∧ t'.engine = .opened q' ∧
      SameCode s' r' t' q'

/-- Count-only mode is the dual of normal mode (R186, R54): the same bin command leaves the same `low`, `range`, `bits_left` and
contexts, writes nothing, keeps `buffered_byte`, and counts as many emissions as normal mode writes or keeps pending. -/
def Obligations.CountModeFollowsNormalMode : Prop :=
  ∀ (s : State) (r : Regs) (i : Instr), s.CodingNormal r → isBin i = true → s.Admits i →
    ∃ t u q c es, exec i s = .next t ∧ exec i { s with onlyCount := 1#1 } = .next u ∧
      t.engine = .opened q ∧ u.engine = .opened c ∧ t.output = s.output ++ es ∧
      c.low = q.low ∧ c.range = q.range ∧ c.bitsLeft = q.bitsLeft ∧ u.ctx = t.ctx ∧
      u.output = s.output ∧ c.bufferedByte = r.bufferedByte ∧
      c.numBufferedBytes.toNat = es.length + q.numBufferedBytes.toNat

/-- R127's count: in count-only mode a bin command raises `8 * num_buffered_bytes + (23 - bits_left)` by the positions it
shifts. -/
def Obligations.CountedBitsCountTheShifts : Prop :=
  ∀ (s : State) (r : Regs) (i : Instr), s.Coding r → s.onlyCount = 1#1 → isBin i = true → s.Admits i →
    ∃ t q, exec i s = .next t ∧ t.engine = .opened q ∧ countedBits q = countedBits r + (idealStep s r i).shift

/-- R188's bound: ENC_BIN, ENC_EP and ENC_TRM write at most the run that was pending, from any open state. -/
def Obligations.OneEmissionWritesAtMostThePendingRun : Prop :=
  ∀ (s t : State) (r : Regs) (i : Instr), s.engine = .opened r → isBin i = true → (∀ bits n, i ≠ .encEps bits n) →
    exec i s = .next t → ∃ es, t.output = s.output ++ es ∧ es.length ≤ r.numBufferedBytes.toNat

/-! ### The constant tables (10_state.md section 4) -/

/-- R36: NEXT_MPS in closed form. -/
def Obligations.NextMpsClosedForm : Prop :=
  ∀ p : Packed, (p.toNat / 2 ≤ 61 → (nextMps p).toNat = (p.toNat / 2 + 1) * 2 + p.toNat % 2) ∧
    (62 ≤ p.toNat / 2 → nextMps p = p)

/-- NEXT_LPS in closed form, with the sequence T written out and its two further facts (R37). "Only state 63 maps to itself" is
read of the packed context, since state 0 goes to state 0 with `mps` flipped (log entry 18). -/
def Obligations.NextLpsClosedForm : Prop :=
  let T : List Nat :=
    [0, 0, 1, 2, 2, 4, 4, 5, 6, 7, 8, 9, 9, 11, 11, 12] ++ [13, 13, 15, 15, 16, 16, 18, 18, 19, 19, 21, 21, 22, 22, 23, 24] ++
    [24, 25, 26, 26, 27, 27, 28, 29, 29, 30, 30, 30, 31, 32, 32, 33] ++
    [33, 33, 34, 34, 35, 35, 35, 36, 36, 36, 37, 37, 37, 38, 38, 63]
  ∀ p : Packed,
    (p.toNat / 2 = 0 → (nextLps p).toNat = T.getD 0 0 * 2 + (1 - p.toNat % 2)) ∧
    (0 < p.toNat / 2 → (nextLps p).toNat = T.getD (p.toNat / 2) 0 * 2 + p.toNat % 2) ∧
    (p.toNat / 2 ≤ 62 → (nextLps p).toNat / 2 ≤ 38) ∧
    (nextLps p = p ↔ p.toNat / 2 = 63)

/-! ### The whole machine -/

/-- Every step keeps the invariant: R50, R51, R53, the fault registers in step with the halt, a canonical context table inside
`NUM_CTX`, well-formed output events. -/
def Obligations.StepKeepsTheInvariant : Prop :=
  ∀ s t : State, s.Inv → step s = .next t → t.Inv

/-- The invariant holds after reset, for every legal `NUM_CTX`. -/
def Obligations.ResetMeetsTheInvariant : Prop :=
  (∀ c : Config, c.Valid → (State.resetWith c).Inv) ∧ State.reset.Inv

/-- From every state that meets the invariant the machine goes on (R13, R270), unless it is halted with no reset pulse to come, where
R238 gives it no step (log entry 4). That a block with nothing presented goes on by holding its state is the model's choice (log
entry 5). -/
def Obligations.StepGoesOnUnlessHalted : Prop :=
  ∀ s : State, s.Inv → (s.halted = false ∨ HostInput.reset ∈ s.program.drop s.position) → ∃ t, step s = .next t

/-- LOW_OVERFLOW never occurs inside R50, R51 and R53 with R113's sentinel, in either mode (R235); and CARRY_OVERFLOW never occurs in
normal mode where R52 holds too (R187). After a count-mode section R52 may fail and CARRY_OVERFLOW occur (R123); NBB_OVERFLOW is
not spoken of. -/
def Obligations.LowAndCarryOverflowNeverInsideTheBounds : Prop :=
  ∀ (s t : State) (r : Regs) (i : Instr), s.engine = .opened r → r.Inv → s.fault = 0#8 → exec i s = .next t →
    t.fault ≠ 15#8 ∧ (s.onlyCount = 0#1 → r.NoCarryInto0xFF → t.fault ≠ 10#8)

/-- No event is ever withdrawn or revised, and no response: in every step, a hardware reset among them, both channels only grow
(R76, R189, R250). -/
def Obligations.ChannelsOnlyGrow : Prop :=
  ∀ s t : State, step s = .next t → (∃ es, t.output = s.output ++ es) ∧ (∃ ws, t.response = s.response ++ ws)

/-- R67: only CTX_RD and REG_RD respond, one word per command; no other input of the host changes the response channel. -/
def Obligations.OnlyReadCommandsRespond : Prop :=
  ∀ s t : State, step s = .next t → t.response ≠ s.response →
    ∃ w x, s.halted = false ∧ s.nextInput = some (.command w) ∧ t.response = s.response ++ [x] ∧
      ((∃ ctx, decode w = .ok (.ctxRd ctx)) ∨ (∃ sel, decode w = .ok (.regRd sel)))

/-- Who writes a context (R31, R29, R250): an entry changes only by ENC_BIN or CTX_WR on that very index, or by hardware reset. -/
def Obligations.OnlyEncBinAndCtxWrChangeAContext : Prop :=
  ∀ (s t : State) (j : Nat), step s = .next t → Memory.read t.ctx j ≠ Memory.read s.ctx j →
    s.TakesReset ∨
    ∃ w, s.halted = false ∧ s.nextInput = some (.command w) ∧
      ((∃ ctx v, decode w = .ok (.encBin ctx v) ∧ ctx.toNat = j) ∨ (∃ ctx p, decode w = .ok (.ctxWr ctx p) ∧ ctx.toNat = j))

/-- The lifecycle's moves (R27): START opens from UNINIT or FINISHED, FINISH closes from OPEN, hardware reset goes to UNINIT, and
nothing else moves it. -/
def Obligations.LifecycleMoves : Prop :=
  ∀ s t : State, step s = .next t → t.lifecycle ≠ s.lifecycle →
    (s.TakesReset ∧ t.lifecycle = .uninit) ∨
    ∃ w, s.halted = false ∧ s.nextInput = some (.command w) ∧
      ((decode w = .ok .start ∧ s.lifecycle ≠ .opened ∧ t.lifecycle = .opened) ∨
        (decode w = .ok .finish ∧ s.lifecycle = .opened ∧ t.lifecycle = .finished))

/-- R28: the fault registers are written only by fault entry and cleared only by hardware reset. -/
def Obligations.FaultRegistersAreWrittenOnlyByFaultEntry : Prop :=
  ∀ s t : State, step s = .next t → (t.fault ≠ s.fault ∨ t.faultCmd ≠ s.faultCmd ∨ t.halted ≠ s.halted) →
    (s.TakesReset ∧ t.fault = 0#8 ∧ t.faultCmd = 0#64 ∧ t.halted = false) ∨
    (s.halted = false ∧ t.halted = true ∧ t.fault ≠ 0#8 ∧ s.nextInput = some (.command t.faultCmd))

/-! ### The host's side (43_binarization.md, 70_reset_and_hazards.md) -/

/-- R213: every command of a split run is a legal ENC_EPS, and the bins of the commands, one after the other, are the bins of the
run. -/
def Obligations.SplitRunsKeepTheBins : Prop :=
  ∀ v l : Nat, v < 2 ^ l →
    ∃ pieces : List BypassRun, (BypassRun.mk v l).commands = pieces.map (fun r => epsCommand r.value r.length) ∧
      (∀ r ∈ pieces, r.length ≤ 32 ∧ r.value < 2 ^ r.length) ∧
      pieces.flatMap (fun r => msbFirst r.value r.length) = msbFirst v l

/-- COEFF_REMAIN's short form (R202): `symbol >> r` ones and a zero, then the low `r` bits. -/
def Obligations.CoeffRemainShortForm : Prop :=
  ∀ symbol r : Nat, r ≤ 4 → symbol < 3 * 2 ^ r →
    (coeffRemainRuns symbol r).flatMap (fun x => msbFirst x.value x.length) =
      List.replicate (symbol / 2 ^ r) true ++ [false] ++ msbFirst (symbol % 2 ^ r) r

/-- COEFF_REMAIN's long form (R203): `3 + length - r` ones and a zero, then `code` in `length` bits, where `code` is what is left
of `symbol - 3 * 2^r` after taking off `2^r`, ..., `2^(length-1)`. -/
def Obligations.CoeffRemainLongForm : Prop :=
  ∀ symbol r : Nat, r ≤ 4 → 3 * 2 ^ r ≤ symbol →
    ∃ code length, r ≤ length ∧ code < 2 ^ length ∧ symbol = 3 * 2 ^ r + (2 ^ length - 2 ^ r) + code ∧
      (coeffRemainRuns symbol r).flatMap (fun x => msbFirst x.value x.length) =
        List.replicate (3 + length - r) true ++ [false] ++ msbFirst code length

/-- EGK (R210): `q` ones and a zero, then what is left of `symbol` after taking off `2^k`, ..., `2^(k+q-1)`, in `k + q` bits. -/
def Obligations.EgkCodesPrefixAndRemainder : Prop :=
  ∀ symbol k : Nat,
    ∃ q s, s < 2 ^ (k + q) ∧ symbol = (2 ^ (k + q) - 2 ^ k) + s ∧
      msbFirst (egkRun symbol k).value (egkRun symbol k).length =
        List.replicate q true ++ [false] ++ msbFirst s (k + q)

/-- Truncated unary (R205, R208): the bins, the contexts they are coded under, and the bypass version of the same shape. -/
def Obligations.TruncatedUnaryBins : Prop :=
  ∀ symbol max base offset : Nat, symbol ≤ max → base + offset < 65536 →
    ∃ bins : List (BitVec 1),
      bins = (if max = 0 then [] else List.replicate symbol 1#1 ++ if symbol = max then [] else [0#1]) ∧
      tuEp symbol max = .ok (bins.map .encEp) ∧
      tuCtx symbol max base offset = .ok (bins.zipIdx.map fun x =>
        .encBin (BitVec.ofNat 16 (if x.2 = 0 then base else base + offset)) x.1)

/-- R262: the host's trailing bits are one 1 and then fewer than 8 zeros, and bring the stream to a byte boundary. -/
def Obligations.TrailingBitsAlignTheStream : Prop :=
  ∀ es : List Event, ∃ z, z < 8 ∧ alignedStream es = bitstream es ++ true :: List.replicate z false ∧
    (alignedStream es).length % 8 = 0

/-! ### The host's list (10_state.md R40) -/

/-- R40: the index into the host's list advances by one per accepted command, a faulting one among them, and by nothing else: not
by a reset, not while idle, not by a command presented while halted. What a reset does to the list is the model's choice (log
entry 3), and so is the idle step (log entry 5). -/
def Obligations.PositionCountsAcceptedCommands : Prop :=
  ∀ s t : State, step s = .next t →
    (s.halted = false ∧ (∃ w, s.nextInput = some (.command w)) ∧ t.position = s.position + 1 ∧ t.program = s.program) ∨
    (s.TakesReset ∧ t.position = s.position ∧ t.program.take s.position = s.program.take s.position) ∨
    (s.halted = false ∧ s.nextInput = none ∧ t = s)
end

