-- ==== Sys2Proof/Laws/State.lean ====
section
/-! SUPPORT. One lemma per field of State per update, so that no proof unfolds a record update. -/

namespace Sys2Proof.Machine

variable (s : State)

@[simp] theorem State.setEngine_config (e : Engine) : (s.setEngine e).config = s.config := rfl
@[simp] theorem State.setEngine_engine (e : Engine) : (s.setEngine e).engine = e := rfl
@[simp] theorem State.setEngine_onlyCount (e : Engine) : (s.setEngine e).onlyCount = s.onlyCount := rfl
@[simp] theorem State.setEngine_fault (e : Engine) : (s.setEngine e).fault = s.fault := rfl
@[simp] theorem State.setEngine_faultCmd (e : Engine) : (s.setEngine e).faultCmd = s.faultCmd := rfl
@[simp] theorem State.setEngine_halted (e : Engine) : (s.setEngine e).halted = s.halted := rfl
@[simp] theorem State.setEngine_ctx (e : Engine) : (s.setEngine e).ctx = s.ctx := rfl
@[simp] theorem State.setEngine_output (e : Engine) : (s.setEngine e).output = s.output := rfl
@[simp] theorem State.setEngine_response (e : Engine) : (s.setEngine e).response = s.response := rfl
@[simp] theorem State.setEngine_program (e : Engine) : (s.setEngine e).program = s.program := rfl
@[simp] theorem State.setEngine_position (e : Engine) : (s.setEngine e).position = s.position := rfl

@[simp] theorem State.setOnlyCount_config (v : BitVec 1) : (s.setOnlyCount v).config = s.config := rfl
@[simp] theorem State.setOnlyCount_engine (v : BitVec 1) : (s.setOnlyCount v).engine = s.engine := rfl
@[simp] theorem State.setOnlyCount_onlyCount (v : BitVec 1) : (s.setOnlyCount v).onlyCount = v := rfl
@[simp] theorem State.setOnlyCount_fault (v : BitVec 1) : (s.setOnlyCount v).fault = s.fault := rfl
@[simp] theorem State.setOnlyCount_faultCmd (v : BitVec 1) : (s.setOnlyCount v).faultCmd = s.faultCmd := rfl
@[simp] theorem State.setOnlyCount_halted (v : BitVec 1) : (s.setOnlyCount v).halted = s.halted := rfl
@[simp] theorem State.setOnlyCount_ctx (v : BitVec 1) : (s.setOnlyCount v).ctx = s.ctx := rfl
@[simp] theorem State.setOnlyCount_output (v : BitVec 1) : (s.setOnlyCount v).output = s.output := rfl
@[simp] theorem State.setOnlyCount_response (v : BitVec 1) : (s.setOnlyCount v).response = s.response := rfl
@[simp] theorem State.setOnlyCount_program (v : BitVec 1) : (s.setOnlyCount v).program = s.program := rfl
@[simp] theorem State.setOnlyCount_position (v : BitVec 1) : (s.setOnlyCount v).position = s.position := rfl

@[simp] theorem State.putCtx_config (i : Nat) (p : Packed) : (s.putCtx i p).config = s.config := rfl
@[simp] theorem State.putCtx_engine (i : Nat) (p : Packed) : (s.putCtx i p).engine = s.engine := rfl
@[simp] theorem State.putCtx_onlyCount (i : Nat) (p : Packed) : (s.putCtx i p).onlyCount = s.onlyCount := rfl
@[simp] theorem State.putCtx_fault (i : Nat) (p : Packed) : (s.putCtx i p).fault = s.fault := rfl
@[simp] theorem State.putCtx_faultCmd (i : Nat) (p : Packed) : (s.putCtx i p).faultCmd = s.faultCmd := rfl
@[simp] theorem State.putCtx_halted (i : Nat) (p : Packed) : (s.putCtx i p).halted = s.halted := rfl
@[simp] theorem State.putCtx_ctx (i : Nat) (p : Packed) : (s.putCtx i p).ctx = Memory.write s.ctx i p := rfl
@[simp] theorem State.putCtx_output (i : Nat) (p : Packed) : (s.putCtx i p).output = s.output := rfl
@[simp] theorem State.putCtx_response (i : Nat) (p : Packed) : (s.putCtx i p).response = s.response := rfl
@[simp] theorem State.putCtx_program (i : Nat) (p : Packed) : (s.putCtx i p).program = s.program := rfl
@[simp] theorem State.putCtx_position (i : Nat) (p : Packed) : (s.putCtx i p).position = s.position := rfl

@[simp] theorem State.appendOutput_config (es : List Event) : (s.appendOutput es).config = s.config := rfl
@[simp] theorem State.appendOutput_engine (es : List Event) : (s.appendOutput es).engine = s.engine := rfl
@[simp] theorem State.appendOutput_onlyCount (es : List Event) : (s.appendOutput es).onlyCount = s.onlyCount := rfl
@[simp] theorem State.appendOutput_fault (es : List Event) : (s.appendOutput es).fault = s.fault := rfl
@[simp] theorem State.appendOutput_faultCmd (es : List Event) : (s.appendOutput es).faultCmd = s.faultCmd := rfl
@[simp] theorem State.appendOutput_halted (es : List Event) : (s.appendOutput es).halted = s.halted := rfl
@[simp] theorem State.appendOutput_ctx (es : List Event) : (s.appendOutput es).ctx = s.ctx := rfl
@[simp] theorem State.appendOutput_output (es : List Event) : (s.appendOutput es).output = s.output ++ es := rfl
@[simp] theorem State.appendOutput_response (es : List Event) : (s.appendOutput es).response = s.response := rfl
@[simp] theorem State.appendOutput_program (es : List Event) : (s.appendOutput es).program = s.program := rfl
@[simp] theorem State.appendOutput_position (es : List Event) : (s.appendOutput es).position = s.position := rfl

@[simp] theorem State.respond_config (w : Response) : (s.respond w).config = s.config := rfl
@[simp] theorem State.respond_engine (w : Response) : (s.respond w).engine = s.engine := rfl
@[simp] theorem State.respond_onlyCount (w : Response) : (s.respond w).onlyCount = s.onlyCount := rfl
@[simp] theorem State.respond_fault (w : Response) : (s.respond w).fault = s.fault := rfl
@[simp] theorem State.respond_faultCmd (w : Response) : (s.respond w).faultCmd = s.faultCmd := rfl
@[simp] theorem State.respond_halted (w : Response) : (s.respond w).halted = s.halted := rfl
@[simp] theorem State.respond_ctx (w : Response) : (s.respond w).ctx = s.ctx := rfl
@[simp] theorem State.respond_output (w : Response) : (s.respond w).output = s.output := rfl
@[simp] theorem State.respond_response (w : Response) : (s.respond w).response = s.response ++ [w] := rfl
@[simp] theorem State.respond_program (w : Response) : (s.respond w).program = s.program := rfl
@[simp] theorem State.respond_position (w : Response) : (s.respond w).position = s.position := rfl

@[simp] theorem State.advance_config : (s.advance).config = s.config := rfl
@[simp] theorem State.advance_engine : (s.advance).engine = s.engine := rfl
@[simp] theorem State.advance_onlyCount : (s.advance).onlyCount = s.onlyCount := rfl
@[simp] theorem State.advance_fault : (s.advance).fault = s.fault := rfl
@[simp] theorem State.advance_faultCmd : (s.advance).faultCmd = s.faultCmd := rfl
@[simp] theorem State.advance_halted : (s.advance).halted = s.halted := rfl
@[simp] theorem State.advance_ctx : (s.advance).ctx = s.ctx := rfl
@[simp] theorem State.advance_output : (s.advance).output = s.output := rfl
@[simp] theorem State.advance_response : (s.advance).response = s.response := rfl
@[simp] theorem State.advance_program : (s.advance).program = s.program := rfl
@[simp] theorem State.advance_position : (s.advance).position = s.position + 1 := rfl

@[simp] theorem State.enterFault_config (c : FaultCode) (w : Word) : (s.enterFault c w).config = s.config := rfl
@[simp] theorem State.enterFault_engine (c : FaultCode) (w : Word) : (s.enterFault c w).engine = s.engine := rfl
@[simp] theorem State.enterFault_onlyCount (c : FaultCode) (w : Word) : (s.enterFault c w).onlyCount = s.onlyCount := rfl
@[simp] theorem State.enterFault_fault (c : FaultCode) (w : Word) : (s.enterFault c w).fault = c.code := rfl
@[simp] theorem State.enterFault_faultCmd (c : FaultCode) (w : Word) : (s.enterFault c w).faultCmd = w := rfl
@[simp] theorem State.enterFault_halted (c : FaultCode) (w : Word) : (s.enterFault c w).halted = true := rfl
@[simp] theorem State.enterFault_ctx (c : FaultCode) (w : Word) : (s.enterFault c w).ctx = s.ctx := rfl
@[simp] theorem State.enterFault_output (c : FaultCode) (w : Word) : (s.enterFault c w).output = s.output := rfl
@[simp] theorem State.enterFault_response (c : FaultCode) (w : Word) : (s.enterFault c w).response = s.response := rfl
@[simp] theorem State.enterFault_program (c : FaultCode) (w : Word) : (s.enterFault c w).program = s.program := rfl
@[simp] theorem State.enterFault_position (c : FaultCode) (w : Word) : (s.enterFault c w).position = s.position := rfl

@[simp] theorem State.hardReset_config : (s.hardReset).config = s.config := rfl
@[simp] theorem State.hardReset_engine : (s.hardReset).engine = .uninit := rfl
@[simp] theorem State.hardReset_onlyCount : (s.hardReset).onlyCount = 0#1 := rfl
@[simp] theorem State.hardReset_fault : (s.hardReset).fault = 0#8 := rfl
@[simp] theorem State.hardReset_faultCmd : (s.hardReset).faultCmd = 0#64 := rfl
@[simp] theorem State.hardReset_halted : (s.hardReset).halted = false := rfl
@[simp] theorem State.hardReset_ctx : (s.hardReset).ctx = [] := rfl
@[simp] theorem State.hardReset_output : (s.hardReset).output = s.output := rfl
@[simp] theorem State.hardReset_response : (s.hardReset).response = s.response := rfl
@[simp] theorem State.hardReset_program : (s.hardReset).program = s.program := rfl
@[simp] theorem State.hardReset_position : (s.hardReset).position = s.position := rfl

@[simp] theorem State.takeReset_config (rest : List HostInput) : (s.takeReset rest).config = s.config := rfl
@[simp] theorem State.takeReset_engine (rest : List HostInput) : (s.takeReset rest).engine = .uninit := rfl
@[simp] theorem State.takeReset_onlyCount (rest : List HostInput) : (s.takeReset rest).onlyCount = 0#1 := rfl
@[simp] theorem State.takeReset_fault (rest : List HostInput) : (s.takeReset rest).fault = 0#8 := rfl
@[simp] theorem State.takeReset_faultCmd (rest : List HostInput) : (s.takeReset rest).faultCmd = 0#64 := rfl
@[simp] theorem State.takeReset_halted (rest : List HostInput) : (s.takeReset rest).halted = false := rfl
@[simp] theorem State.takeReset_ctx (rest : List HostInput) : (s.takeReset rest).ctx = [] := rfl
@[simp] theorem State.takeReset_output (rest : List HostInput) : (s.takeReset rest).output = s.output := rfl
@[simp] theorem State.takeReset_response (rest : List HostInput) : (s.takeReset rest).response = s.response := rfl
@[simp] theorem State.takeReset_program (rest : List HostInput) : (s.takeReset rest).program = s.program.take s.position ++ rest := rfl
@[simp] theorem State.takeReset_position (rest : List HostInput) : (s.takeReset rest).position = s.position := rfl

@[simp] theorem State.commit_config (k : Coder) : (s.commit k).config = s.config := rfl
@[simp] theorem State.commit_engine (k : Coder) : (s.commit k).engine = .opened k.store := rfl
@[simp] theorem State.commit_onlyCount (k : Coder) : (s.commit k).onlyCount = s.onlyCount := rfl
@[simp] theorem State.commit_fault (k : Coder) : (s.commit k).fault = s.fault := rfl
@[simp] theorem State.commit_faultCmd (k : Coder) : (s.commit k).faultCmd = s.faultCmd := rfl
@[simp] theorem State.commit_halted (k : Coder) : (s.commit k).halted = s.halted := rfl
@[simp] theorem State.commit_ctx (k : Coder) : (s.commit k).ctx = s.ctx := rfl
@[simp] theorem State.commit_output (k : Coder) : (s.commit k).output = s.output ++ k.events := rfl
@[simp] theorem State.commit_response (k : Coder) : (s.commit k).response = s.response := rfl
@[simp] theorem State.commit_program (k : Coder) : (s.commit k).program = s.program := rfl
@[simp] theorem State.commit_position (k : Coder) : (s.commit k).position = s.position := rfl

@[simp] theorem State.present_config (w : Word) : (s.present w).config = s.config := rfl
@[simp] theorem State.present_engine (w : Word) : (s.present w).engine = s.engine := rfl
@[simp] theorem State.present_onlyCount (w : Word) : (s.present w).onlyCount = s.onlyCount := rfl
@[simp] theorem State.present_fault (w : Word) : (s.present w).fault = s.fault := rfl
@[simp] theorem State.present_faultCmd (w : Word) : (s.present w).faultCmd = s.faultCmd := rfl
@[simp] theorem State.present_halted (w : Word) : (s.present w).halted = s.halted := rfl
@[simp] theorem State.present_ctx (w : Word) : (s.present w).ctx = s.ctx := rfl
@[simp] theorem State.present_output (w : Word) : (s.present w).output = s.output := rfl
@[simp] theorem State.present_response (w : Word) : (s.present w).response = s.response := rfl
@[simp] theorem State.present_program (w : Word) : (s.present w).program = placeAt s.program s.position (.command w) .reset := rfl
@[simp] theorem State.present_position (w : Word) : (s.present w).position = s.position := rfl

theorem State.enterFault_eq_faultedBy (c : FaultCode) (w : Word) : s.enterFault c w = s.faultedBy c.code w := rfl

@[simp] theorem State.resetWith_config (c : Config) : (State.resetWith c).config = c := rfl
@[simp] theorem State.resetWith_engine (c : Config) : (State.resetWith c).engine = .uninit := rfl
@[simp] theorem State.resetWith_ctx (c : Config) : (State.resetWith c).ctx = [] := rfl

end Sys2Proof.Machine
end

