-- ==== Sys2Proof/Laws/Memory.lean ====
section
/-! SUPPORT. The context table: a read after a write, and the canonical form every operation keeps (R29, R68). -/

namespace Sys2Proof.Machine

@[simp] theorem Memory.read_nil (i : Nat) : Memory.read [] i = none := rfl

/-- A write to one index leaves every other index as it was. -/
theorem Memory.read_write (m : Memory) (i j : Nat) (p : Packed) :
    Memory.read (Memory.write m i p) j = if j = i then some p else Memory.read m j := by
  induction m with
  | nil =>
    simp only [Memory.write, Memory.read]
    exact if_congr eq_comm rfl rfl
  | cons c rest ih =>
    obtain ⟨a, q⟩ := c
    by_cases h1 : i < a
    · rw [Memory.write, if_pos h1, Memory.read]
      exact if_congr eq_comm rfl rfl
    · by_cases h2 : i = a
      · subst h2
        rw [Memory.write, if_neg h1, if_pos rfl, Memory.read, Memory.read]
        by_cases h3 : j = i
        · rw [if_pos h3.symm, if_pos h3]
        · rw [if_neg (Ne.symm h3), if_neg h3, if_neg (Ne.symm h3)]
      · rw [Memory.write, if_neg h1, if_neg h2, Memory.read, Memory.read, ih]
        by_cases h3 : a = j
        · rw [if_pos h3, if_pos h3, if_neg (fun h => h2 (h.symm.trans h3.symm))]
        · rw [if_neg h3, if_neg h3]

@[simp] theorem Memory.read_write_same (m : Memory) (i : Nat) (p : Packed) :
    Memory.read (Memory.write m i p) i = some p := by simp [Memory.read_write]

/-- A cell of the table after a write is the written one or was there before. -/
theorem Memory.mem_write {m : Memory} {i : Nat} {p : Packed} {c : Nat × Packed} (h : c ∈ Memory.write m i p) :
    c = (i, p) ∨ c ∈ m := by
  induction m with
  | nil => simpa [Memory.write] using h
  | cons d rest ih =>
    obtain ⟨a, q⟩ := d
    simp only [Memory.write] at h
    split_ifs at h <;> simp only [List.mem_cons] at h ⊢ <;> tauto

/-- A write keeps the canonical form. -/
theorem Memory.wf_write {m : Memory} (i : Nat) (p : Packed) (h : Memory.wf m) : Memory.wf (Memory.write m i p) := by
  induction m with
  | nil => simp [Memory.write, Memory.wf]
  | cons d rest ih =>
    obtain ⟨a, q⟩ := d
    have hrest := List.pairwise_cons.mp h
    simp only [Memory.write]
    split_ifs with h1 h2
    · refine List.pairwise_cons.mpr ⟨fun c hc => ?_, h⟩
      rcases List.mem_cons.mp hc with rfl | hc
      · exact h1
      · exact Nat.lt_trans h1 (hrest.1 c hc)
    · exact List.pairwise_cons.mpr ⟨fun c hc => h2 ▸ hrest.1 c hc, hrest.2⟩
    · refine List.pairwise_cons.mpr ⟨fun c hc => ?_, ih hrest.2⟩
      rcases Memory.mem_write hc with rfl | hc
      · simp only
        omega
      · exact hrest.1 c hc

/-- A write inside the table keeps every cell inside it (R61). -/
theorem Memory.bound_write {m : Memory} {n i : Nat} (p : Packed) (h : ∀ c ∈ m, c.1 < n) (hi : i < n) :
    ∀ c ∈ Memory.write m i p, c.1 < n := fun c hc => by
  rcases Memory.mem_write hc with rfl | hc
  · exact hi
  · exact h c hc

/-- The reset table is canonical. -/
theorem Memory.wf_reset : Memory.wf State.reset.ctx := List.Pairwise.nil

end Sys2Proof.Machine
end

