-- ==== Sys2Proof/Laws/Ops.lean ====
section
/-! SUPPORT. What each shared operation can do, said once: the end of a command (R16, R236), the checks it is made of, and the
registers it stores (R13). -/

namespace Sys2Proof.Machine

/-! ### Sequencing -/

/-- A sequence answers a value exactly when its first part does and the rest does with that value. -/
theorem bind_ok_iff {α β : Type} (x : Except Stop α) (f : α → Except Stop β) (b : β) :
    (x >>= f) = .ok b ↔ ∃ a, x = .ok a ∧ f a = .ok b := by
  cases x <;> simp [bind, Except.bind]

/-- A sequence ends early exactly when its first part does, or the rest does with the first part's value. -/
theorem bind_error_iff {α β : Type} (x : Except Stop α) (f : α → Except Stop β) (e : Stop) :
    (x >>= f) = .error e ↔ x = .error e ∨ ∃ a, x = .ok a ∧ f a = .error e := by
  cases x <;> simp [bind, Except.bind]

@[simp] theorem ok_bind {α β : Type} (a : α) (f : α → Except Stop β) : ((.ok a : Except Stop α) >>= f) = f a := rfl
@[simp] theorem error_bind {α β : Type} (e : Stop) (f : α → Except Stop β) :
    ((.error e : Except Stop α) >>= f) = .error e := rfl
@[simp] theorem raise_bind {α β : Type} (c : FaultCode) (f : α → Except Stop β) :
    ((raise c : Except Stop α) >>= f) = raise c := rfl
@[simp] theorem raise_ne_ok {α : Type} (c : FaultCode) (a : α) : (raise c : Except Stop α) ≠ .ok a := by simp [raise]
@[simp] theorem raise_eq_raised {α : Type} (c d : FaultCode) :
    (raise c : Except Stop α) = .error (.raised d) ↔ c = d := by simp [raise]
@[simp] theorem raise_ne_stuck {α : Type} (c : FaultCode) (f : Fault) :
    (raise c : Except Stop α) ≠ .error (.stuck f) := by simp [raise]

/-! ### The end of a command -/

@[simp] theorem complete_ok (s t : State) (w : Word) : s.complete w (.ok t) = .next t := rfl
@[simp] theorem complete_raise (s : State) (w : Word) (c : FaultCode) :
    s.complete w (raise c) = .next (s.enterFault c w) := rfl
@[simp] theorem complete_raised (s : State) (w : Word) (c : FaultCode) :
    s.complete w (.error (.raised c)) = .next (s.enterFault c w) := rfl
@[simp] theorem complete_stuck (s : State) (w : Word) (f : Fault) : s.complete w (.error (.stuck f)) = .fault f := rfl

/-- A command that answers a next state either completed with its whole effect or entered a fault on the state before it. -/
theorem complete_next_iff (s t : State) (w : Word) (r : Except Stop State) :
    s.complete w r = .next t ↔ r = .ok t ∨ ∃ c, r = .error (.raised c) ∧ t = s.enterFault c w := by
  rcases r with (c | f) | u
  · simp [eq_comm]
  · simp
  · simp

/-- A command never ends in a refusal. -/
theorem complete_ne_refused (s : State) (w : Word) (r : Except Stop State) (x : Refusal) : s.complete w r ≠ .refused x := by
  rcases r with (c | f) | u <;> simp

/-- Every fault code is one of 1..15 (R221 to R235). -/
theorem code_bounds (c : FaultCode) : 1 ≤ c.code.toNat ∧ c.code.toNat ≤ 15 := by cases c <;> decide

/-! ### The checks -/

theorem checkedSub_ok_iff (a b d : Nat) : checkedSub a b = .ok d ↔ b ≤ a ∧ d = a - b := by
  unfold checkedSub
  split <;> simp_all [eq_comm]

theorem checkedSub_of_le {a b : Nat} (h : b ≤ a) : checkedSub a b = .ok (a - b) := if_pos h

theorem takeBits_ok_iff (n : Nat) (k k' : Coder) :
    takeBits n k = .ok k' ↔ n ≤ k.bitsLeft ∧ k' = { k with bitsLeft := k.bitsLeft - n } := by
  simp only [takeBits, bind_ok_iff, checkedSub_ok_iff]
  constructor
  · rintro ⟨a, ⟨h, rfl⟩, h'⟩
    exact ⟨h, by simpa using h'.symm⟩
  · rintro ⟨h, rfl⟩
    exact ⟨_, ⟨h, rfl⟩, rfl⟩

theorem takeBits_of_le {n : Nat} {k : Coder} (h : n ≤ k.bitsLeft) :
    takeBits n k = .ok { k with bitsLeft := k.bitsLeft - n } := (takeBits_ok_iff n k _).mpr ⟨h, rfl⟩

/-- `EmitByte`, `count` times (R15): it appends `count` BYTE events, or raises CARRY_OVERFLOW, and does nothing else. -/
theorem emitBytes_ok_iff (count b : Nat) (k k' : Coder) :
    emitBytes count b k = .ok k' ↔
      (count = 0 ∨ b ≤ 0xFF) ∧
        k' = { k with events := k.events ++ List.replicate count (.byte (BitVec.ofNat 8 b)) } := by
  unfold emitBytes
  split_ifs with h1 h2
  · subst h1
    simp only [true_or, List.replicate_zero, List.append_nil, true_and, Except.ok.injEq]
    exact eq_comm
  · simp [h1, Nat.not_le.mpr h2]
  · have : b ≤ 0xFF := Nat.not_lt.mp h2
    simp [this, eq_comm]

theorem emitBits_ok_iff (v n : Nat) (k k' : Coder) :
    emitBits v n k = .ok k' ↔ (1 ≤ n ∧ n ≤ 12) ∧ k' = { k with events := k.events ++ [.bits v n] } := by
  unfold emitBits
  split <;> simp_all [eq_comm]

theorem openRegs_ok_iff (s : State) (r : Regs) : s.openRegs = .ok r ↔ s.engine = .opened r := by
  unfold State.openRegs
  split <;> simp_all

theorem openRegs_of_opened {s : State} {r : Regs} (h : s.engine = .opened r) : s.openRegs = .ok r :=
  (openRegs_ok_iff s r).mpr h

/-- Outside OPEN the check of R223 raises NOT_OPEN. -/
theorem openRegs_of_not_opened {s : State} (h : s.lifecycle ≠ .opened) : s.openRegs = raise .notOpen := by
  unfold State.lifecycle at h
  unfold State.openRegs
  split <;> simp_all

theorem lifecycle_opened_iff (s : State) : s.lifecycle = .opened ↔ ∃ r, s.engine = .opened r := by
  unfold State.lifecycle
  split <;> simp_all

theorem readCtx_ok_iff (s : State) (ctx : BitVec 16) (p : Packed) :
    s.readCtx ctx = .ok p ↔ ctx.toNat < s.config.numCtx ∧ Memory.read s.ctx ctx.toNat = some p := by
  unfold State.readCtx
  split_ifs with h
  · split <;> simp_all
  · simp [h]

/-! ### The registers a command stores (R13) -/

/-- Every value fits its register. -/
structure Coder.Fits (k : Coder) : Prop where
  low : k.low < 2 ^ 32
  range : k.range < 2 ^ 9
  bitsLeft : k.bitsLeft < 2 ^ 6
  bufferedByte : k.bufferedByte < 2 ^ 8
  numBufferedBytes : k.numBufferedBytes < 2 ^ 32

theorem Coder.fits_load (r : Regs) : (Coder.load r).Fits :=
  ⟨r.low.isLt, r.range.isLt, r.bitsLeft.isLt, r.bufferedByte.isLt, r.numBufferedBytes.isLt⟩

/-- Storing values that fit loses nothing (R13): loading the registers again gives the values back. -/
theorem Coder.load_store {k : Coder} (h : k.Fits) : Coder.load k.store = { k with events := [] } := by
  obtain ⟨h1, h2, h3, h4, h5⟩ := h
  simpa [Coder.load, Coder.store] using And.intro h1 (And.intro h2 (And.intro h3 (And.intro h4 h5)))

/-- A command that leaves the values as it loaded them stores the same registers. -/
@[simp] theorem Coder.store_load (r : Regs) : (Coder.load r).store = r := by
  simp [Coder.load, Coder.store]

/-! ### The host's inputs -/

@[simp] theorem placeAt_getElem? {α : Type} (xs : List α) (i : Nat) (x pad : α) : (placeAt xs i x pad)[i]? = some x := by
  unfold placeAt
  rw [List.getElem?_append_right (by simp; omega)]
  simp
  have : i - (min i xs.length + (i - xs.length)) = 0 := by omega
  simp [this]

/-- What the host is made to present is what it presents next. -/
@[simp] theorem State.nextInput_present (s : State) (w : Word) : (s.present w).nextInput = some (.command w) := by
  simp [State.nextInput]

/-- The rest after the first reset pulse: the inputs before the pulse are commands. -/
theorem afterReset_eq_some {xs rest : List HostInput} :
    afterReset xs = some rest ↔ ∃ skipped, xs = skipped ++ .reset :: rest ∧ HostInput.reset ∉ skipped := by
  induction xs with
  | nil => simp [afterReset]
  | cons x xs ih =>
    cases x with
    | reset =>
      constructor
      · intro h
        exact ⟨[], by simpa [afterReset] using h, by simp⟩
      · rintro ⟨skipped, h, hs⟩
        cases skipped with
        | nil => simpa [afterReset] using h
        | cons y ys => simp_all
    | command w =>
      simp only [afterReset, ih]
      constructor
      · rintro ⟨skipped, rfl, hs⟩
        exact ⟨.command w :: skipped, rfl, by simpa using hs⟩
      · rintro ⟨skipped, h, hs⟩
        cases skipped with
        | nil => simp at h
        | cons y ys => exact ⟨ys, by simp_all, by simp_all⟩

theorem afterReset_eq_none {xs : List HostInput} : afterReset xs = none ↔ HostInput.reset ∉ xs := by
  induction xs with
  | nil => simp [afterReset]
  | cons x xs ih => cases x <;> simp [afterReset, ih]

/-- A reset pulse that is presented next leaves exactly the inputs behind it. -/
theorem State.afterReset_upcoming {s : State} (h : s.nextInput = some .reset) :
    afterReset s.upcoming = some (s.program.drop (s.position + 1)) := by
  obtain ⟨hlt, hx⟩ := List.getElem?_eq_some_iff.mp h
  rw [State.upcoming, List.drop_eq_getElem_cons hlt, hx, afterReset]

/-- A block that waits for reset takes the host's next pulse, and has no other step. -/
theorem State.awaitReset_next {s t : State} (h : s.awaitReset = .next t) :
    ∃ rest, afterReset s.upcoming = some rest ∧ t = s.takeReset rest := by
  unfold State.awaitReset at h
  split at h
  · rename_i rest hr
    exact ⟨rest, hr, by simpa [eq_comm] using h⟩
  · simp at h

end Sys2Proof.Machine
end

