-- ==== Sys2Proof/Laws/Emitter.lean ====
section
/-! SUPPORT. What EMIT and the shared steps after a shift step can do, said once (R140, R181 to R187). -/

namespace Sys2Proof.Machine

/-- The mask of EMIT's step 2 keeps the bits below the new carry position (R182). -/
theorem and_mask_eq_mod (x : Nat) {b : Nat} (h : b ≤ 32) : x &&& (0xFFFFFFFF >>> b) = x % 2 ^ (32 - b) := by
  have : 0xFFFFFFFF >>> b = 2 ^ (32 - b) - 1 := by
    rw [Nat.shiftRight_eq_div_pow, show (0xFFFFFFFF : Nat) = 2 ^ 32 - 1 from rfl]
    have hp : 2 ^ 32 = 2 ^ (32 - b) * 2 ^ b := by rw [← pow_add]; congr 1; omega
    have hb : 0 < 2 ^ b := Nat.pos_of_ne_zero (by positivity)
    have hc : 0 < 2 ^ (32 - b) := Nat.pos_of_ne_zero (by positivity)
    rw [hp]
    apply Nat.div_eq_of_lt_le
    · rw [Nat.sub_mul]
      exact Nat.sub_le_sub_left (by omega) _
    · rw [Nat.sub_add_cancel hc]
      exact Nat.sub_lt (Nat.mul_pos hc hb) Nat.one_pos
  rw [this, Nat.and_two_pow_sub_one_eq_mod]

/-- The four things that can become of a lead byte (R183, R184, R186), each with everything it changes. -/
inductive LeadEffect (onlyCount : BitVec 1) (lead : Nat) (k : Coder) : Coder → Prop where
  /-- Count-only mode (R186). -/
  | counted (h : onlyCount = 1#1) :
      LeadEffect onlyCount lead k { k with numBufferedBytes := k.numBufferedBytes + 1 }
  /-- A lead of 0xFF (R183). -/
  | deferred (h : onlyCount ≠ 1#1) (hl : lead = 0xFF) :
      LeadEffect onlyCount lead k { k with numBufferedBytes := k.numBufferedBytes + 1 }
  /-- A pending run is written (R184). -/
  | wrote (h : onlyCount ≠ 1#1) (hl : lead ≠ 0xFF) (hn : 0 < k.numBufferedBytes)
      (hb : k.bufferedByte + lead >>> 8 ≤ 0xFF) :
      LeadEffect onlyCount lead k { k with
        events := k.events ++ .byte (BitVec.ofNat 8 (k.bufferedByte + lead >>> 8)) ::
          List.replicate (k.numBufferedBytes - 1) (.byte (BitVec.ofNat 8 ((0xFF + lead >>> 8) &&& 0xFF)))
        bufferedByte := lead &&& 0xFF
        numBufferedBytes := 1 }
  /-- The first lead of a stream (R184, R113). -/
  | filled (h : onlyCount ≠ 1#1) (hl : lead ≠ 0xFF) (hn : k.numBufferedBytes = 0) (hb : lead ≤ 0xFF) :
      LeadEffect onlyCount lead k { k with bufferedByte := lead &&& 0xFF, numBufferedBytes := 1 }

theorem emitLead_ok {onlyCount : BitVec 1} {lead : Nat} {k k' : Coder} (h : emitLead onlyCount lead k = .ok k') :
    LeadEffect onlyCount lead k k' := by
  unfold emitLead at h
  split_ifs at h with h1 h2 h3 h4
  · cases h
    exact .counted h1
  · cases h
    exact .deferred h1 h2
  · simp only [bind_ok_iff, emitBytes_ok_iff] at h
    obtain ⟨k1, ⟨hb, rfl⟩, k2, ⟨-, rfl⟩, h⟩ := h
    cases h
    simpa using LeadEffect.wrote (k := k) h1 h2 h3 (by simpa using hb)
  · simp at h
  · cases h
    exact .filled h1 h2 (by omega) (by omega)

/-- Every effect of a lead byte happens where its conditions hold. -/
theorem emitLead_of_effect {onlyCount : BitVec 1} {lead : Nat} {k k' : Coder} (h : LeadEffect onlyCount lead k k') :
    emitLead onlyCount lead k = .ok k' := by
  unfold emitLead
  cases h with
  | counted h => rw [if_pos h]
  | deferred h hl => rw [if_neg h, if_pos hl]
  | wrote h hl hn hb =>
    rw [if_neg h, if_neg hl, if_pos hn]
    have h1 : emitBytes 1 (k.bufferedByte + lead >>> 8) k = .ok _ := (emitBytes_ok_iff _ _ _ _).mpr ⟨.inr hb, rfl⟩
    have h2 (k1 : Coder) :
        emitBytes (k.numBufferedBytes - 1) ((0xFF + lead >>> 8) &&& 0xFF) k1 = .ok _ :=
      (emitBytes_ok_iff _ _ _ _).mpr ⟨.inr Nat.and_le_right, rfl⟩
    simp [h1, h2]
  | filled h hl hn hb => rw [if_neg h, if_neg hl, if_neg (by omega), if_neg (by omega)]

/-- EMIT (R181): it answers exactly when the lead has at most one carry, the lead's effect is possible, and the count stays in
its register; `low` keeps its bits below the new carry position and `bits_left` grows by 8. -/
theorem emit_ok_iff {onlyCount : BitVec 1} {k k' : Coder} (hb : k.bitsLeft < 12) :
    emit onlyCount k = .ok k' ↔
      k.low / 2 ^ (24 - k.bitsLeft) ≤ 0x1FF ∧
      LeadEffect onlyCount (k.low / 2 ^ (24 - k.bitsLeft))
        { k with bitsLeft := k.bitsLeft + 8, low := k.low % 2 ^ (24 - k.bitsLeft) } k' ∧
      k'.numBufferedBytes < 2 ^ 32 := by
  have hm : k.low &&& (0xFFFFFFFF >>> (k.bitsLeft + 8)) = k.low % 2 ^ (24 - k.bitsLeft) := by
    rw [and_mask_eq_mod _ (by omega)]
    congr 2
    omega
  simp only [emit, hm]
  rw [Nat.shiftRight_eq_div_pow]
  have hc (k1 k2 : Coder) : checkCount k1 = .ok k2 ↔ k1 = k2 ∧ k1.numBufferedBytes < 2 ^ 32 := by
    unfold checkCount
    split_ifs with h
    · simp only [raise_ne_ok, false_iff, not_and]
      intro _
      omega
    · simp only [Except.ok.injEq]
      refine ⟨fun e => ⟨e, by omega⟩, fun e => e.1⟩
  split_ifs with h
  · simp only [raise_ne_ok, false_iff, not_and]
    omega
  · simp only [bind_ok_iff, hc]
    constructor
    · rintro ⟨k1, h1, rfl, h2⟩
      exact ⟨by omega, emitLead_ok h1, h2⟩
    · rintro ⟨-, h1, h2⟩
      exact ⟨k', emitLead_of_effect h1, rfl, h2⟩

/-- The shared steps (R140) where no emission is due. -/
theorem afterShift_of_no_emission {onlyCount : BitVec 1} {k : Coder} (hl : k.low < 2 ^ 32) (hb : 12 ≤ k.bitsLeft) :
    afterShift onlyCount k = .ok k := by
  unfold afterShift
  rw [if_neg (by omega), if_neg (by omega)]

/-- The shared steps (R140) where an emission is due. -/
theorem afterShift_of_emission {onlyCount : BitVec 1} {k : Coder} (hl : k.low < 2 ^ 32) (hb : k.bitsLeft < 12) :
    afterShift onlyCount k = emit onlyCount k := by
  unfold afterShift
  rw [if_neg (by omega), if_pos hb]

/-- A `low` of 2^32 or more raises LOW_OVERFLOW (R235). -/
theorem afterShift_of_overflow {onlyCount : BitVec 1} {k : Coder} (hl : 2 ^ 32 ≤ k.low) :
    afterShift onlyCount k = raise .lowOverflow := by
  unfold afterShift
  rw [if_pos hl]

/-- Everything the shared steps can do when they answer. -/
theorem afterShift_ok {onlyCount : BitVec 1} {k k' : Coder} (h : afterShift onlyCount k = .ok k') :
    k.low < 2 ^ 32 ∧ ((12 ≤ k.bitsLeft ∧ k' = k) ∨ (k.bitsLeft < 12 ∧ emit onlyCount k = .ok k')) := by
  unfold afterShift at h
  split_ifs at h with h1 h2
  · simp at h
  · exact ⟨by omega, .inr ⟨h2, h⟩⟩
  · cases h
    exact ⟨by omega, .inl ⟨by omega, rfl⟩⟩

/-- The shared steps leave values that fit their registers, where all but `low` fit before (R13). -/
theorem afterShift_fits {onlyCount : BitVec 1} {k k' : Coder} (h : afterShift onlyCount k = .ok k')
    (hr : k.range < 2 ^ 9) (hb : k.bitsLeft < 2 ^ 6) (hbb : k.bufferedByte < 2 ^ 8)
    (hn : k.numBufferedBytes < 2 ^ 32) : k'.Fits := by
  obtain ⟨hl, ⟨-, rfl⟩ | ⟨h12, he⟩⟩ := afterShift_ok h
  · exact ⟨hl, hr, hb, hbb, hn⟩
  · obtain ⟨-, hlead, hc⟩ := (emit_ok_iff h12).mp he
    have hlow : k.low % 2 ^ (24 - k.bitsLeft) < 2 ^ 32 := lt_of_le_of_lt (Nat.mod_le _ _) hl
    have hand : ∀ x : Nat, x &&& 0xFF < 2 ^ 8 := fun x => Nat.lt_succ_of_le Nat.and_le_right
    cases hlead with
    | counted => exact ⟨hlow, hr, by simp only; omega, hbb, hc⟩
    | deferred => exact ⟨hlow, hr, by simp only; omega, hbb, hc⟩
    | wrote => exact ⟨hlow, hr, by simp only; omega, hand _, hc⟩
    | filled => exact ⟨hlow, hr, by simp only; omega, hand _, hc⟩

end Sys2Proof.Machine
end

