-- ==== Sys2Proof/Laws/Roms.lean ====
section
/-! SUPPORT. What R38 and R62 say of the constant tables, entry by entry. -/

namespace Sys2Proof.Machine

/-- For states up to 62 every entry is in 6..240, and its table-driven shift brings it into 256..510 (R38). -/
theorem rangeLps_bounds : ∀ state < 63, ∀ q < 4,
    6 ≤ rangeLps state q ∧ rangeLps state q ≤ 240 ∧
      256 ≤ rangeLps state q * 2 ^ renorm (rangeLps state q / 8) ∧
      rangeLps state q * 2 ^ renorm (rangeLps state q / 8) ≤ 510 := by decide +kernel

/-- State 63's row is 2 (R34). -/
theorem rangeLps_state63 : ∀ q < 4, rangeLps 63 q = 2 := by decide +kernel

/-- Every shift is at most 6 (R35). -/
theorem renorm_le : ∀ i < 32, renorm i ≤ 6 := by decide +kernel

/-- The reduced width of the MPS path is at least 128 for every width in 256..510 and every state (R38). -/
theorem mps_width_bounds {w state : Nat} (hlo : 256 ≤ w) (hhi : w ≤ 510) (hs : state < 64) :
    rangeLps state (w / 64 % 4) ≤ w ∧ 128 ≤ w - rangeLps state (w / 64 % 4) ∧
      w - rangeLps state (w / 64 % 4) ≤ 508 := by
  have key : ∀ st < 64, ∀ q < 4, 2 ≤ rangeLps st q ∧ rangeLps st q ≤ 128 + 64 * q := by decide +kernel
  have hq : w / 64 % 4 < 4 := Nat.mod_lt _ (by omega)
  obtain ⟨h1, h2⟩ := key state hs _ hq
  omega

/-- The state of a packed context is at most 63 (R30, R62). -/
theorem ctxStateOf_lt (p : Packed) : ctxStateOf p < 64 := (p.extractLsb' 1 6).isLt

/-- `state` is the packed value halved (R30). -/
theorem ctxStateOf_eq (p : Packed) : ctxStateOf p = p.toNat / 2 := by
  have h := p.isLt
  simp only [ctxStateOf, BitVec.extractLsb'_toNat, Nat.shiftRight_eq_div_pow]
  omega

/-- `mps` is the packed value's lowest bit (R30). -/
theorem ctxMpsOf_toNat (p : Packed) : (ctxMpsOf p).toNat = p.toNat % 2 := by
  simp [ctxMpsOf, BitVec.extractLsb'_toNat]

/-- `R.range[7:6]` as a quotient (R34, R12). -/
theorem bitField_7_6 (w : Nat) : bitField w 7 6 = w / 64 % 4 := by
  simp [bitField, Nat.shiftRight_eq_div_pow]

end Sys2Proof.Machine
end

