-- ==== Sys2Proof/Laws/BinCoding.lean ====
section
/-! SUPPORT. What the arithmetic of the bin commands can do, said once, and that what a bin command stores fits its register
(R13, R38). -/

namespace Sys2Proof.Machine

/-- The renormalization of the MPS path, when it answers (R144). -/
theorem renormMps_ok_iff (k k' : Coder) :
    renormMps k = .ok k' ↔
      (k.range < 256 ∧ 1 ≤ k.bitsLeft ∧
        k' = { k with low := 2 * k.low, range := 2 * k.range, bitsLeft := k.bitsLeft - 1 }) ∨
      (256 ≤ k.range ∧ k' = k) := by
  unfold renormMps
  split_ifs with h
  · simp only [takeBits_ok_iff, Nat.shiftLeft_eq, pow_one]
    constructor
    · rintro ⟨h1, rfl⟩
      exact .inl ⟨h, h1, by simp [Nat.mul_comm]⟩
    · rintro (⟨-, h1, rfl⟩ | ⟨h2, -⟩)
      · exact ⟨h1, by simp [Nat.mul_comm]⟩
      · omega
  · constructor
    · rintro h1
      cases h1
      exact .inr ⟨by omega, rfl⟩
    · rintro (⟨h1, -⟩ | ⟨-, rfl⟩)
      · omega
      · rfl

/-- The MPS path of ENC_BIN is the reduced width, renormalized (R144). -/
theorem codeRegular_mps_ok_iff {p : Packed} {v : BitVec 1} (hv : v = ctxMpsOf p) (k k' : Coder) :
    codeRegular p v k = .ok k' ↔
      rangeLps (ctxStateOf p) (k.range / 64 % 4) ≤ k.range ∧
        renormMps { k with range := k.range - rangeLps (ctxStateOf p) (k.range / 64 % 4) } = .ok k' := by
  simp only [codeRegular, bitField_7_6, hv, ne_eq, not_true_eq_false, if_false, bind_ok_iff, checkedSub_ok_iff]
  constructor
  · rintro ⟨a, ⟨h, rfl⟩, h'⟩
    exact ⟨h, h'⟩
  · rintro ⟨h, h'⟩
    exact ⟨_, ⟨h, rfl⟩, h'⟩

/-- The LPS path of ENC_BIN (R143), which state 63 never takes (R145). -/
theorem codeRegular_lps_ok_iff {p : Packed} {v : BitVec 1} (hv : v ≠ ctxMpsOf p) (k k' : Coder) :
    codeRegular p v k = .ok k' ↔
      ctxStateOf p ≠ 63 ∧
      rangeLps (ctxStateOf p) (k.range / 64 % 4) ≤ k.range ∧
      renorm (rangeLps (ctxStateOf p) (k.range / 64 % 4) / 8) ≤ k.bitsLeft ∧
      k' = { k with
        low := (k.low + (k.range - rangeLps (ctxStateOf p) (k.range / 64 % 4))) *
          2 ^ renorm (rangeLps (ctxStateOf p) (k.range / 64 % 4) / 8)
        range := rangeLps (ctxStateOf p) (k.range / 64 % 4) *
          2 ^ renorm (rangeLps (ctxStateOf p) (k.range / 64 % 4) / 8)
        bitsLeft := k.bitsLeft - renorm (rangeLps (ctxStateOf p) (k.range / 64 % 4) / 8) } := by
  have h8 (x : Nat) : x >>> 3 = x / 8 := by rw [Nat.shiftRight_eq_div_pow]
  simp only [codeRegular, bitField_7_6, hv, ne_eq, not_false_eq_true, if_true, h8]
  split_ifs with h63
  · simp [h63]
  · simp only [bind_ok_iff, checkedSub_ok_iff, takeBits_ok_iff, Nat.shiftLeft_eq]
    constructor
    · rintro ⟨a, ⟨h, rfl⟩, h', rfl⟩
      exact ⟨h63, h, h', rfl⟩
    · rintro ⟨-, h, h', rfl⟩
      exact ⟨_, ⟨h, rfl⟩, h', rfl⟩

/-- An LPS at state 63 raises CTX_STATE63_LPS before any register changes (R145, R237). -/
theorem codeRegular_state63 {p : Packed} {v : BitVec 1} (hv : v ≠ ctxMpsOf p) (hp : ctxStateOf p = 63) (k : Coder) :
    codeRegular p v k = raise .ctxState63Lps := by
  simp [codeRegular, hv, hp]

/-- One chunk of bypass bins (R152, R153): the shift and the addition, then the shared steps. -/
theorem bypassChunk_ok_iff (onlyCount : BitVec 1) (m pattern : Nat) (k k' : Coder) :
    bypassChunk onlyCount m pattern k = .ok k' ↔
      m ≤ k.bitsLeft ∧
        afterShift onlyCount
          { k with low := k.low * 2 ^ m + k.range * pattern, bitsLeft := k.bitsLeft - m } = .ok k' := by
  simp only [bypassChunk, bind_ok_iff, takeBits_ok_iff, Nat.shiftLeft_eq]
  constructor
  · rintro ⟨a, ⟨h, rfl⟩, h'⟩
    exact ⟨h, h'⟩
  · rintro ⟨h, h'⟩
    exact ⟨_, ⟨h, rfl⟩, h'⟩

/-- The chunk loop with at most 8 bins left is one chunk (R152). -/
theorem bypassRun_of_le (onlyCount : BitVec 1) (fuel : Nat) {m : Nat} (h : m ≤ 8) (b : Nat) (k : Coder) :
    bypassRun onlyCount fuel m b k = bypassChunk onlyCount m b k := by
  cases fuel with
  | zero => rfl
  | succ n => rw [bypassRun, if_neg (by omega)]

/-- The chunk loop with more than 8 bins left: the top 8, then the rest (R152). -/
theorem bypassRun_of_lt (onlyCount : BitVec 1) (fuel : Nat) {m : Nat} (h : 8 < m) (b : Nat) (k : Coder) :
    bypassRun onlyCount (fuel + 1) m b k =
      bypassChunk onlyCount 8 (b / 2 ^ (m - 8)) k >>= bypassRun onlyCount fuel (m - 8) (b % 2 ^ (m - 8)) := by
  rw [bypassRun, if_pos h]
  simp only [Nat.shiftRight_eq_div_pow, Nat.shiftLeft_eq]
  have : b - b / 2 ^ (m - 8) * 2 ^ (m - 8) = b % 2 ^ (m - 8) := by
    have := Nat.div_add_mod b (2 ^ (m - 8))
    rw [Nat.mul_comm] at this
    omega
  rw [this]

/-- The terminate bin (R158). -/
theorem codeTerminate_ok_iff (v : BitVec 1) (k k' : Coder) :
    codeTerminate v k = .ok k' ↔
      2 ≤ k.range ∧
        if v = 1#1 then
          7 ≤ k.bitsLeft ∧
            k' = { k with low := (k.low + (k.range - 2)) * 2 ^ 7, range := 256, bitsLeft := k.bitsLeft - 7 }
        else renormMps { k with range := k.range - 2 } = .ok k' := by
  simp only [codeTerminate, bind_ok_iff, checkedSub_ok_iff]
  constructor
  · rintro ⟨a, ⟨h, rfl⟩, h'⟩
    refine ⟨h, ?_⟩
    split_ifs at h' ⊢ with hv
    · simpa [takeBits_ok_iff, Nat.shiftLeft_eq] using h'
    · exact h'
  · rintro ⟨h, h'⟩
    refine ⟨_, ⟨h, rfl⟩, ?_⟩
    split_ifs at h' ⊢ with hv
    · simpa [takeBits_ok_iff, Nat.shiftLeft_eq] using h'
    · exact h'

/-! ### What a bin command stores fits (R13) -/

theorem bypassChunk_fits {onlyCount : BitVec 1} {m pattern : Nat} {k k' : Coder} (hk : k.Fits)
    (h : bypassChunk onlyCount m pattern k = .ok k') : k'.Fits := by
  obtain ⟨-, h⟩ := (bypassChunk_ok_iff ..).mp h
  refine afterShift_fits h hk.range ?_ hk.bufferedByte hk.numBufferedBytes
  have := hk.bitsLeft
  dsimp only
  omega

theorem bypassRun_fits {onlyCount : BitVec 1} {fuel m b : Nat} {k k' : Coder} (hk : k.Fits)
    (h : bypassRun onlyCount fuel m b k = .ok k') : k'.Fits := by
  induction fuel generalizing m b k with
  | zero => exact bypassChunk_fits hk h
  | succ n ih =>
    rcases Nat.lt_or_ge 8 m with h8 | h8
    · rw [bypassRun_of_lt _ _ h8, bind_ok_iff] at h
      obtain ⟨k1, h1, h2⟩ := h
      exact ih (bypassChunk_fits hk h1) h2
    · rw [bypassRun_of_le _ _ h8] at h
      exact bypassChunk_fits hk h

/-- The MPS renormalization keeps every value but `low` inside its register. -/
theorem renormMps_fits {onlyCount : BitVec 1} {k k1 k2 : Coder} (h : renormMps k = .ok k1)
    (h2 : afterShift onlyCount k1 = .ok k2) (hr : k.range < 2 ^ 9) (hk : k.bitsLeft < 2 ^ 6)
    (hb : k.bufferedByte < 2 ^ 8) (hn : k.numBufferedBytes < 2 ^ 32) : k2.Fits := by
  rcases (renormMps_ok_iff ..).mp h with ⟨h256, -, rfl⟩ | ⟨-, rfl⟩
  · refine afterShift_fits h2 ?_ ?_ hb hn <;> dsimp only <;> omega
  · exact afterShift_fits h2 hr hk hb hn

theorem codeRegular_fits {onlyCount : BitVec 1} {p : Packed} {v : BitVec 1} {k k1 k2 : Coder} (hk : k.Fits)
    (h : codeRegular p v k = .ok k1) (h2 : afterShift onlyCount k1 = .ok k2) : k2.Fits := by
  obtain ⟨-, hr, hbl, hb, hn⟩ := hk
  by_cases hv : v = ctxMpsOf p
  · obtain ⟨-, h⟩ := (codeRegular_mps_ok_iff hv ..).mp h
    refine renormMps_fits h h2 ?_ ?_ ?_ ?_ <;> dsimp only <;> omega
  · obtain ⟨h63, -, -, rfl⟩ := (codeRegular_lps_ok_iff hv ..).mp h
    have hs := ctxStateOf_lt p
    have hb63 := rangeLps_bounds (ctxStateOf p) (by omega) (k.range / 64 % 4) (Nat.mod_lt _ (by omega))
    refine afterShift_fits h2 ?_ ?_ hb hn <;> dsimp only <;> omega

theorem codeTerminate_fits {onlyCount : BitVec 1} {v : BitVec 1} {k k1 k2 : Coder} (hk : k.Fits)
    (h : codeTerminate v k = .ok k1) (h2 : afterShift onlyCount k1 = .ok k2) : k2.Fits := by
  obtain ⟨-, hr, hbl, hb, hn⟩ := hk
  obtain ⟨-, h⟩ := (codeTerminate_ok_iff ..).mp h
  split_ifs at h with hv
  · obtain ⟨-, rfl⟩ := h
    refine afterShift_fits h2 ?_ ?_ hb hn <;> dsimp only <;> omega
  · refine renormMps_fits h h2 ?_ ?_ ?_ ?_ <;> dsimp only <;> omega

end Sys2Proof.Machine
end

