-- ==== Sys2Proof/Laws/PerInstr.lean ====
section
/-! SUPPORT. A fact about every command as syntax: its word carries its opcode in `cmd[3:0]` and no reserved bit (R83, R84). -/

namespace Sys2Proof.Laws.EncodeFits

/-- The word of `i` has `i`'s opcode and every bit outside its used mask 0. -/
def Statement (i : Instr) : Prop := fieldOp (encode i) = i.opcode.toBits ∧ reservedPart i.opcode (encode i) = 0#64

/-- A word with the opcode's bits low and nothing outside the used mask has the two properties, bit by bit. -/
theorem of_bits {i : Instr} (h4 : ∀ j < 4, (encode i).getLsbD j = i.opcode.toBits.getLsbD j)
    (hm : ∀ j < 64, i.opcode.format.usedMask.getLsbD j = false → (encode i).getLsbD j = false) : Statement i := by
  constructor
  · ext j hj
    have := h4 j hj
    simp only [fieldOp, BitVec.getElem_extractLsb', Nat.zero_add]
    rw [this, BitVec.getLsbD_eq_getElem hj]
  · ext j hj
    have := hm j hj
    simp only [reservedPart, BitVec.getElem_and, BitVec.getElem_not, BitVec.getElem_zero]
    rw [← BitVec.getLsbD_eq_getElem hj, ← BitVec.getLsbD_eq_getElem hj]
    cases hu : i.opcode.format.usedMask.getLsbD j
    · simp [this hu]
    · simp

theorem start : Statement .start := ⟨rfl, rfl⟩

theorem encBin (ctx : BitVec 16) (v : BitVec 1) : Statement (.encBin ctx v) := by
  refine of_bits (fun j hj => ?_) (fun j hj => ?_) <;>
    interval_cases j <;> simp [encode, Instr.opcode, Opcode.toBits, Opcode.format, Format.usedMask]

theorem encEp (v : BitVec 1) : Statement (.encEp v) := by
  refine of_bits (fun j hj => ?_) (fun j hj => ?_) <;>
    interval_cases j <;> simp [encode, Instr.opcode, Opcode.toBits, Opcode.format, Format.usedMask]

theorem encEps (bits : BitVec 32) (n : BitVec 6) : Statement (.encEps bits n) := by
  refine of_bits (fun j hj => ?_) (fun j hj => ?_) <;>
    interval_cases j <;> simp [encode, Instr.opcode, Opcode.toBits, Opcode.format, Format.usedMask]

theorem encTrm (v : BitVec 1) : Statement (.encTrm v) := by
  refine of_bits (fun j hj => ?_) (fun j hj => ?_) <;>
    interval_cases j <;> simp [encode, Instr.opcode, Opcode.toBits, Opcode.format, Format.usedMask]

theorem finish : Statement .finish := ⟨rfl, rfl⟩

theorem setCnt (v : BitVec 1) : Statement (.setCnt v) := by
  refine of_bits (fun j hj => ?_) (fun j hj => ?_) <;>
    interval_cases j <;> simp [encode, Instr.opcode, Opcode.toBits, Opcode.format, Format.usedMask]

theorem ctxWr (ctx : BitVec 16) (packed : Packed) : Statement (.ctxWr ctx packed) := by
  refine of_bits (fun j hj => ?_) (fun j hj => ?_) <;>
    interval_cases j <;> simp [encode, Instr.opcode, Opcode.toBits, Opcode.format, Format.usedMask]

theorem ctxRd (ctx : BitVec 16) : Statement (.ctxRd ctx) := by
  refine of_bits (fun j hj => ?_) (fun j hj => ?_) <;>
    interval_cases j <;> simp [encode, Instr.opcode, Opcode.toBits, Opcode.format, Format.usedMask]

theorem regRd (sel : BitVec 4) : Statement (.regRd sel) := by
  refine of_bits (fun j hj => ?_) (fun j hj => ?_) <;>
    interval_cases j <;> simp [encode, Instr.opcode, Opcode.toBits, Opcode.format, Format.usedMask]

end Sys2Proof.Laws.EncodeFits
end

