-- ==== Sys2Proof/Machine/Run.lean ====
section
/-! DEFINITION. A run of a host program on the block, from the first line to one of the three outcomes of R264. -/

namespace Sys2Proof.Machine

/-- The three outcomes of a run (R264). -/
inductive RunOutcome where
  /-- Every command was performed. -/
  | completed
  /-- Some command faulted; the remaining commands were not performed. -/
  | faulted
  /-- The host refused a line; no command of it or after it was issued. -/
  | refused (why : HostRefusal)
  deriving DecidableEq, Repr

/-- The run is over (R264): the host has presented every input, or the block is halted with no reset pulse to come, so that the
remaining commands are not performed. -/
def State.ended (s : State) : Bool :=
  decide (s.program.length ≤ s.position) || (s.halted && (afterReset s.upcoming).isNone)

/-- The outcome of a run that has ended in `s`, where `refusal` is what the host refused, if anything (R264). A run that ends halted
has failed (R238), also where the host would have refused a later line (DESIGN CHOICE, log entry 26). Where a reset pulse ended a
halt and the run went on, the outcome is that of the inputs behind the pulse (DESIGN CHOICE, log entry 23). -/
def State.runOutcome (s : State) (refusal : Option HostRefusal) : RunOutcome :=
  if s.halted then .faulted
  else
    match refusal with
    | some why => .refused why
    | none => .completed

/-- A completed run with lifecycle FINISHED has a closed stream; with lifecycle OPEN its stream is still open (R264). -/
def State.streamClosed (s : State) : Bool := decide (s.lifecycle = .finished)

/-- Step until the run is over, or until the model has no step. The first argument bounds the number of steps. -/
def runInputs : Nat → State → State
  | 0, s => s
  | fuel + 1, s =>
    if s.ended then s
    else
      match step s with
      | .next t => runInputs fuel t
      | .fault _ => s
      | .refused _ => s

/-- The host presents these inputs, from the first one. -/
def State.load (s : State) (inputs : List HostInput) : State := { s with program := inputs, position := 0 }

/-- A whole run of a host program from `s` (R264): the final state and the outcome; no outcome where a stop of the model (log
entry 7) left the run without an end. -/
def hostRun (lines : List AsmLine) (s : State) : State × Option RunOutcome :=
  let (inputs, refusal) := hostProgram lines
  let t := runInputs inputs.length (s.load inputs)
  (t, if t.ended then some (t.runOutcome refusal) else none)

end Sys2Proof.Machine
end

