-- ==== Sys2Proof/Laws/Run.lean ====
section
/-! SUPPORT. What a run can do, said once (R264). -/

namespace Sys2Proof.Machine

section

variable (s : State)

@[simp] theorem State.load_config (inputs : List HostInput) : (s.load inputs).config = s.config := rfl
@[simp] theorem State.load_engine (inputs : List HostInput) : (s.load inputs).engine = s.engine := rfl
@[simp] theorem State.load_onlyCount (inputs : List HostInput) : (s.load inputs).onlyCount = s.onlyCount := rfl
@[simp] theorem State.load_fault (inputs : List HostInput) : (s.load inputs).fault = s.fault := rfl
@[simp] theorem State.load_faultCmd (inputs : List HostInput) : (s.load inputs).faultCmd = s.faultCmd := rfl
@[simp] theorem State.load_halted (inputs : List HostInput) : (s.load inputs).halted = s.halted := rfl
@[simp] theorem State.load_ctx (inputs : List HostInput) : (s.load inputs).ctx = s.ctx := rfl
@[simp] theorem State.load_output (inputs : List HostInput) : (s.load inputs).output = s.output := rfl
@[simp] theorem State.load_response (inputs : List HostInput) : (s.load inputs).response = s.response := rfl
@[simp] theorem State.load_program (inputs : List HostInput) : (s.load inputs).program = inputs := rfl
@[simp] theorem State.load_position (inputs : List HostInput) : (s.load inputs).position = 0 := rfl

end

/-- What every step keeps, a run keeps. -/
theorem runInputs_keeps {P : State → Prop} (hstep : ∀ s t, P s → step s = .next t → P t) (fuel : Nat) (s : State) (hs : P s) :
    P (runInputs fuel s) := by
  induction fuel generalizing s with
  | zero => exact hs
  | succ fuel ih =>
    unfold runInputs
    split
    · exact hs
    · split
      · rename_i t ht
        exact ih t (hstep s t hs ht)
      · exact hs
      · exact hs

/-- R264's three outcomes exclude each other and leave nothing out. -/
theorem State.runOutcome_completed_iff {s : State} {refusal : Option HostRefusal} :
    s.runOutcome refusal = .completed ↔ s.halted = false ∧ refusal = none := by
  cases hh : s.halted <;> cases refusal <;> simp [State.runOutcome, hh]

theorem State.runOutcome_faulted_iff {s : State} {refusal : Option HostRefusal} :
    s.runOutcome refusal = .faulted ↔ s.halted = true := by
  cases hh : s.halted <;> cases refusal <;> simp [State.runOutcome, hh]

theorem State.runOutcome_refused_iff {s : State} {refusal : Option HostRefusal} {why : HostRefusal} :
    s.runOutcome refusal = .refused why ↔ s.halted = false ∧ refusal = some why := by
  cases hh : s.halted <;> cases refusal <;> simp [State.runOutcome, hh]

/-- A run's outcome, where it has one, is that of its final state and of the line the host refused. -/
theorem hostRun_outcome {lines : List AsmLine} {s t : State} {o : RunOutcome} (h : hostRun lines s = (t, some o)) :
    t.ended = true ∧ o = t.runOutcome (hostProgram lines).2 := by
  simp only [hostRun, Prod.mk.injEq] at h
  obtain ⟨rfl, h⟩ := h
  split at h
  · rename_i he
    exact ⟨he, by simpa [eq_comm] using h⟩
  · simp at h

end Sys2Proof.Machine
end

