-- ==== Sys2Proof/Laws/Step.lean ====
section
/-! SUPPORT. What one step can do, said once. -/

namespace Sys2Proof.Machine

/-- Everything a step that answers a next state can have been: hardware reset, an idle step, a word that is no command, or a
command by its own rule. -/
theorem step_cases {s t : State} (h : step s = .next t) :
    (s.TakesReset ∧ ∃ rest, afterReset s.upcoming = some rest ∧ t = s.takeReset rest) ∨
    (s.halted = false ∧ s.nextInput = none ∧ t = s) ∨
    (s.halted = false ∧ ∃ w, s.nextInput = some (.command w) ∧
      ((∃ e, decode w = .error e ∧ t = s.advance.enterFault (DecodeError.faultCode e) w) ∨
        (∃ i, decode w = .ok i ∧ exec i s.advance = .next t))) := by
  unfold step at h
  split at h
  · rename_i hh
    obtain ⟨rest, hr, ht⟩ := State.awaitReset_next h
    refine .inl ⟨.inr ⟨hh, ?_⟩, rest, hr, ht⟩
    obtain ⟨skipped, hs, -⟩ := afterReset_eq_some.mp hr
    simp [hs]
  · rename_i hh
    have hh : s.halted = false := by simpa using hh
    split at h
    · rename_i hn
      exact .inr (.inl ⟨hh, hn, by simpa [State.whenIdle, eq_comm] using h⟩)
    · rename_i hn
      exact .inl ⟨.inl hn, State.awaitReset_next h⟩
    · rename_i w hn
      refine .inr (.inr ⟨hh, w, hn, ?_⟩)
      split at h
      · rename_i e he
        exact .inl ⟨e, he, by simpa [State.whenRejected, eq_comm] using h⟩
      · rename_i i hi
        exact .inr ⟨i, hi, h⟩

/-- A halted block waits for reset, whatever the host presents. -/
theorem step_halted {s : State} (hh : s.halted = true) : step s = s.awaitReset := by simp [step, hh]

/-- The command `withFetchWord` places is the one the very next step runs. -/
theorem step_withFetchWord {s : State} {nbits w : Nat} {i : Instr} (hh : s.halted = false)
    (hd : decodeTableWord nbits w = some i) :
    step (s.withFetchWord nbits w) = exec i (s.withFetchWord nbits w).advance := by
  have hdec : decode (tableWord nbits w) = .ok i := by
    unfold decodeTableWord at hd
    split at hd <;> simp_all
  have hn : (s.withFetchWord nbits w).nextInput = some (.command (tableWord nbits w)) := by
    simp [State.withFetchWord]
  have hf : (s.withFetchWord nbits w).halted = false := by simpa [State.withFetchWord] using hh
  simp [step, hn, hf, hdec]

end Sys2Proof.Machine
end

