-- ==== Sys2Proof/Laws/Stream.lean ====
section
/-! SUPPORT. The bitstream as a number: widths and values of appended events (R64, R65), and the values of runs of equal bytes
(R185). -/

namespace Sys2Proof.Machine

@[simp] theorem eventsWidth_nil : eventsWidth [] = 0 := rfl
@[simp] theorem eventsWidth_append (a b : List Event) : eventsWidth (a ++ b) = eventsWidth a + eventsWidth b := by
  simp [eventsWidth]
@[simp] theorem eventsWidth_cons (e : Event) (b : List Event) : eventsWidth (e :: b) = e.width + eventsWidth b := by
  simp [eventsWidth]
@[simp] theorem eventsWidth_replicate_byte (n : Nat) (b : BitVec 8) :
    eventsWidth (List.replicate n (.byte b)) = 8 * n := by
  simp [eventsWidth, Event.width, Nat.mul_comm]

@[simp] theorem eventsValue_nil : eventsValue [] = 0 := rfl

theorem foldl_value (es : List Event) (acc : Nat) :
    es.foldl (fun acc e => acc * 2 ^ e.width + e.value) acc = acc * 2 ^ eventsWidth es + eventsValue es := by
  induction es generalizing acc with
  | nil => simp
  | cons e rest ih =>
    have h0 : eventsValue (e :: rest) = e.value * 2 ^ eventsWidth rest + eventsValue rest := by
      simp only [eventsValue, List.foldl_cons, Nat.zero_mul, Nat.zero_add]
      rw [ih]
      rfl
    rw [List.foldl_cons, ih, h0, eventsWidth_cons, pow_add]
    ring

/-- Appending events shifts the number spelt so far and adds theirs (R64). -/
theorem eventsValue_append (a b : List Event) :
    eventsValue (a ++ b) = eventsValue a * 2 ^ eventsWidth b + eventsValue b := by
  rw [eventsValue, List.foldl_append, ← eventsValue, foldl_value]

theorem eventsValue_cons (e : Event) (b : List Event) :
    eventsValue (e :: b) = e.value * 2 ^ eventsWidth b + eventsValue b := by
  rw [← List.singleton_append, eventsValue_append]
  simp [eventsValue]

/-- A run of 0x00 bytes spells 0. -/
@[simp] theorem eventsValue_replicate_zero (n : Nat) : eventsValue (List.replicate n (.byte 0#8)) = 0 := by
  induction n with
  | zero => rfl
  | succ n ih => simp [List.replicate_succ, eventsValue_cons, ih, Event.value]

/-- A run of `n` bytes 0xFF spells one less than the next power of 256: a carry into it gives a 1 and `n` bytes 0x00 (R183). -/
theorem eventsValue_replicate_ff (n : Nat) : eventsValue (List.replicate n (.byte 0xFF#8)) + 1 = 2 ^ (8 * n) := by
  induction n with
  | zero => rfl
  | succ n ih =>
    rw [List.replicate_succ, eventsValue_cons, eventsWidth_replicate_byte]
    have : (Event.byte 0xFF#8).value = 255 := rfl
    rw [this, Nat.mul_succ, pow_add]
    omega

end Sys2Proof.Machine
end

