-- ==== Sys2Proof/Tests/Slice0.lean ====
section
/-! SUPPORT. Small tests, of one step each but for R264's outcomes, with the expected values of 95_test_vectors.md or worked by hand from a rule, and for
every statement with hypotheses a state and operands that meet them. -/

namespace Sys2Proof.Machine

/-- The next state of an outcome. -/
def nextOf (o : Host.Outcome State Fault Refusal) : Option State :=
  match o with
  | .next t => some t
  | .fault _ => none
  | .refused _ => none

/-- `(low, range, bits_left, buffered_byte, num_buffered_bytes)`, as 95_test_vectors.md writes a register state. -/
def regsOf (low range bl bb nbb : Nat) : Regs :=
  ⟨BitVec.ofNat 32 low, BitVec.ofNat 9 range, BitVec.ofNat 6 bl, BitVec.ofNat 8 bb, BitVec.ofNat 32 nbb⟩

/-- An open stream with `NUM_CTX = 4`, as 95_test_vectors.md section 0 takes it. -/
def openState (r : Regs) (ctx : Memory) : State := { State.resetWith ⟨4⟩ with engine := .opened r, ctx := ctx }

/-- The fresh stream of 95_test_vectors.md section 0. -/
def fresh (ctx : Memory) : State := openState (regsOf 0 510 23 255 0) ctx

/-- `s` in count-only mode. -/
def counting (s : State) : State := { s with onlyCount := 1#1 }

/-- `s` with one input of the host. -/
def given (s : State) (x : HostInput) : State := { s with program := [x], position := 0 }

/-- Registers, first context and output after an outcome; none where it faulted or is no next state. -/
def seen (o : Host.Outcome State Fault Refusal) : Option (Engine × Option Packed × List Event) :=
  match nextOf o with
  | none => none
  | some t => if t.halted then none else some (t.engine, Memory.read t.ctx 0, t.output)

/-- The status port after an outcome. -/
def statusOf (o : Host.Outcome State Fault Refusal) : Option (BitVec 1 × BitVec 8 × Word) := (nextOf o).map State.statusPort

/-! ### Well-formedness (R91) -/

theorem test_eps_count_refused : (Instr.encEps 0#32 33#6).wellFormed = false := by decide
theorem test_eps_wide_refused : (Instr.encEps 4#32 2#6).wellFormed = false := by decide
theorem test_reg_select_refused : (Instr.regRd 6#4).wellFormed = false := by decide
theorem test_eps_full_accepted : (Instr.encEps 0xFFFFFFFF#32 32#6).wellFormed = true := by decide

/-! ### Decoding: words of 95_test_vectors.md and R91, written out from R81 -/

theorem test_decode_start : decode 0x0000000000000001#64 = .ok .start := by rfl
theorem test_decode_enc_bin : decode 0x0000000000020012#64 = .ok (.encBin 2#16 1#1) := by rfl
theorem test_decode_enc_bin_ctx : decode 0x00000000800A0002#64 = .ok (.encBin 0x800A#16 0#1) := by rfl
theorem test_decode_enc_ep : decode 0x0000000000000013#64 = .ok (.encEp 1#1) := by rfl
theorem test_decode_enc_eps : decode 0x0000ABCD00001004#64 = .ok (.encEps 0xABCD#32 16#6) := by rfl
theorem test_decode_enc_eps_ff : decode 0xFFFFFFFF00002004#64 = .ok (.encEps 0xFFFFFFFF#32 32#6) := by rfl
theorem test_decode_enc_trm : decode 0x0000000000000015#64 = .ok (.encTrm 1#1) := by rfl
theorem test_decode_finish : decode 0x0000000000000006#64 = .ok .finish := by rfl
theorem test_decode_set_cnt : decode 0x0000000000000017#64 = .ok (.setCnt 1#1) := by rfl
theorem test_decode_ctx_wr : decode 0x0000003C00020008#64 = .ok (.ctxWr 2#16 0x3C#7) := by rfl
theorem test_decode_ctx_rd : decode 0x00000000FFFF0009#64 = .ok (.ctxRd 65535#16) := by rfl
theorem test_decode_reg_rd : decode 0x000000000000050A#64 = .ok (.regRd 5#4) := by rfl
theorem test_decode_zero : decode 0x0000000000000000#64 = .error .illegalOpcode := by rfl
theorem test_decode_op_f : decode 0x000000000000000F#64 = .error .illegalOpcode := by rfl
theorem test_decode_start_bit4 : decode 0x0000000000000011#64 = .error .reservedBits := by rfl
theorem test_decode_eps_bit4 : decode 0x0000000000002114#64 = .error .reservedBits := by rfl
theorem test_encode_ctx_wr : encode (.ctxWr 2#16 0x3C#7) = 0x0000003C00020008#64 := by rfl

/-! ### Engine control (95_test_vectors.md 2.1) -/

/-- EC2: START from UNINIT. -/
theorem test_start : seen (exec .start State.reset) = some (.opened (regsOf 0 510 23 255 0), none, []) := by decide
/-- EC6: START from FINISHED opens a new stream. -/
theorem test_start_again :
    seen (exec .start { State.reset with engine := .finished (regsOf 65024 256 16 255 0) }) =
      some (.opened (regsOf 0 510 23 255 0), none, []) := by decide
/-- FN2: a carry through a run of three. -/
theorem test_finish_carry :
    seen (exec .finish (openState (regsOf 70144 256 16 65 3) [])) =
      some (.finished (regsOf 4608 256 16 65 1), none, [.byte 0x42#8, .byte 0#8, .byte 0#8, .bits 18 8]) := by decide
/-- FN5: no carry, one byte pending. -/
theorem test_finish_no_carry :
    seen (exec .finish (openState (regsOf 703710 300 12 7 1) [])) =
      some (.finished (regsOf 703710 300 12 7 1), none, [.byte 7#8, .bits 2748 12]) := by decide
/-- EC3: SET_CNT 1, then STATUS 3. -/
theorem test_set_cnt : (nextOf (exec (.setCnt 1#1) (fresh []))).map State.statusWord = some 3#32 := by decide
/-- EC8 and EC7: CTX_WR, CTX_RD. -/
theorem test_ctx_wr : (nextOf (exec (.ctxWr 2#16 0x3C#7) (State.resetWith ⟨4⟩))).map (fun t => Memory.read t.ctx 2) =
    some (some 0x3C#7) := by decide
theorem test_ctx_rd : (nextOf (exec (.ctxRd 1#16) (fresh [(0, 2#7), (1, 0x55#7)]))).map State.response = some [85#32] := by
  decide
/-- EC2: REG_RD 1 after START; EC5: STATUS 4 in FINISHED. -/
theorem test_reg_rd_range : (nextOf (exec (.regRd 1#4) (fresh []))).map State.response = some [510#32] := by decide
theorem test_reg_rd_status :
    (nextOf (exec (.regRd 5#4) { State.reset with engine := .finished (regsOf 65024 256 16 255 0) })).map State.response =
      some [4#32] := by decide

/-! ### Bin coding (95_test_vectors.md 2.2 to 2.6) -/

/-- B5: an LPS at state 62, the largest shift. -/
theorem test_enc_bin_lps :
    seen (exec (.encBin 0#16 1#1) (openState (regsOf 0 256 23 255 0) [(0, 124#7)])) =
      some (.opened (regsOf 16000 384 17 255 0), some 76#7, []) := by decide
/-- B10: an LPS with an emission. -/
theorem test_enc_bin_emits :
    seen (exec (.encBin 0#16 1#1) (openState (regsOf 4660 400 12 85 1) [(0, 40#7)])) =
      some (.opened (regsOf 3564 292 18 1 1), some 32#7, [.byte 0x55#8]) := by decide
/-- M5: a carry through a pending run. -/
theorem test_enc_ep_carry :
    seen (exec (.encEp 0#1) (openState (regsOf 1257479 256 12 65 3) [])) =
      some (.opened (regsOf 14 256 19 51 1), none, [.byte 0x42#8, .byte 0#8, .byte 0#8]) := by decide
/-- M6: a lead of 0x1FF goes to `buffered_byte`, not to the count. -/
theorem test_enc_ep_lead_1ff :
    seen (exec (.encEp 0#1) (openState (regsOf 2093056 256 12 65 2) [])) =
      some (.opened (regsOf 0 256 19 255 1), none, [.byte 0x42#8, .byte 0#8]) := by decide
/-- S5e: four chunks, three emissions, nothing written. -/
theorem test_enc_eps_32 :
    seen (exec (.encEps 0xFFFFFFFF#32 32#6) (fresh [])) = some (.opened (regsOf 130562 510 15 254 3), none, []) := by decide
/-- X2 command 4: three bytes from one ENC_EPS. -/
theorem test_enc_eps_writes :
    seen (exec (.encEps 0x00FF#32 16#6) (openState (regsOf 130562 510 15 254 2) [])) =
      some (.opened (regsOf 130050 510 15 1 1), none, [.byte 0xFE#8, .byte 0xFF#8, .byte 0xFF#8]) := by decide
/-- T3: 255 doubled. -/
theorem test_enc_trm_zero :
    seen (exec (.encTrm 0#1) (openState (regsOf 3 257 20 255 0) [])) =
      some (.opened (regsOf 6 510 19 255 0), none, []) := by decide
/-- T5: a terminate bin that emits. -/
theorem test_enc_trm_one :
    seen (exec (.encTrm 1#1) (openState (regsOf 1023 300 13 32 1) [])) =
      some (.opened (regsOf 169088 256 14 0 1), none, [.byte 0x20#8]) := by decide
/-- M7: count-only mode. -/
theorem test_count_mode :
    seen (exec (.encEp 0#1) (counting (openState (regsOf 1257472 256 12 65 3) []))) =
      some (.opened (regsOf 0 256 19 65 4), none, []) := by decide

/-! ### Faults (95_test_vectors.md 2.7) and the step -/

theorem test_fault_priority :
    statusOf (step (given State.reset (.command 0x0000000000002114#64))) = some (1#1, 2#8, 0x2114#64) := by decide
theorem test_fault_not_open :
    statusOf (step (given State.reset (.command 0x0000000000090002#64))) = some (1#1, 3#8, 0x90002#64) := by decide
/-- M8, M11 and the LOW_OVERFLOW vector. -/
theorem test_fault_carry :
    statusOf (exec (.encEp 0#1) (openState (regsOf 1257472 256 12 255 1) [])) = some (1#1, 10#8, 3#64) := by decide
theorem test_fault_nbb :
    statusOf (exec (.encEp 0#1) (counting (openState (regsOf 0 256 12 255 4294967295) []))) = some (1#1, 12#8, 3#64) := by
  decide
theorem test_fault_low :
    statusOf (exec (.encEp 0#1) (openState (regsOf 0x80000000 510 23 255 0) [])) = some (1#1, 15#8, 3#64) := by decide
/-- 2.7 Halt: START is not performed after a fault, and hardware reset is the only step (R238, R240). -/
theorem test_halt :
    step (given (State.reset.enterFault .notOpen 0x13#64) (.command 1#64)) = .fault .halted := by rfl
/-- A START presented before the pulse is not performed: the lifecycle is UNINIT and the index has not moved. -/
theorem test_reset_ends_halt :
    (nextOf (step { State.reset.enterFault .notOpen 0x13#64 with program := [.command 1#64, .reset, .command 9#64] })).map
      (fun t => (t.statusPort, t.lifecycle, t.program, t.position)) =
    some ((0#1, 0#8, 0#64), .uninit, [.command 9#64], 0) := by decide
theorem test_with_fetch_word : seen (step (State.reset.withFetchWord 64 1)) =
    some (.opened (regsOf 0 510 23 255 0), none, []) := by decide
/-- The model's own stop, in a register state outside R53. -/
theorem test_model_stop : (exec (.encEp 0#1) (openState (regsOf 0 256 0 255 0) [])) = .fault .belowZero := by rfl

/-! ### The host's side (95_test_vectors.md section 3) -/

theorem test_coeff_remain_short : coeffRemain 47 4 = .ok [.encEps 6#32 3#6, .encEps 0xF#32 4#6] := by rfl
theorem test_coeff_remain_long : coeffRemain 1000 1 = .ok [.encEps 0xFFE#32 12#6, .encEps 0x1E4#32 9#6] := by rfl
theorem test_egk : egk 100 2 = .ok [.encEps 0x7A8#32 11#6] := by rfl
theorem test_tu_ctx : tuCtx 2 3 10 1 = .ok [.encBin 10#16 1#1, .encBin 11#16 1#1, .encBin 11#16 0#1] := by rfl
theorem test_tu_ep_refused : tuEp 4 3 = .error .truncatedUnaryOperand := by rfl
theorem test_ctx_wr_pair : assemble (.ctxWrPair 2 30 0) = .ok [.ctxWr 2#16 0x3C#7] := by rfl
/-- R91: `REG_RD STATUS` is `REG_RD 5`, the word 0x50A. -/
theorem test_reg_rd_named :
    (assemble (.regRdNamed .status)).toOption.map (fun l => l.map encode) = some [0x50A#64] := by decide
theorem test_program_stops_at_refusal :
    hostProgram [.start, .egk 0 (-1), .finish] = ([.command 1#64], some .expGolombOperand) := by rfl
/-- R264's three outcomes: P7's first stream; ENC_EP before START with a refused line behind it; a refused line behind START. -/
theorem test_run_completed : (hostRun [.start, .encTrm 1, .finish] State.reset).2 = some .completed := by decide
theorem test_run_faulted : (hostRun [.encEp 1, .start, .egk 0 (-1)] State.reset).2 = some .faulted := by decide
theorem test_run_refused :
    (hostRun [.start, .egk 0 (-1), .finish] State.reset).2 = some (.refused .expGolombOperand) ∧
      (hostRun [.start, .egk 0 (-1), .finish] State.reset).1.lifecycle = .opened := by decide
/-- S1 with trailing bits is FE 80. -/
theorem test_aligned_s1 : alignedStream [.bits 254 8] = msbFirst 0xFE80 16 := by decide
/-- P7: the streams of two FINISH commands. -/
theorem test_closed_streams :
    closedStreams [] [.bits 254 8, .byte 1#8, .bits 509 9, .byte 2#8] = [[.bits 254 8], [.byte 1#8, .bits 509 9]] := by
  decide

/-! ### A witness for the hypotheses of each statement -/

/-- An open stream that codes in normal mode, with a run pending and contexts 0 (state 20), 1 (state 63) written. -/
def busy : State := openState (regsOf 4660 400 12 85 1) [(0, 40#7), (1, 126#7)]
/-- Its registers. -/
def busyRegs : Regs := regsOf 4660 400 12 85 1

theorem busy_normal : busy.CodingNormal busyRegs := by
  refine ⟨⟨rfl, by decide, fun _ => by decide, by decide⟩, rfl⟩
theorem busy_counting : (counting busy).Coding busyRegs ∧ (counting busy).onlyCount = 1#1 := by
  refine ⟨⟨rfl, by decide, fun h => by revert h; decide, by decide⟩, rfl⟩
/-- At the edge of R50 and R52: `buffered_byte` 0xFF and the top of the interval at the carry position. -/
def edgeRegs : Regs := regsOf (2 ^ 20 - 510) 510 12 255 3
theorem edge_normal : (openState edgeRegs [(0, 0#7)]).CodingNormal edgeRegs := by
  refine ⟨⟨rfl, by decide, fun _ => by decide, by decide⟩, rfl⟩
theorem fresh_normal : (fresh [(0, 0#7)]).CodingNormal (regsOf 0 510 23 255 0) := by
  refine ⟨⟨rfl, by decide, fun _ => by decide, by decide⟩, rfl⟩

theorem busy_admits_enc_bin : isBin (.encBin 0#16 1#1) = true ∧ busy.Admits (.encBin 0#16 1#1) :=
  ⟨rfl, by decide, 40#7, rfl, by decide⟩
theorem busy_admits_state63_mps : isBin (.encBin 1#16 0#1) = true ∧ busy.Admits (.encBin 1#16 0#1) :=
  ⟨rfl, by decide, 126#7, rfl, by decide⟩
theorem busy_admits_enc_ep : isBin (.encEp 1#1) = true ∧ busy.Admits (.encEp 1#1) := ⟨rfl, trivial⟩
theorem busy_admits_enc_eps_full :
    isBin (.encEps 0xFFFFFFFF#32 32#6) = true ∧ busy.Admits (.encEps 0xFFFFFFFF#32 32#6) := ⟨rfl, by decide, by decide⟩
theorem busy_admits_enc_eps_none : isBin (.encEps 0#32 0#6) = true ∧ busy.Admits (.encEps 0#32 0#6) :=
  ⟨rfl, by decide, by decide⟩
theorem busy_admits_enc_trm : isBin (.encTrm 1#1) = true ∧ busy.Admits (.encTrm 1#1) := ⟨rfl, trivial⟩

theorem witness_EncodeOfDecodeIsTheWord : decode 0x0000ABCD00001004#64 = .ok (.encEps 0xABCD#32 16#6) := by rfl

theorem witness_IllegalOpcodeRaisesCode1_zero :
    (given State.reset (.command 0x10#64)).halted = false ∧
      (given State.reset (.command 0x10#64)).nextInput = some (.command 0x10#64) ∧ (0x10#64).toNat % 16 = 0 := by decide
theorem witness_IllegalOpcodeRaisesCode1_b :
    (given State.reset (.command 0xB#64)).halted = false ∧
      (given State.reset (.command 0xB#64)).nextInput = some (.command 0xB#64) ∧ 11 ≤ (0xB#64).toNat % 16 := by decide
theorem witness_ReservedBitsRaiseCode2 :
    (given State.reset (.command 0x11#64)).halted = false ∧
      (given State.reset (.command 0x11#64)).nextInput = some (.command 0x11#64) ∧
      (0x11#64).toNat % 16 = 1 ∧ 0x11#64 &&& ~~~ 0x000000000000000F#64 ≠ 0#64 := by decide
theorem witness_ReservedBitsRaiseCode2_eps :
    (0x0000000000002114#64).toNat % 16 = 4 ∧ 0x0000000000002114#64 &&& ~~~ 0xFFFFFFFF00003F0F#64 ≠ 0#64 := by decide

theorem witness_StepRunsTheDecodedCommand :
    (given State.reset (.command 1#64)).halted = false ∧
      (given State.reset (.command 1#64)).nextInput = some (.command 1#64) ∧ decode 1#64 = .ok .start := ⟨rfl, rfl, rfl⟩
/-- A halted block with a START presented before the reset pulse. -/
def haltedThenReset : State := { busy.enterFault .alreadyOpen 1#64 with program := [.command 1#64, .reset, .command 9#64] }
theorem witness_HaltedBlockStepsOnlyByReset_stuck :
    (given (State.reset.enterFault .notOpen 0x13#64) (.command 1#64)).halted = true ∧
      HostInput.reset ∉ (given (State.reset.enterFault .notOpen 0x13#64) (.command 1#64)).program.drop 0 := by decide
theorem witness_HaltedBlockStepsOnlyByReset_reset :
    haltedThenReset.halted = true ∧ (nextOf (step haltedThenReset)).isSome = true := by decide
theorem witness_HaltedBlockStepsOnlyByReset_idle : State.reset.halted = false ∧ State.reset.nextInput = none := by decide
theorem witness_HardwareResetClearsAllButTheChannels :
    (given busy .reset).program.drop (given busy .reset).position = [] ++ .reset :: [] ∧
      HostInput.reset ∉ ([] : List HostInput) ∧ ((given busy .reset).halted = false → ([] : List HostInput) = []) := by decide
theorem witness_HardwareResetClearsAllButTheChannels_halted :
    haltedThenReset.program.drop haltedThenReset.position = [.command 1#64] ++ .reset :: [.command 9#64] ∧
      HostInput.reset ∉ [HostInput.command 1#64] ∧ haltedThenReset.halted = true := by decide

theorem witness_FaultsArePrecise : State.reset.halted = false ∧
    exec (.encEp 1#1) State.reset = .next (State.reset.enterFault .notOpen 0x13#64) ∧
    (State.reset.enterFault .notOpen 0x13#64).halted = true := ⟨rfl, rfl, rfl⟩
theorem witness_NotOpenIsRaisedOutsideOpen :
    State.reset.lifecycle ≠ .opened ∧ ((32#6).toNat ≤ 32 ∧ (5#32).toNat < 2 ^ (32#6).toNat) := by decide
theorem witness_NotOpenIsRaisedOutsideOpen_finished :
    State.lifecycle { State.reset with engine := .finished busyRegs } ≠ .opened := by decide
theorem witness_StartAndFinishAreRefusedInOpen :
    (counting busy).lifecycle = .opened ∧ (counting busy).onlyCount = 1#1 := by decide
theorem witness_ContextOperandFaults_range : busy.config.numCtx ≤ (4#16).toNat ∧ busy.lifecycle = .opened := by decide
theorem witness_ContextOperandFaults_unwritten :
    (3#16).toNat < busy.config.numCtx ∧ Memory.read busy.ctx (3#16).toNat = none ∧ busy.lifecycle = .opened := by decide
theorem witness_LpsAtState63RaisesCode7 :
    busy.engine = .opened busyRegs ∧ (1#16).toNat < busy.config.numCtx ∧ Memory.read busy.ctx (1#16).toNat = some 126#7 ∧
      (126#7).toNat / 2 = 63 ∧ (1#1).toNat ≠ (126#7).toNat % 2 := by decide
theorem witness_EpsFieldFaults_count : 32 < (33#6).toNat := by decide
theorem witness_EpsFieldFaults_wide : (0#6).toNat ≤ 32 ∧ 2 ^ (0#6).toNat ≤ (1#32).toNat := by decide

theorem witness_UnwritableCarryRaisesCode10_lead :
    (regsOf 2097152 256 12 65 1).bitsLeft = 12#6 ∧ 2 * (regsOf 2097152 256 12 65 1).low.toNat + 256 * 0 < 2 ^ 32 ∧
      0x1FF < (2 * (regsOf 2097152 256 12 65 1).low.toNat + 256 * 0) / 2 ^ 13 := by decide
theorem witness_UnwritableCarryRaisesCode10_empty :
    (regsOf 1257472 256 12 255 0).bitsLeft = 12#6 ∧ (regsOf 1257472 256 12 255 0).numBufferedBytes = 0#32 ∧
      0xFF < (2 * (regsOf 1257472 256 12 255 0).low.toNat + 256 * 0) / 2 ^ 13 := by decide
theorem witness_UnwritableCarryRaisesCode10_ff :
    (regsOf 1257472 256 12 255 1).bitsLeft = 12#6 ∧ (regsOf 1257472 256 12 255 1).bufferedByte = 0xFF#8 ∧
      0xFF < (2 * (regsOf 1257472 256 12 255 1).low.toNat + 256 * 0) / 2 ^ 13 := by decide
theorem witness_CounterAndLowOverflowFaults_counter :
    (regsOf 0 256 12 255 4294967295).bitsLeft = 12#6 ∧
      (regsOf 0 256 12 255 4294967295).numBufferedBytes = 0xFFFFFFFF#32 ∧
      2 * (regsOf 0 256 12 255 4294967295).low.toNat + 256 * 0 < 2 ^ 22 := by decide
theorem witness_CounterAndLowOverflowFaults_low :
    1 ≤ (regsOf 0x80000000 510 1 255 0).bitsLeft.toNat ∧
      2 ^ 32 ≤ 2 * (regsOf 0x80000000 510 1 255 0).low.toNat + 510 * 0 := by decide

theorem witness_StartSetsTheStreamRegisters : State.reset.lifecycle ≠ .opened := by decide
theorem witness_SetCntWritesOnlyTheFlag : busy.lifecycle = .opened := by decide
theorem witness_CtxWrWritesOneContext : (3#16).toNat < busy.config.numCtx := by decide
theorem witness_CtxRdRespondsWithTheContext :
    (1#16).toNat < busy.config.numCtx ∧ Memory.read busy.ctx (1#16).toNat = some 126#7 := by decide
theorem witness_RegRdReadOutMap_finished :
    State.engine { busy with engine := .finished busyRegs } = .finished busyRegs ∧ busy.engine = .opened busyRegs := by decide
theorem witness_RegRdReadOutMap_faults :
    5 < (6#4).toNat ∧ (4#4).toNat ≤ 4 ∧ State.reset.lifecycle = .uninit := by decide

theorem witness_FinishWithCarry :
    (regsOf 70144 256 16 65 3).low.toNat / 2 ^ (32 - (regsOf 70144 256 16 65 3).bitsLeft.toNat) = 1 ∧
      (regsOf 70144 256 16 65 3).bufferedByte ≠ 0xFF#8 ∧ 12 ≤ (regsOf 70144 256 16 65 3).bitsLeft.toNat ∧
      (regsOf 70144 256 16 65 3).bitsLeft.toNat ≤ 23 := by decide
theorem witness_FinishWithoutCarry_pending :
    busy.engine = .opened busyRegs ∧ busy.onlyCount = 0#1 ∧ 12 ≤ busyRegs.bitsLeft.toNat ∧ busyRegs.bitsLeft.toNat ≤ 23 ∧
      busyRegs.low.toNat < 2 ^ (32 - busyRegs.bitsLeft.toNat) := by decide
theorem witness_FinishWithoutCarry_nothing_pending :
    (regsOf 0 510 23 255 0).low.toNat < 2 ^ (32 - (regsOf 0 510 23 255 0).bitsLeft.toNat) := by decide

theorem witness_EncBinLpsWithoutEmission :
    (fresh [(0, 0#7)]).engine = .opened (regsOf 0 510 23 255 0) ∧ (regsOf 0 510 23 255 0).Bounded ∧
      (0#16).toNat < (fresh [(0, 0#7)]).config.numCtx ∧ Memory.read (fresh [(0, 0#7)]).ctx (0#16).toNat = some 0#7 ∧
      (0#7).toNat / 2 ≤ 62 ∧ (1#1).toNat ≠ (0#7).toNat % 2 ∧
      12 + renorm (rangeLps ((0#7).toNat / 2) ((regsOf 0 510 23 255 0).range.toNat / 64 % 4) / 8) ≤ 23 := by decide
theorem witness_EncBinLpsWithoutEmission_state62 :
    (regsOf 0 256 18 255 0).Bounded ∧ (124#7).toNat / 2 ≤ 62 ∧ (1#1).toNat ≠ (124#7).toNat % 2 ∧
      12 + renorm (rangeLps ((124#7).toNat / 2) ((regsOf 0 256 18 255 0).range.toNat / 64 % 4) / 8) ≤ 18 := by decide
theorem witness_EncBinMpsWithoutEmission_kept :
    (fresh [(0, 0#7)]).engine = .opened (regsOf 0 510 23 255 0) ∧ (regsOf 0 510 23 255 0).Bounded ∧
      (0#16).toNat < (fresh [(0, 0#7)]).config.numCtx ∧ Memory.read (fresh [(0, 0#7)]).ctx (0#16).toNat = some 0#7 ∧
      (0#1).toNat = (0#7).toNat % 2 ∧ ¬ (510 - rangeLps 0 (510 / 64 % 4) < 256) := by decide
theorem witness_EncBinMpsWithoutEmission_doubled :
    (regsOf 0 256 13 255 0).Bounded ∧ (0#1).toNat = (0#7).toNat % 2 ∧ 256 - rangeLps 0 (256 / 64 % 4) < 256 ∧
      13 ≤ (regsOf 0 256 13 255 0).bitsLeft.toNat := by decide
theorem witness_EncEpWithoutEmission :
    (fresh []).engine = .opened (regsOf 0 510 23 255 0) ∧ 13 ≤ (regsOf 0 510 23 255 0).bitsLeft.toNat ∧
      2 * (regsOf 0 510 23 255 0).low.toNat + (regsOf 0 510 23 255 0).range.toNat * (1#1).toNat < 2 ^ 32 := by decide
theorem witness_EncEpsOneChunkWithoutEmission :
    (fresh []).engine = .opened (regsOf 0 510 23 255 0) ∧ (8#6).toNat ≤ 8 ∧ (0xFF#32).toNat < 2 ^ (8#6).toNat ∧
      12 + (8#6).toNat ≤ (regsOf 0 510 23 255 0).bitsLeft.toNat ∧
      (regsOf 0 510 23 255 0).low.toNat * 2 ^ (8#6).toNat + (regsOf 0 510 23 255 0).range.toNat * (0xFF#32).toNat < 2 ^ 32 := by
  decide
theorem witness_EncEpsOneChunkWithoutEmission_none :
    (0#6).toNat ≤ 8 ∧ (0#32).toNat < 2 ^ (0#6).toNat ∧ 12 + (0#6).toNat ≤ (regsOf 77 300 12 255 0).bitsLeft.toNat := by decide
theorem witness_EncTrmWithoutEmission_one :
    (fresh []).engine = .opened (regsOf 0 510 23 255 0) ∧ (regsOf 0 510 23 255 0).Bounded ∧
      19 ≤ (regsOf 0 510 23 255 0).bitsLeft.toNat ∧ 256 ≤ (regsOf 0 510 23 255 0).range.toNat - 2 := by decide
theorem witness_EncTrmWithoutEmission_doubled :
    (regsOf 3 257 13 255 0).Bounded ∧ (regsOf 3 257 13 255 0).range.toNat - 2 < 256 ∧
      13 ≤ (regsOf 3 257 13 255 0).bitsLeft.toNat := by decide
theorem witness_EncTrmWithoutEmission_kept :
    (regsOf 3 258 12 255 0).Bounded ∧ 256 ≤ (regsOf 3 258 12 255 0).range.toNat - 2 := by decide

theorem witness_EmissionWritesThePendingRun :
    (regsOf 1257479 256 12 65 3).bitsLeft = 12#6 ∧
      (2 * (regsOf 1257479 256 12 65 3).low.toNat + 256 * 0) / 2 ^ 13 = 0x133 ∧
      (regsOf 1257479 256 12 65 3).numBufferedBytes ≠ 0#32 ∧
      (regsOf 1257479 256 12 65 3).bufferedByte.toNat + 0x133 / 256 ≤ 0xFF := by decide
theorem witness_EmissionDefersOrFillsTheBuffer_deferred :
    (2 * (regsOf 1044480 256 12 16 1).low.toNat + 256 * 0) / 2 ^ 13 = 0xFF ∧
      (regsOf 1044480 256 12 16 1).numBufferedBytes ≠ 0xFFFFFFFF#32 := by decide
theorem witness_EmissionDefersOrFillsTheBuffer_filled :
    (2 * (regsOf 368640 256 12 255 0).low.toNat + 256 * 0) / 2 ^ 13 < 0xFF ∧
      (regsOf 368640 256 12 255 0).numBufferedBytes = 0#32 := by decide
theorem witness_CountModeEmissionOnlyCounts :
    (counting busy).engine = .opened busyRegs ∧ (counting busy).onlyCount = 1#1 ∧ busyRegs.bitsLeft = 12#6 ∧
      (2 * busyRegs.low.toNat + busyRegs.range.toNat * (1#1).toNat) / 2 ^ 13 ≤ 0x1FF ∧
      busyRegs.numBufferedBytes ≠ 0xFFFFFFFF#32 := by decide

theorem witness_FinishFlushesTheCodedValue : busy.CodingNormal busyRegs := busy_normal
theorem witness_BinCommandsCompleteInsideTheBounds :
    busy.Coding busyRegs ∧ isBin (.encBin 0#16 1#1) = true ∧ busy.Admits (.encBin 0#16 1#1) :=
  ⟨busy_normal.toCoding, busy_admits_enc_bin⟩
/-- The same in count-only mode, with the largest ENC_EPS. -/
theorem witness_BinCommandsCompleteInsideTheBounds_counting :
    (counting busy).Coding busyRegs ∧ isBin (.encEps 0xFFFFFFFF#32 32#6) = true ∧
      (counting busy).Admits (.encEps 0xFFFFFFFF#32 32#6) :=
  ⟨busy_counting.1, rfl, by decide, by decide⟩
theorem witness_EncBinMovesOneContext :
    busy.Coding busyRegs ∧ busy.Admits (.encBin 0#16 1#1) ∧ Memory.read busy.ctx (0#16).toNat = some 40#7 :=
  ⟨busy_normal.toCoding, busy_admits_enc_bin.2, by decide⟩
theorem witness_BinCommandsRefineTheIdealCoder :
    busy.CodingNormal busyRegs ∧ isBin (.encTrm 1#1) = true ∧ busy.Admits (.encTrm 1#1) := ⟨busy_normal, busy_admits_enc_trm⟩
theorem witness_CountModeFollowsNormalMode :
    busy.CodingNormal busyRegs ∧ isBin (.encEps 0xFF#32 8#6) = true ∧ busy.Admits (.encEps 0xFF#32 8#6) :=
  ⟨busy_normal, rfl, by decide, by decide⟩
theorem witness_CountedBitsCountTheShifts :
    (counting busy).Coding busyRegs ∧ (counting busy).onlyCount = 1#1 ∧ isBin (.encEp 1#1) = true ∧
      (counting busy).Admits (.encEp 1#1) := ⟨busy_counting.1, rfl, rfl, trivial⟩
theorem witness_ResetMeetsTheInvariant : Config.Valid ⟨1⟩ ∧ Config.Valid ⟨65536⟩ := by decide
theorem witness_EncEpsCodesTheSameBitsAsSingleBins :
    busy.CodingNormal busyRegs ∧ (∀ e ∈ busy.output, e.wellFormed = true) ∧ (32#6).toNat ≤ 32 ∧
      (0xFFFFFFFF#32).toNat < 2 ^ (32#6).toNat ∧ busyRegs.numBufferedBytes.toNat + 40 < 2 ^ 32 :=
  ⟨busy_normal, by decide, by decide, by decide, by decide⟩

/-- R156's example: after `ENC_EPS 0xD2D5, 16` and after the 16 single bins, from a fresh stream. -/
def chunked : State := openState (regsOf 1110 510 15 210 1) []
def single : State := openState (regsOf 132182 510 15 209 1) []
theorem witness_SameCodeStaysTheSame :
    chunked.CodingNormal (regsOf 1110 510 15 210 1) ∧ single.CodingNormal (regsOf 132182 510 15 209 1) ∧
      SameCode chunked (regsOf 1110 510 15 210 1) single (regsOf 132182 510 15 209 1) ∧ chunked.Admits (.encEp 1#1) := by
  refine ⟨⟨⟨rfl, by decide, fun _ => by decide, by decide⟩, rfl⟩, ⟨⟨rfl, by decide, fun _ => by decide, by decide⟩, rfl⟩,
    ⟨by decide, by decide, rfl, rfl, rfl⟩, trivial⟩

theorem witness_OneEmissionWritesAtMostThePendingRun :
    busy.engine = .opened busyRegs ∧ isBin (.encEp 1#1) = true ∧ (∀ bits n, Instr.encEp 1#1 ≠ .encEps bits n) ∧
      (nextOf (exec (.encEp 1#1) busy)).isSome = true := by
  refine ⟨rfl, rfl, ?_, by decide⟩
  intro _ _ h
  cases h

theorem witness_StepKeepsTheInvariant :
    (State.resetWith ⟨65536⟩).Inv ∧ step (State.resetWith ⟨65536⟩) = .next (State.resetWith ⟨65536⟩) :=
  ⟨⟨by decide, trivial, by decide, by decide, by decide, by decide, by decide, by decide, by decide⟩, rfl⟩
/-- The invariant in the middle of a stream, with a command presented. -/
theorem witness_StepKeepsTheInvariant_open :
    (given busy (.command 0x13#64)).Inv ∧ (nextOf (step (given busy (.command 0x13#64)))).isSome = true :=
  ⟨⟨by decide, show busyRegs.Inv by decide, by decide, by decide, by decide, by decide, by decide, by decide, by decide⟩,
    by decide⟩
theorem witness_LowAndCarryOverflowNeverInsideTheBounds :
    busy.engine = .opened busyRegs ∧ busyRegs.Inv ∧ busy.fault = 0#8 ∧ busyRegs.NoCarryInto0xFF ∧
      (nextOf (exec .finish busy)).isSome = true := by decide
theorem witness_StepGoesOnUnlessHalted :
    (State.resetWith ⟨65536⟩).Inv ∧ (State.resetWith ⟨65536⟩).halted = false :=
  ⟨witness_StepKeepsTheInvariant.1, rfl⟩
theorem witness_StepGoesOnUnlessHalted_reset :
    haltedThenReset.Inv ∧ HostInput.reset ∈ haltedThenReset.program.drop haltedThenReset.position :=
  ⟨⟨by decide, show busyRegs.Inv by decide, by decide, by decide, by decide, by decide, by decide, by decide, by decide⟩,
    by decide⟩
theorem witness_PositionCountsAcceptedCommands :
    (nextOf (step (given busy (.command 0x13#64)))).map State.position = some 1 ∧
      (nextOf (step (given busy .reset))).map State.position = some 0 := by decide
theorem witness_ChannelsOnlyGrow : (nextOf (step (given busy .reset))).isSome = true := by decide
theorem witness_OnlyReadCommandsRespond :
    (nextOf (step (given busy (.command 0x10A#64)))).map State.response = some [400#32] := by decide
theorem witness_OnlyEncBinAndCtxWrChangeAContext :
    (nextOf (step (given busy (.command 0x12#64)))).map (fun t => Memory.read t.ctx 0) = some (some 32#7) ∧
      Memory.read (given busy (.command 0x12#64)).ctx 0 = some 40#7 := by decide
theorem witness_LifecycleMoves :
    (nextOf (step (given State.reset (.command 1#64)))).map State.lifecycle = some .opened ∧
      (nextOf (step (given busy (.command 6#64)))).map State.lifecycle = some .finished ∧
      (nextOf (step (given busy .reset))).map State.lifecycle = some .uninit := by decide
theorem witness_FaultRegistersAreWrittenOnlyByFaultEntry :
    (nextOf (step (given busy (.command 1#64)))).map (fun t => (t.halted, t.fault, t.faultCmd)) = some (true, 4#8, 1#64) := by
  decide

theorem witness_SplitRunsKeepTheBins : 2 ^ 71 - 3 < 2 ^ 71 := by decide
theorem witness_CoeffRemainShortForm : 4 ≤ 4 ∧ 47 < 3 * 2 ^ 4 := by decide
theorem witness_CoeffRemainLongForm : 4 ≤ 4 ∧ 3 * 2 ^ 4 ≤ 48 := by decide
theorem witness_TruncatedUnaryBins : 3 ≤ 3 ∧ 65535 + 0 < 65536 := by decide

end Sys2Proof.Machine
end

section
/-! SUPPORT. No command gets stuck inside the bounds of R50 and R51: every part of a command answers a value or raises a fault of
the block, so that a step always has a next state (R13, R270). -/

namespace Sys2Proof.Machine

/-- A part of a command that never ends in a stop of the model: it answers a value or raises a fault of the block (R13). -/
def NeverStuck {α : Type} (x : Except Stop α) : Prop := ∀ f : Fault, x ≠ .error (.stuck f)

/-! ### Sequencing, and the end of a command -/

@[simp] theorem neverStuck_ok {α : Type} (a : α) : NeverStuck (.ok a : Except Stop α) := fun _ => nofun

@[simp] theorem neverStuck_raise {α : Type} (c : FaultCode) : NeverStuck (raise c : Except Stop α) :=
  fun _ => raise_ne_stuck c _

/-- A sequence never gets stuck where its first part does not, and the rest does not with any value the first part answers. -/
theorem NeverStuck.bind {α β : Type} {x : Except Stop α} {g : α → Except Stop β} (hx : NeverStuck x)
    (hg : ∀ a, x = .ok a → NeverStuck (g a)) : NeverStuck (x >>= g) := by
  intro f h
  rcases (bind_error_iff x g _).mp h with hxf | ⟨a, ha, hgf⟩
  · exact hx f hxf
  · exact hg a ha f hgf

/-- A command whose steps never get stuck has a next state: its whole effect, or fault entry (R16, R236). -/
theorem complete_next_of_neverStuck {s : State} {w : Word} {x : Except Stop State} (h : NeverStuck x) :
    ∃ t, s.complete w x = .next t := by
  rcases x with (c | f) | t
  · exact ⟨_, complete_raised s w c⟩
  · exact absurd rfl (h f)
  · exact ⟨t, complete_ok s t w⟩

/-! ### Arithmetic and events -/

theorem checkedSub_neverStuck {a b : Nat} (h : b ≤ a) : NeverStuck (checkedSub a b) := by
  rw [checkedSub_of_le h]
  exact neverStuck_ok _

theorem takeBits_neverStuck {n : Nat} {k : Coder} (h : n ≤ k.bitsLeft) : NeverStuck (takeBits n k) := by
  rw [takeBits_of_le h]
  exact neverStuck_ok _

theorem emitBytes_neverStuck (count b : Nat) (k : Coder) : NeverStuck (emitBytes count b k) := by
  unfold emitBytes
  split_ifs <;> simp

theorem emitBits_neverStuck (v : Nat) {n : Nat} (k : Coder) (h : 1 ≤ n ∧ n ≤ 12) : NeverStuck (emitBits v n k) := by
  rw [emitBits, if_pos h]
  exact neverStuck_ok _

/-! ### The checks of a command -/

theorem openRegs_neverStuck (s : State) : NeverStuck s.openRegs := by
  unfold State.openRegs
  split <;> simp

theorem requireNotOpen_neverStuck (s : State) : NeverStuck s.requireNotOpen := by
  unfold State.requireNotOpen
  split <;> simp

theorem heldRegs_neverStuck (s : State) : NeverStuck s.heldRegs := by
  unfold State.heldRegs
  split <;> simp

theorem requireNormalMode_neverStuck (s : State) : NeverStuck s.requireNormalMode := by
  unfold State.requireNormalMode
  split_ifs <;> simp

theorem requireCtxInRange_neverStuck (s : State) (ctx : BitVec 16) : NeverStuck (s.requireCtxInRange ctx) := by
  unfold State.requireCtxInRange
  split_ifs <;> simp

theorem readCtx_neverStuck (s : State) (ctx : BitVec 16) : NeverStuck (s.readCtx ctx) := by
  unfold State.readCtx
  split_ifs
  · split <;> simp
  · simp

theorem requireEpsFields_neverStuck (bits : BitVec 32) (n : BitVec 6) : NeverStuck (requireEpsFields bits n) := by
  unfold requireEpsFields
  split_ifs <;> simp

theorem selectReg_neverStuck (s : State) (sel : BitVec 4) : NeverStuck (s.selectReg sel) := by
  unfold State.selectReg
  split_ifs
  · simp
  · simp
  · refine (heldRegs_neverStuck s).bind fun r _ => ?_
    split <;> simp

/-! ### The emitter (R140, R181) -/

theorem emitLead_neverStuck (onlyCount : BitVec 1) (lead : Nat) (k : Coder) :
    NeverStuck (emitLead onlyCount lead k) := by
  unfold emitLead
  split_ifs
  · simp
  · simp
  · exact (emitBytes_neverStuck _ _ _).bind fun k1 _ => (emitBytes_neverStuck _ _ _).bind fun k2 _ => neverStuck_ok _
  · simp
  · simp

theorem checkCount_neverStuck (k : Coder) : NeverStuck (checkCount k) := by
  unfold checkCount
  split_ifs <;> simp

theorem emit_neverStuck (onlyCount : BitVec 1) (k : Coder) : NeverStuck (emit onlyCount k) := by
  unfold emit
  dsimp only
  split_ifs
  · simp
  · exact (emitLead_neverStuck _ _ _).bind fun k1 _ => checkCount_neverStuck k1

theorem afterShift_neverStuck (onlyCount : BitVec 1) (k : Coder) : NeverStuck (afterShift onlyCount k) := by
  unfold afterShift
  split_ifs
  · simp
  · exact emit_neverStuck onlyCount k
  · simp

/-- An emission gives 8 bit positions back, and it is due only below 12 (R180, R181). -/
theorem afterShift_bitsLeft {onlyCount : BitVec 1} {k k' : Coder} (h : afterShift onlyCount k = .ok k') :
    (12 ≤ k.bitsLeft ∧ k'.bitsLeft = k.bitsLeft) ∨ (k.bitsLeft < 12 ∧ k'.bitsLeft = k.bitsLeft + 8) := by
  obtain ⟨-, ⟨h12, rfl⟩ | ⟨h12, he⟩⟩ := afterShift_ok h
  · exact .inl ⟨h12, rfl⟩
  · obtain ⟨-, hlead, -⟩ := (emit_ok_iff h12).mp he
    exact .inr ⟨h12, by cases hlead <;> rfl⟩

/-! ### Bin coding: every subtraction has a value inside the bounds (R13, R38, R50, R51) -/

theorem renormMps_neverStuck {k : Coder} (hb : 1 ≤ k.bitsLeft) : NeverStuck (renormMps k) := by
  unfold renormMps
  split_ifs
  · exact takeBits_neverStuck hb
  · simp

theorem codeRegular_neverStuck {p : Packed} {v : BitVec 1} {k : Coder} (hlo : 256 ≤ k.range) (hhi : k.range ≤ 510)
    (hb : 6 ≤ k.bitsLeft) : NeverStuck (codeRegular p v k) := by
  obtain ⟨hlps, -, -⟩ := mps_width_bounds hlo hhi (ctxStateOf_lt p)
  have hsub : NeverStuck (checkedSub k.range (rangeLps (ctxStateOf p) (bitField k.range 7 6))) :=
    checkedSub_neverStuck (by rwa [bitField_7_6])
  unfold codeRegular
  dsimp only
  split_ifs with hv h63
  · simp
  · refine hsub.bind fun _ _ => takeBits_neverStuck (le_trans ?_ hb)
    have hstate := ctxStateOf_lt p
    obtain ⟨-, h240, -⟩ :=
      rangeLps_bounds (ctxStateOf p) (by omega) (bitField k.range 7 6) (by rw [bitField_7_6]; omega)
    exact renorm_le _ (by rw [Nat.shiftRight_eq_div_pow]; omega)
  · exact hsub.bind fun _ _ => renormMps_neverStuck (le_trans (by omega) hb)

theorem codeTerminate_neverStuck {v : BitVec 1} {k : Coder} (hr : 2 ≤ k.range) (hb : 7 ≤ k.bitsLeft) :
    NeverStuck (codeTerminate v k) := by
  refine (checkedSub_neverStuck hr).bind fun _ _ => ?_
  split_ifs
  · exact takeBits_neverStuck hb
  · exact renormMps_neverStuck (le_trans (by omega) hb)

theorem bypassChunk_neverStuck {onlyCount : BitVec 1} {m pattern : Nat} {k : Coder} (hm : m ≤ k.bitsLeft) :
    NeverStuck (bypassChunk onlyCount m pattern k) := by
  refine NeverStuck.bind (takeBits_neverStuck ?_) fun k1 _ => afterShift_neverStuck onlyCount k1
  exact hm

/-- A chunk of at most 8 bins takes at most what an emission gives back, so R51's lower bound holds again after it. -/
theorem bypassChunk_bitsLeft {onlyCount : BitVec 1} {m pattern : Nat} {k k' : Coder} (hm : m ≤ 8) (hb : 12 ≤ k.bitsLeft)
    (h : bypassChunk onlyCount m pattern k = .ok k') : 12 ≤ k'.bitsLeft := by
  obtain ⟨-, h⟩ := (bypassChunk_ok_iff ..).mp h
  rcases afterShift_bitsLeft h with ⟨h12, he⟩ | ⟨h12, he⟩ <;> dsimp only at h12 he <;> omega

/-- The chunk loop never gets stuck while its bound is enough for the bins that remain. -/
theorem bypassRun_neverStuck {onlyCount : BitVec 1} {fuel m b : Nat} {k : Coder} (hm : m ≤ fuel) (hb : 12 ≤ k.bitsLeft) :
    NeverStuck (bypassRun onlyCount fuel m b k) := by
  induction fuel generalizing m b k with
  | zero => exact bypassChunk_neverStuck (by omega)
  | succ fuel ih =>
    rcases Nat.lt_or_ge 8 m with h8 | h8
    · rw [bypassRun_of_lt _ _ h8]
      exact (bypassChunk_neverStuck (by omega)).bind fun k1 hk1 =>
        ih (by omega) (bypassChunk_bitsLeft (Nat.le_refl 8) hb hk1)
    · rw [bypassRun_of_le _ _ h8]
      exact bypassChunk_neverStuck (by omega)

/-! ### FINISH (R116, R118, R119) -/

theorem finishCarry_neverStuck {carryPos : Nat} {k : Coder} (h : 2 ^ carryPos ≤ k.low) :
    NeverStuck (finishCarry carryPos k) :=
  (emitBytes_neverStuck _ _ _).bind fun _ _ => (emitBytes_neverStuck _ _ _).bind fun _ _ =>
    (checkedSub_neverStuck h).bind fun _ _ => neverStuck_ok _

theorem finishNoCarry_neverStuck (k : Coder) : NeverStuck (finishNoCarry k) :=
  (emitBytes_neverStuck _ _ _).bind fun _ _ => emitBytes_neverStuck _ _ _

/-- With `bits_left` in 12..23 the last event's width is one of R63's 1..12. -/
theorem emitLastBits_neverStuck {bitsLeft : Nat} (hlo : 12 ≤ bitsLeft) (hhi : bitsLeft ≤ 23) (v : Nat) (k : Coder) :
    NeverStuck (checkedSub 24 bitsLeft >>= fun width => emitBits v width k) := by
  rw [checkedSub_of_le (by omega), ok_bind]
  exact emitBits_neverStuck v k (by omega)

/-- With `bits_left` in 12..23 (R51) every subtraction of the flush has a value; a carry is there to be taken off `low`. -/
theorem finishFlush_neverStuck {k : Coder} (hlo : 12 ≤ k.bitsLeft) (hhi : k.bitsLeft ≤ 23) :
    NeverStuck (finishFlush k) := by
  refine (checkedSub_neverStuck (by omega)).bind fun carryPos _ => ?_
  dsimp only
  split
  · simp
  · split
    · rename_i hcarry
      have hpos : 0 < k.low / 2 ^ carryPos := by
        rw [← Nat.shiftRight_eq_div_pow, hcarry]
        exact Nat.one_pos
      exact (finishCarry_neverStuck (Nat.div_pos_iff.mp hpos).2).bind fun _ _ => emitLastBits_neverStuck hlo hhi _ _
    · exact (finishNoCarry_neverStuck k).bind fun _ _ => emitLastBits_neverStuck hlo hhi _ _

/-! ### A command, and a step -/

/-- The registers that a command finds in OPEN are inside their bounds (R50, R51, R53). -/
theorem openRegs_bounded {s : State} {r : Regs} (hs : s.engine.Inv) (hr : s.openRegs = .ok r) : r.Bounded := by
  rw [(openRegs_ok_iff s r).mp hr] at hs
  exact hs.1

/-- Where the engine is inside its bounds, every command has a next state: its effect or fault entry (R13, R236). -/
theorem exec_next_of_engine_inv {s : State} (hs : s.engine.Inv) (i : Instr) : ∃ t, exec i s = .next t := by
  cases i with
  | start =>
    exact complete_next_of_neverStuck ((requireNotOpen_neverStuck s).bind fun _ _ => neverStuck_ok _)
  | encBin ctx v =>
    refine complete_next_of_neverStuck ((openRegs_neverStuck s).bind fun r hr => ?_)
    obtain ⟨hlo, hhi, hb, -, -⟩ := openRegs_bounded hs hr
    exact (readCtx_neverStuck s ctx).bind fun p _ =>
      (codeRegular_neverStuck hlo hhi (le_trans (by omega) hb)).bind fun k1 _ =>
        (afterShift_neverStuck _ _).bind fun _ _ => neverStuck_ok _
  | encEp v =>
    refine complete_next_of_neverStuck ((openRegs_neverStuck s).bind fun r hr => ?_)
    obtain ⟨-, -, hb, -, -⟩ := openRegs_bounded hs hr
    exact (bypassChunk_neverStuck (le_trans (by omega) hb)).bind fun _ _ => neverStuck_ok _
  | encEps bits n =>
    refine complete_next_of_neverStuck ((requireEpsFields_neverStuck bits n).bind fun _ _ =>
      (openRegs_neverStuck s).bind fun r hr => ?_)
    obtain ⟨-, -, hb, -, -⟩ := openRegs_bounded hs hr
    exact (bypassRun_neverStuck (Nat.le_refl _) hb).bind fun _ _ => neverStuck_ok _
  | encTrm v =>
    refine complete_next_of_neverStuck ((openRegs_neverStuck s).bind fun r hr => ?_)
    obtain ⟨hlo, -, hb, -, -⟩ := openRegs_bounded hs hr
    exact (codeTerminate_neverStuck (le_trans (by omega) hlo) (le_trans (by omega) hb)).bind fun k1 _ =>
      (afterShift_neverStuck _ _).bind fun _ _ => neverStuck_ok _
  | finish =>
    refine complete_next_of_neverStuck ((openRegs_neverStuck s).bind fun r hr => ?_)
    obtain ⟨-, -, hlo, hhi, -⟩ := openRegs_bounded hs hr
    exact (requireNormalMode_neverStuck s).bind fun _ _ =>
      (finishFlush_neverStuck hlo hhi).bind fun _ _ => neverStuck_ok _
  | setCnt v =>
    exact complete_next_of_neverStuck ((openRegs_neverStuck s).bind fun _ _ => neverStuck_ok _)
  | ctxWr ctx packed =>
    exact complete_next_of_neverStuck ((requireCtxInRange_neverStuck s ctx).bind fun _ _ => neverStuck_ok _)
  | ctxRd ctx =>
    exact complete_next_of_neverStuck ((readCtx_neverStuck s ctx).bind fun _ _ => neverStuck_ok _)
  | regRd sel =>
    exact complete_next_of_neverStuck ((selectReg_neverStuck s sel).bind fun _ _ => neverStuck_ok _)

/-- A block that waits for reset has a step where the host has a pulse to come (R238, R250). -/
theorem State.awaitReset_next_of_mem {s : State} (h : HostInput.reset ∈ s.upcoming) : ∃ t, s.awaitReset = .next t := by
  unfold State.awaitReset
  split
  · exact ⟨_, rfl⟩
  · rename_i hnone
    exact absurd h (afterReset_eq_none.mp hnone)

/-- A reset pulse that is presented next is among the inputs to come. -/
theorem State.reset_mem_upcoming {s : State} (h : s.nextInput = some .reset) : HostInput.reset ∈ s.upcoming := by
  obtain ⟨skipped, hs, -⟩ := afterReset_eq_some.mp (State.afterReset_upcoming h)
  simp [hs]

/-- A block that is not halted has a step whatever the host presents, where its engine is inside its bounds. -/
theorem step_next_of_not_halted {s : State} (hs : s.engine.Inv) (hh : s.halted = false) : ∃ t, step s = .next t := by
  unfold step
  rw [if_neg (by simp [hh])]
  split
  · exact ⟨s, rfl⟩
  · rename_i hreset
    exact State.awaitReset_next_of_mem (State.reset_mem_upcoming hreset)
  · split
    · exact ⟨_, rfl⟩
    · exact exec_next_of_engine_inv (by simpa using hs) _

/-- Settles O47: a block that is not halted steps because no command gets stuck inside the bounds, and a halted one because the
pulse is to come. -/
theorem stepGoesOnUnlessHalted : Obligations.StepGoesOnUnlessHalted := by
  intro s hs h
  cases hh : s.halted with
  | false => exact step_next_of_not_halted hs.engine hh
  | true =>
    rw [step_halted hh]
    exact State.awaitReset_next_of_mem (h.resolve_left (by simp [hh]))

end Sys2Proof.Machine
end

section
/-! SUPPORT. How a part of a command ends inside the bounds, said as one judgement: it answers a value with a property, or raises
a fault of a given kind, and never gets stuck. -/

namespace Sys2Proof.Machine

/-- `x` answers a value with `P` or raises a fault with `E`; it never ends in a stop of the model. -/
def Ends {α : Type} (x : Except Stop α) (P : α → Prop) (E : FaultCode → Prop) : Prop :=
  match x with
  | .ok a => P a
  | .error (.raised c) => E c
  | .error (.stuck _) => False

section

variable {α β : Type} {x : Except Stop α} {P Q : α → Prop} {E F : FaultCode → Prop}

@[simp] theorem ends_ok (a : α) : Ends (.ok a) P E ↔ P a := Iff.rfl
@[simp] theorem ends_raise (c : FaultCode) : Ends (raise c) P E ↔ E c := Iff.rfl

theorem Ends.of_eq_ok {a : α} (h : x = .ok a) (ha : P a) : Ends x P E := by
  subst h
  exact ha

theorem Ends.mono (h : Ends x Q F) (hP : ∀ a, Q a → P a) (hE : ∀ c, F c → E c) : Ends x P E := by
  rcases x with (c | f) | a
  · exact hE c h
  · exact h.elim
  · exact hP a h

/-- A sequence ends as its second part does from every value that the first part can answer. -/
theorem Ends.bind {P : β → Prop} {g : α → Except Stop β} (h : Ends x Q E) (hg : ∀ a, Q a → Ends (g a) P E) :
    Ends (x >>= g) P E := by
  rcases x with (c | f) | a
  · exact h
  · exact h.elim
  · exact hg a h

theorem Ends.of_ok {a : α} (h : Ends x P E) (ha : x = .ok a) : P a := by
  subst ha
  exact h

theorem Ends.of_raised {c : FaultCode} (h : Ends x P E) (hc : x = .error (.raised c)) : E c := by
  subst hc
  exact h

/-- Where no fault of the given kind exists, there is a value. -/
theorem Ends.exists_ok (h : Ends x P E) (hE : ∀ c, ¬ E c) : ∃ a, x = .ok a ∧ P a := by
  rcases x with (c | f) | a
  · exact absurd h (hE c)
  · exact h.elim
  · exact ⟨a, rfl, h⟩

end

end Sys2Proof.Machine
end

section
/-! SUPPORT. The bounds of R50 to R53 on the natural numbers a command works with (R13), and the coded value and width of R45 on
them. -/

namespace Sys2Proof.Machine

/-- R50, R51 and R53 with R113's sentinel, on a command's numbers. `bits_left` may go down to `minBits`: 12 at a command boundary,
less between a shift step and its emission (R140). -/
structure Coder.Within (k : Coder) (minBits : Nat) : Prop where
  rangeLow : 256 ≤ k.range
  rangeHigh : k.range ≤ 510
  bitsLow : minBits ≤ k.bitsLeft
  bitsHigh : k.bitsLeft ≤ 23
  top : k.low + k.range ≤ 2 ^ (33 - k.bitsLeft)
  sentinel : k.numBufferedBytes = 0 → k.bufferedByte = 0xFF
  byte : k.bufferedByte < 2 ^ 8
  count : k.numBufferedBytes < 2 ^ 32

/-- R52 on a command's numbers. -/
def Coder.NoCarry (k : Coder) : Prop := k.bufferedByte = 0xFF → k.low + k.range ≤ 2 ^ (32 - k.bitsLeft)

/-- The pending bytes (R185). -/
def Coder.pending (k : Coder) : List Event :=
  if k.numBufferedBytes = 0 then []
  else .byte (BitVec.ofNat 8 k.bufferedByte) :: List.replicate (k.numBufferedBytes - 1) (.byte 0xFF#8)

/-- The coded value (R45) where `out` was on the channel before the command. -/
def Coder.value (out : List Event) (k : Coder) : Nat :=
  eventsValue (out ++ k.events ++ k.pending) * 2 ^ (32 - k.bitsLeft) + k.low

/-- The coded width (R65) where `out` was on the channel before the command. -/
def Coder.width (out : List Event) (k : Coder) : Nat := eventsWidth (out ++ k.events ++ k.pending) + (24 - k.bitsLeft)

/-! ### The same on registers -/

theorem within_load_iff (r : Regs) : (Coder.load r).Within 12 ↔ r.Inv := by
  have hn : r.numBufferedBytes = 0#32 ↔ r.numBufferedBytes.toNat = 0 := BitVec.toNat_inj.symm
  have hb : r.bufferedByte = 0xFF#8 ↔ r.bufferedByte.toNat = 0xFF := BitVec.toNat_inj.symm
  constructor
  · rintro ⟨hlo, hhi, hbl, hbh, htop, hsent, -, -⟩
    exact ⟨⟨hlo, hhi, hbl, hbh, htop⟩, fun h => hb.mpr (hsent (hn.mp h))⟩
  · rintro ⟨⟨hlo, hhi, hbl, hbh, htop⟩, hsent⟩
    exact ⟨hlo, hhi, hbl, hbh, htop, fun h => hb.mp (hsent (hn.mpr h)), r.bufferedByte.isLt, r.numBufferedBytes.isLt⟩

theorem noCarry_load_iff (r : Regs) : (Coder.load r).NoCarry ↔ r.NoCarryInto0xFF := by
  have hb : r.bufferedByte = 0xFF#8 ↔ r.bufferedByte.toNat = 0xFF := BitVec.toNat_inj.symm
  exact imp_congr hb.symm Iff.rfl

theorem Coder.value_load (out : List Event) (r : Regs) : (Coder.load r).value out = codedValue out r := by
  simp [Coder.value, Coder.pending, codedValue, pendingRun, Coder.load]

theorem Coder.width_load (out : List Event) (r : Regs) : (Coder.load r).width out = codedWidth out r := by
  simp [Coder.width, Coder.pending, codedWidth, pendingRun, Coder.load]

/-- Inside the bounds every value fits its register: `low` has at most 29 bits while `bits_left` is at least 4. -/
theorem Coder.Within.fits {k : Coder} {minBits : Nat} (hk : k.Within minBits) (h4 : 4 ≤ minBits) : k.Fits := by
  obtain ⟨hlo, hhi, hbl, hbh, htop, -, hb, hn⟩ := hk
  have hpow : 2 ^ (33 - k.bitsLeft) ≤ 2 ^ 29 := Nat.pow_le_pow_right (by omega) (by omega)
  exact ⟨by omega, by omega, by omega, hb, hn⟩

section

variable {k : Coder} (hk : k.Within 12)

include hk

theorem Coder.Within.load_store : Coder.load k.store = { k with events := [] } := Coder.load_store (hk.fits (by omega))

theorem Coder.Within.store_inv : k.store.Inv := by
  rw [← within_load_iff, hk.load_store]
  exact { hk with }

theorem Coder.Within.store_noCarry (h : k.NoCarry) : k.store.NoCarryInto0xFF := by
  rw [← noCarry_load_iff, hk.load_store]
  exact h

theorem Coder.Within.range_store : k.store.range.toNat = k.range := congrArg Coder.range hk.load_store

theorem Coder.Within.codedValue_store (out : List Event) : codedValue (out ++ k.events) k.store = k.value out := by
  rw [← Coder.value_load, hk.load_store]
  simp [Coder.value, Coder.pending]

theorem Coder.Within.codedWidth_store (out : List Event) : codedWidth (out ++ k.events) k.store = k.width out := by
  rw [← Coder.width_load, hk.load_store]
  simp [Coder.width, Coder.pending]

end

/-! ### The pending run as a number -/

theorem Coder.eventsWidth_pending (k : Coder) : eventsWidth k.pending = 8 * k.numBufferedBytes := by
  unfold Coder.pending
  split_ifs with h
  · simp [h]
  · simp only [eventsWidth_cons, eventsWidth_replicate_byte, Event.width]
    omega

/-- The pending run with a carry applied: its first byte raised by the carry, the others 0xFF, or 0x00 behind a carry (R118, R184). -/
def Coder.carriedRun (carry : Nat) (k : Coder) : List Event :=
  .byte (BitVec.ofNat 8 (k.bufferedByte + carry)) ::
    List.replicate (k.numBufferedBytes - 1) (.byte (BitVec.ofNat 8 ((0xFF + carry) &&& 0xFF)))

theorem Coder.eventsWidth_carriedRun (carry : Nat) {k : Coder} (hn : 0 < k.numBufferedBytes) :
    eventsWidth (k.carriedRun carry) = 8 * k.numBufferedBytes := by
  simp only [Coder.carriedRun, eventsWidth_cons, eventsWidth_replicate_byte, Event.width]
  omega

theorem Coder.wellFormed_carriedRun (carry : Nat) (k : Coder) : ∀ e ∈ k.carriedRun carry, e.wellFormed = true := by
  refine List.forall_mem_cons.mpr ⟨rfl, fun e he => ?_⟩
  rw [List.eq_of_mem_replicate he]
  rfl

/-- Writing the run with its carry adds exactly the carry to the number it spells: a carry turns the 0xFF bytes into 0x00 bytes and
raises the byte before them (R183). -/
theorem Coder.eventsValue_carriedRun {carry : Nat} {k : Coder} (hn : 0 < k.numBufferedBytes) (hc : carry ≤ 1)
    (hb : k.bufferedByte + carry ≤ 0xFF) : eventsValue (k.carriedRun carry) = eventsValue k.pending + carry := by
  have hbyte : ∀ b ≤ 0xFF, (Event.byte (BitVec.ofNat 8 b)).value = b := fun b h => by
    simp only [Event.value, BitVec.toNat_ofNat]
    omega
  rw [Coder.pending, if_neg (by omega)]
  obtain rfl | rfl : carry = 0 ∨ carry = 1 := by omega
  · rfl
  · have hff := eventsValue_replicate_ff (k.numBufferedBytes - 1)
    simp only [Coder.carriedRun, eventsValue_cons, eventsWidth_replicate_byte, hbyte _ hb,
      hbyte k.bufferedByte (by omega), show (0xFF + 1) &&& 0xFF = 0 from rfl, eventsValue_replicate_zero, Nat.add_mul]
    omega

end Sys2Proof.Machine
end

section
/-! SUPPORT. What the coder of one bin command does, as one relation: the ideal step on the coded value, with everything the bounds
say of the emissions that go with it (R45, R52, R140, R181). -/

namespace Sys2Proof.Machine

/-! ### Ideal steps -/

/-- The step that changes nothing but leaves the width `w`. -/
def IdealStep.stay (w : Nat) : IdealStep := ⟨0, 0, w⟩

/-- One ideal step after another. -/
def IdealStep.followedBy (d e : IdealStep) : IdealStep :=
  ⟨d.shift + e.shift, d.addend * 2 ^ e.shift + e.addend, e.range⟩

@[simp] theorem IdealStep.stay_shift (w : Nat) : (IdealStep.stay w).shift = 0 := rfl
@[simp] theorem IdealStep.stay_addend (w : Nat) : (IdealStep.stay w).addend = 0 := rfl
@[simp] theorem IdealStep.stay_range (w : Nat) : (IdealStep.stay w).range = w := rfl

theorem IdealStep.followedBy_stay (d : IdealStep) : d.followedBy (.stay d.range) = d := by
  simp [IdealStep.followedBy]

/-- A step into a subinterval of the interval of width `w`, by at most 8 bit positions, with a width inside R50. -/
structure IdealStep.Inside (d : IdealStep) (w : Nat) : Prop where
  shift : d.shift ≤ 8
  rangeLow : 256 ≤ d.range
  rangeHigh : d.range ≤ 510
  sub : d.addend + d.range ≤ w * 2 ^ d.shift

/-- A shift step of the coder (R140): the ideal step on `low`, `range` and `bits_left`. -/
def Coder.move (k : Coder) (d : IdealStep) : Coder :=
  { k with low := k.low * 2 ^ d.shift + d.addend, range := d.range, bitsLeft := k.bitsLeft - d.shift }

@[simp] theorem Coder.move_pending (k : Coder) (d : IdealStep) : (k.move d).pending = k.pending := rfl

/-- An interval below `2^n` is, after a step into a subinterval, below `2^n` shifted. -/
theorem IdealStep.Inside.top_le {d : IdealStep} {w low n : Nat} (hd : d.Inside w) (h : low + w ≤ 2 ^ n) :
    low * 2 ^ d.shift + d.addend + d.range ≤ 2 ^ (n + d.shift) :=
  calc low * 2 ^ d.shift + d.addend + d.range
    _ ≤ low * 2 ^ d.shift + w * 2 ^ d.shift := by have := hd.sub; omega
    _ = (low + w) * 2 ^ d.shift := (Nat.add_mul ..).symm
    _ ≤ 2 ^ n * 2 ^ d.shift := Nat.mul_le_mul_right _ h
    _ = 2 ^ (n + d.shift) := (pow_add ..).symm

section

variable {k : Coder} {d : IdealStep} (hk : k.Within 12) (hd : d.Inside k.range)

include hk hd

/-- A shift step into a subinterval keeps R50 and R53, and leaves `bits_left` at 4 or more (R140). -/
theorem Coder.Within.move : (k.move d).Within 4 := by
  obtain ⟨hlo, hhi, hbl, hbh, htop, hsent, hb, hn⟩ := hk
  have hs := hd.shift
  refine ⟨hd.rangeLow, hd.rangeHigh, ?_, ?_, ?_, hsent, hb, hn⟩
  · simp only [Coder.move]; omega
  · simp only [Coder.move]; omega
  · simpa [Coder.move, show 33 - (k.bitsLeft - d.shift) = 33 - k.bitsLeft + d.shift by omega] using hd.top_le htop

theorem Coder.NoCarry.move (h : k.NoCarry) : (k.move d).NoCarry := fun hb => by
  have hbl := hk.bitsLow
  have hbh := hk.bitsHigh
  have hs := hd.shift
  simpa [Coder.move, show 32 - (k.bitsLeft - d.shift) = 32 - k.bitsLeft + d.shift by omega] using hd.top_le (h hb)

end

/-! ### The relation -/

/-- From `k` to `k'` the coder performs the ideal step `d` with at most `n` emissions. What it says of the coded value and of R52
holds in normal mode. -/
structure Codes (onlyCount : BitVec 1) (n : Nat) (d : IdealStep) (k k' : Coder) : Prop where
  range : k'.range = d.range
  count : k'.numBufferedBytes ≤ k.numBufferedBytes + n
  events : ∃ es, k'.events = k.events ++ es ∧ ∀ e ∈ es, e.wellFormed = true
  noCarry : onlyCount ≠ 1#1 → k.NoCarry → k'.NoCarry
  value : onlyCount ≠ 1#1 → ∀ out, k'.value out = k.value out * 2 ^ d.shift + d.addend
  width : onlyCount ≠ 1#1 → ∀ out, k'.width out = k.width out + d.shift

/-- The faults that at most `n` emissions from `k` can raise inside the bounds: NBB_OVERFLOW where the counter has no room for
them (R232), and CARRY_OVERFLOW in normal mode where R52 fails (R187, R230). LOW_OVERFLOW is none of them (R235). -/
def EmitFault (onlyCount : BitVec 1) (n : Nat) (k : Coder) (c : FaultCode) : Prop :=
  (c = .nbbOverflow ∧ 2 ^ 32 ≤ k.numBufferedBytes + n) ∨ (c = .carryOverflow ∧ onlyCount ≠ 1#1 ∧ ¬ k.NoCarry)

section

variable {onlyCount : BitVec 1} {m n : Nat} {d e : IdealStep} {k k1 k2 : Coder}

theorem Codes.refl (k : Coder) : Codes onlyCount 0 (.stay k.range) k k :=
  ⟨rfl, Nat.le_refl _, ⟨[], by simp, by simp⟩, fun _ h => h, fun _ out => by simp, fun _ out => by simp⟩

theorem Codes.trans (h1 : Codes onlyCount m d k k1) (h2 : Codes onlyCount n e k1 k2) :
    Codes onlyCount (m + n) (d.followedBy e) k k2 where
  range := h2.range
  count := by have := h1.count; have := h2.count; omega
  events := by
    obtain ⟨es1, he1, hw1⟩ := h1.events
    obtain ⟨es2, he2, hw2⟩ := h2.events
    exact ⟨es1 ++ es2, by rw [he2, he1, List.append_assoc], List.forall_mem_append.mpr ⟨hw1, hw2⟩⟩
  noCarry hc h := h2.noCarry hc (h1.noCarry hc h)
  value hc out := by
    rw [h2.value hc, h1.value hc, IdealStep.followedBy, pow_add]
    ring
  width hc out := by rw [h2.width hc, h1.width hc, IdealStep.followedBy, Nat.add_assoc]

theorem Codes.mono (h : Codes onlyCount m d k k1) (hmn : m ≤ n) : Codes onlyCount n d k k1 :=
  { h with count := le_trans h.count (by omega) }

/-- A fault that emissions can raise after some coding could be foreseen before it. -/
theorem EmitFault.of_codes {c : FaultCode} (h : Codes onlyCount m d k k1) (hc : EmitFault onlyCount n k1 c) :
    EmitFault onlyCount (m + n) k c := by
  rcases hc with ⟨rfl, hroom⟩ | ⟨rfl, hmode, hcarry⟩
  · have := h.count
    exact .inl ⟨rfl, by omega⟩
  · exact .inr ⟨rfl, hmode, fun hk => hcarry (h.noCarry hmode hk)⟩

theorem EmitFault.mono {c : FaultCode} (h : EmitFault onlyCount m k c) (hmn : m ≤ n) : EmitFault onlyCount n k c :=
  h.imp_left fun ⟨hc, hroom⟩ => ⟨hc, by omega⟩

/-- A shift step without its emission multiplies the coded value as the ideal step says, since `bits_left` gives the place. -/
theorem Codes.of_move (hk : k.Within 12) (hd : d.Inside k.range) : Codes onlyCount 0 d k (k.move d) := by
  have hbl := hk.bitsLow
  have hbh := hk.bitsHigh
  have hs := hd.shift
  refine ⟨rfl, Nat.le_refl _, ⟨[], by simp [Coder.move], by simp⟩, fun _ h => h.move hk hd, fun _ out => ?_, fun _ out => ?_⟩
  · have hpos : 32 - (k.bitsLeft - d.shift) = 32 - k.bitsLeft + d.shift := by omega
    simp only [Coder.value, Coder.move_pending]
    simp only [Coder.move, hpos, pow_add]
    ring
  · simp only [Coder.width, Coder.move_pending]
    simp only [Coder.move]
    omega

end

/-! ### The emission (R181 to R187) -/

section

variable {onlyCount : BitVec 1} {k k' : Coder}

/-- The numbers on which the lead byte acts (R181, R182): the lead is off `low`, and `bits_left` has grown by 8. -/
def Coder.leadTaken (k : Coder) : Coder :=
  { k with bitsLeft := k.bitsLeft + 8, low := k.low % 2 ^ (24 - k.bitsLeft) }

/-- The lead byte of an emission (R181), with its carry in bit 8. -/
def Coder.lead (k : Coder) : Nat := k.low / 2 ^ (24 - k.bitsLeft)

theorem Coder.low_eq (k : Coder) : k.low = k.lead * 2 ^ (24 - k.bitsLeft) + k.leadTaken.low :=
  (Nat.div_add_mod' ..).symm

theorem Coder.Within.lead_le {minBits : Nat} (hk : k.Within minBits) (h12 : k.bitsLeft < 12) : k.lead ≤ 0x1FF := by
  have htop := hk.top
  have hlo := hk.rangeLow
  rw [show 33 - k.bitsLeft = 9 + (24 - k.bitsLeft) by omega, pow_add] at htop
  exact Nat.le_of_lt_succ (Nat.div_lt_of_lt_mul (by omega))

/-- R52 keeps the lead's carry away from a `buffered_byte` of 0xFF. -/
theorem Coder.NoCarry.lead_le {minBits : Nat} (h : k.NoCarry) (hk : k.Within minBits) (h12 : k.bitsLeft < 12)
    (hb : k.bufferedByte = 0xFF) : k.lead ≤ 0xFF := by
  have htop := h hb
  have hlo := hk.rangeLow
  rw [show 32 - k.bitsLeft = 8 + (24 - k.bitsLeft) by omega, pow_add] at htop
  exact Nat.le_of_lt_succ (Nat.div_lt_of_lt_mul (by omega))

/-- After the lead 0xFF or 0x1FF, all ones, the interval's top is still at most the new carry position. -/
theorem Coder.leadTaken_top_le {n : Nat} (h12 : k.bitsLeft < 12) (htop : k.low + k.range ≤ 2 ^ (24 - k.bitsLeft + n))
    (hlead : k.lead + 1 = 2 ^ n) : k.leadTaken.low + k.range ≤ 2 ^ (32 - (k.bitsLeft + 8)) := by
  have hlow := k.low_eq
  rw [pow_add, Nat.mul_comm, ← hlead, Nat.add_mul] at htop
  rw [show 32 - (k.bitsLeft + 8) = 24 - k.bitsLeft by omega]
  omega

/-- Whatever becomes of the lead byte, the bounds hold again with `bits_left` at 12 or more (R51, R53). -/
theorem LeadEffect.within (hk : k.Within 4) (h12 : k.bitsLeft < 12)
    (h : LeadEffect onlyCount k.lead k.leadTaken k') (hcount : k'.numBufferedBytes < 2 ^ 32) : k'.Within 12 := by
  obtain ⟨hlo, hhi, hbl, hbh, -, hsent, hb, hn⟩ := hk
  have hand : ∀ x : Nat, x &&& 0xFF < 2 ^ 8 := fun x => Nat.lt_succ_of_le Nat.and_le_right
  have htop : k.leadTaken.low + k.range ≤ 2 ^ (33 - (k.bitsLeft + 8)) := by
    have hmod : k.leadTaken.low < 2 ^ (24 - k.bitsLeft) := Nat.mod_lt _ (by positivity)
    have hpow : 2 ^ 13 ≤ 2 ^ (24 - k.bitsLeft) := Nat.pow_le_pow_right (by omega) (by omega)
    rw [show 33 - (k.bitsLeft + 8) = 24 - k.bitsLeft + 1 by omega, pow_succ]
    omega
  have hbl' : 12 ≤ k.bitsLeft + 8 ∧ k.bitsLeft + 8 ≤ 23 := by omega
  cases h with
  | counted => exact ⟨hlo, hhi, hbl'.1, hbl'.2, htop, nofun, hb, hcount⟩
  | deferred => exact ⟨hlo, hhi, hbl'.1, hbl'.2, htop, nofun, hb, hcount⟩
  | wrote => exact ⟨hlo, hhi, hbl'.1, hbl'.2, htop, nofun, hand _, hcount⟩
  | filled => exact ⟨hlo, hhi, hbl'.1, hbl'.2, htop, nofun, hand _, hcount⟩

/-- In normal mode a new `buffered_byte` of 0xFF comes from a lead of 0x1FF, whose interval ends at the carry position; a deferred
lead of 0xFF leaves the interval at the same distance below it (R52). -/
theorem LeadEffect.noCarry (hk : k.Within 4) (h12 : k.bitsLeft < 12) (hmode : onlyCount ≠ 1#1) (hc : k.NoCarry)
    (h : LeadEffect onlyCount k.lead k.leadTaken k') : k'.NoCarry := by
  intro hb
  cases h with
  | counted h => exact absurd h hmode
  | deferred _ hl =>
    have htop := hc hb
    rw [show 32 - k.bitsLeft = 24 - k.bitsLeft + 8 by omega] at htop
    exact k.leadTaken_top_le h12 htop (by rw [hl]; rfl)
  | wrote _ hl =>
    have hle := hk.lead_le h12
    have hand : k.lead % 2 ^ 8 = 0xFF := (Nat.and_two_pow_sub_one_eq_mod k.lead 8).symm.trans hb
    have htop := hk.top
    rw [show 33 - k.bitsLeft = 24 - k.bitsLeft + 9 by omega] at htop
    exact k.leadTaken_top_le h12 htop (by omega)
  | filled _ hl hn hle =>
    have hand : k.lead % 2 ^ 8 = 0xFF := (Nat.and_two_pow_sub_one_eq_mod k.lead 8).symm.trans hb
    omega

/-- While nothing is pending, `buffered_byte` is 0xFF, so that a deferred lead lengthens the run by 0xFF also there (R113, D32). -/
theorem Coder.pending_count_succ (hsent : k.numBufferedBytes = 0 → k.bufferedByte = 0xFF) :
    Coder.pending { k with numBufferedBytes := k.numBufferedBytes + 1 } = k.pending ++ [.byte 0xFF#8] := by
  simp only [Coder.pending, Nat.add_sub_cancel, Nat.succ_ne_zero, if_false]
  split_ifs with h
  · simp [h, hsent h]
  · obtain ⟨n, hn⟩ := Nat.exists_eq_succ_of_ne_zero h
    simp [hn, List.replicate_succ']

theorem Coder.pending_count_one (h : k.numBufferedBytes = 1) : k.pending = [.byte (BitVec.ofNat 8 k.bufferedByte)] := by
  simp [Coder.pending, h]

/-- In normal mode the lead byte goes to the end of the bytes written and pending, behind the run with the lead's carry in it. -/
theorem LeadEffect.exists_run (hk : k.Within 4) (h12 : k.bitsLeft < 12) (hmode : onlyCount ≠ 1#1)
    (h : LeadEffect onlyCount k.lead k.leadTaken k') :
    ∃ run, k'.events ++ k'.pending = k.events ++ run ++ [.byte (BitVec.ofNat 8 k.lead)] ∧
      eventsWidth run = eventsWidth k.pending ∧ eventsValue run = eventsValue k.pending + k.lead / 2 ^ 8 := by
  have hlead := hk.lead_le h12
  have hlast : BitVec.ofNat 8 (k.lead &&& 0xFF) = BitVec.ofNat 8 k.lead := by
    rw [Nat.and_two_pow_sub_one_eq_mod k.lead 8]
    exact BitVec.eq_of_toNat_eq (by simp)
  rw [Coder.eventsWidth_pending]
  cases h with
  | counted h => exact absurd h hmode
  | deferred _ hl =>
    refine ⟨k.pending, ?_, k.eventsWidth_pending, by simp [hl]⟩
    rw [Coder.pending_count_succ (k := k.leadTaken) hk.sentinel, hl, List.append_assoc]
    rfl
  | wrote _ _ hn hb =>
    rw [Nat.shiftRight_eq_div_pow] at hb ⊢
    refine ⟨k.carriedRun (k.lead / 2 ^ 8), ?_, Coder.eventsWidth_carriedRun _ hn,
      Coder.eventsValue_carriedRun hn (by omega) hb⟩
    rw [Coder.pending_count_one rfl, hlast]
    rfl
  | filled _ _ hn hle =>
    have hn : k.numBufferedBytes = 0 := hn
    have hnone : k.pending = [] := if_pos hn
    refine ⟨[], ?_, by simp [hn], by simp [hnone]; omega⟩
    rw [Coder.pending_count_one rfl, hlast]
    simp [Coder.leadTaken]

/-- No lead byte touches `low`, `range` or `bits_left`. -/
theorem LeadEffect.frame {lead : Nat} (h : LeadEffect onlyCount lead k k') :
    k'.low = k.low ∧ k'.range = k.range ∧ k'.bitsLeft = k.bitsLeft := by
  cases h <;> exact ⟨rfl, rfl, rfl⟩

/-- A lead byte makes the pending run longer by at most one. -/
theorem LeadEffect.count_le {lead : Nat} (h : LeadEffect onlyCount lead k k') :
    k'.numBufferedBytes ≤ k.numBufferedBytes + 1 := by
  cases h <;> simp

/-- A lead byte appends BYTE events only. -/
theorem LeadEffect.events {lead : Nat} (h : LeadEffect onlyCount lead k k') :
    ∃ es, k'.events = k.events ++ es ∧ ∀ e ∈ es, e.wellFormed = true := by
  cases h with
  | wrote => exact ⟨_, rfl, k.wellFormed_carriedRun (lead >>> 8)⟩
  | counted => exact ⟨[], by simp, by simp⟩
  | deferred => exact ⟨[], by simp, by simp⟩
  | filled => exact ⟨[], by simp, by simp⟩

/-- In normal mode an emission keeps the coded value and width (R45): what it takes off `low` it adds to the bytes. -/
theorem LeadEffect.value_width (hk : k.Within 4) (h12 : k.bitsLeft < 12) (hmode : onlyCount ≠ 1#1)
    (h : LeadEffect onlyCount k.lead k.leadTaken k') (out : List Event) :
    k'.value out = k.value out ∧ k'.width out = k.width out := by
  obtain ⟨hlow, -, hbits⟩ := h.frame
  obtain ⟨run, hrun, hwidth, hvalue⟩ := h.exists_run hk h12 hmode
  have hlast : eventsValue [.byte (BitVec.ofNat 8 k.lead)] = k.lead % 2 ^ 8 := by simp [eventsValue, Event.value]
  have hlast' : eventsWidth [.byte (BitVec.ofNat 8 k.lead)] = 8 := rfl
  have hpos : 32 - k.bitsLeft = 8 + (24 - k.bitsLeft) := by omega
  have hpos' : 32 - k.leadTaken.bitsLeft = 24 - k.bitsLeft := by simp only [Coder.leadTaken]; omega
  constructor
  · have hbytes : eventsValue (out ++ k'.events ++ k'.pending) = eventsValue (out ++ k.events ++ k.pending) * 2 ^ 8 + k.lead := by
      rw [List.append_assoc, hrun]
      simp only [eventsValue_append, eventsWidth_append, hwidth, hvalue, hlast, hlast', pow_add]
      have := Nat.div_add_mod k.lead (2 ^ 8)
      linarith
    rw [Coder.value, Coder.value, hbytes, hlow, hbits, hpos, hpos', k.low_eq, pow_add]
    ring
  · rw [Coder.width, Coder.width, List.append_assoc, List.append_assoc, hrun, hbits]
    simp only [eventsWidth_append, hwidth, hlast', Coder.leadTaken]
    omega

/-- Everything an emission does to the coder, which codes nothing. -/
theorem LeadEffect.codes (hk : k.Within 4) (h12 : k.bitsLeft < 12) (h : LeadEffect onlyCount k.lead k.leadTaken k') :
    Codes onlyCount 1 (.stay k.range) k k' where
  range := h.frame.2.1
  count := h.count_le
  events := h.events
  noCarry hmode hc := h.noCarry hk h12 hmode hc
  value hmode out := by simpa using (h.value_width hk h12 hmode out).1
  width hmode out := by simpa using (h.value_width hk h12 hmode out).2

/-! ### The shared steps (R140) -/

theorem emitBytes_of_gt {count b : Nat} (hcount : count ≠ 0) (hb : 0xFF < b) : emitBytes count b k = raise .carryOverflow := by
  rw [emitBytes, if_neg hcount, if_pos hb]

/-- A lead byte has one of its effects, or its carry cannot be written: into a 0xFF byte or into nothing, in normal mode (R187). -/
theorem emitLead_ends (onlyCount : BitVec 1) (lead : Nat) (k : Coder) :
    Ends (emitLead onlyCount lead k) (LeadEffect onlyCount lead k)
      (fun c => c = .carryOverflow ∧ onlyCount ≠ 1#1 ∧
        ((0 < k.numBufferedBytes ∧ 0xFF < k.bufferedByte + lead / 2 ^ 8) ∨ (k.numBufferedBytes = 0 ∧ 0xFF < lead))) := by
  by_cases hmode : onlyCount = 1#1
  · exact .of_eq_ok (emitLead_of_effect (.counted hmode)) (.counted hmode)
  by_cases hff : lead = 0xFF
  · exact .of_eq_ok (emitLead_of_effect (.deferred hmode hff)) (.deferred hmode hff)
  rcases Nat.eq_zero_or_pos k.numBufferedBytes with hn | hn
  · by_cases hle : lead ≤ 0xFF
    · exact .of_eq_ok (emitLead_of_effect (.filled hmode hff hn hle)) (.filled hmode hff hn hle)
    · rw [emitLead, if_neg hmode, if_neg hff, if_neg (by omega), if_pos (by omega)]
      exact ⟨rfl, hmode, .inr ⟨hn, by omega⟩⟩
  · by_cases hb : k.bufferedByte + lead >>> 8 ≤ 0xFF
    · exact .of_eq_ok (emitLead_of_effect (.wrote hmode hff hn hb)) (.wrote hmode hff hn hb)
    · rw [emitLead, if_neg hmode, if_neg hff, if_pos hn]
      dsimp only
      rw [emitBytes_of_gt Nat.one_ne_zero (by omega), raise_bind]
      exact ⟨rfl, hmode, .inl ⟨hn, by rw [← Nat.shiftRight_eq_div_pow]; omega⟩⟩

theorem checkCount_ends (k : Coder) :
    Ends (checkCount k) (fun k' => k' = k ∧ k.numBufferedBytes < 2 ^ 32)
      (fun c => c = .nbbOverflow ∧ 2 ^ 32 ≤ k.numBufferedBytes) := by
  unfold checkCount
  split_ifs with h
  · exact ⟨rfl, by omega⟩
  · exact ⟨rfl, by omega⟩

/-- A carry that cannot be written means that R52 failed before it. -/
theorem not_noCarry_of_lead (hk : k.Within 4) (h12 : k.bitsLeft < 12)
    (h : (0 < k.numBufferedBytes ∧ 0xFF < k.bufferedByte + k.lead / 2 ^ 8) ∨ (k.numBufferedBytes = 0 ∧ 0xFF < k.lead)) :
    ¬ k.NoCarry := by
  intro hc
  have hlead := hk.lead_le h12
  have hbyte := hk.byte
  rcases h with ⟨-, hb⟩ | ⟨hn, hl⟩
  · have := hc.lead_le hk h12 (by omega)
    omega
  · have := hc.lead_le hk h12 (hk.sentinel hn)
    omega

/-- EMIT inside the bounds (R181): the bounds hold again with nothing coded, or one of the two faults of an emission is raised. -/
theorem emit_ends (hk : k.Within 4) (h12 : k.bitsLeft < 12) :
    Ends (emit onlyCount k) (fun k' => k'.Within 12 ∧ Codes onlyCount 1 (.stay k.range) k k') (EmitFault onlyCount 1 k) := by
  have hmask : k.low &&& (0xFFFFFFFF >>> (k.bitsLeft + 8)) = k.low % 2 ^ (24 - k.bitsLeft) := by
    rw [and_mask_eq_mod _ (by omega), show 32 - (k.bitsLeft + 8) = 24 - k.bitsLeft by omega]
  have hemit : emit onlyCount k = emitLead onlyCount k.lead k.leadTaken >>= checkCount := by
    have hle := hk.lead_le h12
    simp only [emit, hmask]
    rw [Nat.shiftRight_eq_div_pow]
    exact if_neg (Nat.not_lt.mpr hle)
  rw [hemit]
  refine Ends.bind (Q := LeadEffect onlyCount k.lead k.leadTaken) ?_ fun k1 hlead => ?_
  · refine (emitLead_ends ..).mono (fun _ h => h) fun c ⟨hc, hmode, hcarry⟩ => .inr ⟨hc, hmode, ?_⟩
    exact not_noCarry_of_lead hk h12 hcarry
  · have hcount := hlead.count_le
    refine (checkCount_ends k1).mono ?_ fun c ⟨hc, hfull⟩ => .inl ⟨hc, le_trans hfull hcount⟩
    rintro k' ⟨rfl, hroom⟩
    exact ⟨hlead.within hk h12 hroom, hlead.codes hk h12⟩

/-- The shared steps inside the bounds (R140): LOW_OVERFLOW cannot occur, and at most one emission follows. -/
theorem afterShift_ends (hk : k.Within 4) :
    Ends (afterShift onlyCount k) (fun k' => k'.Within 12 ∧ Codes onlyCount 1 (.stay k.range) k k')
      (EmitFault onlyCount 1 k) := by
  have hlow := (hk.fits (Nat.le_refl 4)).low
  rcases Nat.lt_or_ge k.bitsLeft 12 with h12 | h12
  · rw [afterShift_of_emission hlow h12]
    exact emit_ends hk h12
  · rw [afterShift_of_no_emission hlow h12]
    exact ⟨{ hk with bitsLow := h12 }, (Codes.refl k).mono (Nat.zero_le 1)⟩

/-- A shift step into a subinterval with its shared steps is the ideal step, with at most one emission. -/
theorem afterShift_move_ends {d : IdealStep} (hk : k.Within 12) (hd : d.Inside k.range) :
    Ends (afterShift onlyCount (k.move d)) (fun k' => k'.Within 12 ∧ Codes onlyCount 1 d k k') (EmitFault onlyCount 1 k) := by
  have hmove : Codes onlyCount 0 d k (k.move d) := .of_move hk hd
  refine (afterShift_ends (hk.move hd)).mono (fun k' ⟨hk', hcodes⟩ => ⟨hk', ?_⟩) fun c hc => hc.of_codes hmove
  exact d.followedBy_stay ▸ hmove.trans hcodes

end

end Sys2Proof.Machine
end

section
/-! SUPPORT. The arithmetic of each bin command is its ideal step (R142, R148, R152, R158), and so is its whole coder with the
emissions. -/

namespace Sys2Proof.Machine

/-! ### The ideal steps of the bin commands -/

/-- The ideal step of a regular bin under context `p` from width `w` (R142). -/
def idealRegular (p : Packed) (v : BitVec 1) (w : Nat) : IdealStep :=
  let lps := rangeLps (ctxStateOf p) (w / 64 % 4)
  if v = ctxMpsOf p then idealMps (w - lps)
  else ⟨renorm (lps / 8), (w - lps) * 2 ^ renorm (lps / 8), lps * 2 ^ renorm (lps / 8)⟩

/-- The ideal step of a terminate bin from width `w` (R158). -/
def idealTerminate (v : BitVec 1) (w : Nat) : IdealStep :=
  if v = 1#1 then ⟨7, (w - 2) * 2 ^ 7, 256⟩ else idealMps (w - 2)

/-- The ideal step of `m` bypass bins of value `b` from width `w` (R148, R152). -/
def idealBypass (m b w : Nat) : IdealStep := ⟨m, w * b, w⟩

theorem idealStep_encBin {s : State} {ctx : BitVec 16} {p : Packed} (hp : Memory.read s.ctx ctx.toNat = some p) (r : Regs)
    (v : BitVec 1) : idealStep s r (.encBin ctx v) = idealRegular p v r.range.toNat := by
  simp only [idealStep, hp, idealRegular]

theorem idealMps_inside {rest w : Nat} (hlo : 128 ≤ rest) (hhi : rest ≤ 510) (hw : rest ≤ w) : (idealMps rest).Inside w := by
  unfold idealMps
  split_ifs <;> constructor <;> dsimp only <;> omega

section

variable {p : Packed} {v : BitVec 1} {w : Nat} (hlo : 256 ≤ w) (hhi : w ≤ 510)

include hlo hhi

/-- A regular bin codes a subinterval: the MPS takes the lower part, the LPS the upper one (R142); state 63 has no LPS (R145). -/
theorem idealRegular_inside (hv : ctxStateOf p = 63 → v = ctxMpsOf p) : (idealRegular p v w).Inside w := by
  obtain ⟨hle, hrest, hrest'⟩ := mps_width_bounds hlo hhi (ctxStateOf_lt p)
  unfold idealRegular
  dsimp only
  split_ifs with hmps
  · exact idealMps_inside hrest (by omega) (Nat.sub_le ..)
  · have hstate : ctxStateOf p < 63 := by
      have := ctxStateOf_lt p
      have : ctxStateOf p ≠ 63 := fun h => hmps (hv h)
      omega
    obtain ⟨-, hlps, hlo', hhi'⟩ := rangeLps_bounds _ hstate (w / 64 % 4) (Nat.mod_lt _ (by omega))
    have hshift := renorm_le (rangeLps (ctxStateOf p) (w / 64 % 4) / 8) (by omega)
    refine ⟨le_trans hshift (by omega), hlo', hhi', ?_⟩
    rw [← Nat.add_mul, Nat.sub_add_cancel hle]

theorem idealTerminate_inside (v : BitVec 1) : (idealTerminate v w).Inside w := by
  unfold idealTerminate
  split_ifs
  · constructor <;> dsimp only <;> omega
  · exact idealMps_inside (by omega) (by omega) (Nat.sub_le ..)

theorem idealBypass_inside {m b : Nat} (hm : m ≤ 8) (hb : b < 2 ^ m) : (idealBypass m b w).Inside w := by
  refine ⟨hm, hlo, hhi, ?_⟩
  have : w * (b + 1) ≤ w * 2 ^ m := Nat.mul_le_mul_left w hb
  simpa [idealBypass, Nat.mul_add] using this

end

/-- The chunks of a bypass run compose to the run (R152): the top 8 bins, then the rest. -/
theorem idealBypass_followedBy {m : Nat} (hm : 8 ≤ m) (b w : Nat) :
    (idealBypass 8 (b / 2 ^ (m - 8)) w).followedBy (idealBypass (m - 8) (b % 2 ^ (m - 8)) w) = idealBypass m b w := by
  simp only [IdealStep.followedBy, idealBypass, IdealStep.mk.injEq, and_true]
  refine ⟨by omega, ?_⟩
  rw [Nat.mul_assoc, ← Nat.mul_add, Nat.div_add_mod']

/-! ### The coder of the bin commands -/

section

variable {onlyCount : BitVec 1} {k : Coder} (hk : k.Within 12)

theorem renormMps_eq_move {rest : Nat} (hbits : 1 ≤ k.bitsLeft) :
    renormMps { k with range := rest } = .ok (k.move (idealMps rest)) := by
  rw [renormMps_ok_iff]
  dsimp only [idealMps]
  split_ifs with h
  · exact .inl ⟨h, hbits, by simp [Coder.move, Nat.mul_comm]⟩
  · exact .inr ⟨by omega, by simp [Coder.move]⟩

include hk

theorem codeRegular_eq_move {p : Packed} {v : BitVec 1} (hv : ctxStateOf p = 63 → v = ctxMpsOf p) :
    codeRegular p v k = .ok (k.move (idealRegular p v k.range)) := by
  obtain ⟨hle, -, -⟩ := mps_width_bounds hk.rangeLow hk.rangeHigh (ctxStateOf_lt p)
  have hbits := hk.bitsLow
  have hshift := (idealRegular_inside hk.rangeLow hk.rangeHigh hv).shift
  by_cases hmps : v = ctxMpsOf p
  · rw [codeRegular_mps_ok_iff hmps, idealRegular, if_pos hmps]
    exact ⟨hle, renormMps_eq_move (by omega)⟩
  · rw [idealRegular, if_neg hmps] at hshift
    rw [codeRegular_lps_ok_iff hmps, idealRegular, if_neg hmps]
    refine ⟨fun h => hmps (hv h), hle, le_trans hshift (by omega), ?_⟩
    simp only [Coder.move, Nat.add_mul]

/-- ENC_BIN's coder (R142): the ideal step with at most one emission, or an LPS at state 63, or a fault of the emission. -/
theorem encBin_ends (p : Packed) (v : BitVec 1) :
    Ends (codeRegular p v k >>= afterShift onlyCount)
      (fun k' => k'.Within 12 ∧ Codes onlyCount 1 (idealRegular p v k.range) k k')
      (fun c => (c = .ctxState63Lps ∧ ctxStateOf p = 63 ∧ v ≠ ctxMpsOf p) ∨ EmitFault onlyCount 1 k c) := by
  by_cases h63 : ctxStateOf p = 63 ∧ v ≠ ctxMpsOf p
  · rw [codeRegular_state63 h63.2 h63.1, raise_bind]
    exact .inl ⟨rfl, h63⟩
  · have hv : ctxStateOf p = 63 → v = ctxMpsOf p := by simpa using h63
    rw [codeRegular_eq_move hk hv, ok_bind]
    exact (afterShift_move_ends hk (idealRegular_inside hk.rangeLow hk.rangeHigh hv)).mono (fun _ h => h) fun _ => .inr

theorem encTrm_ends (v : BitVec 1) :
    Ends (codeTerminate v k >>= afterShift onlyCount)
      (fun k' => k'.Within 12 ∧ Codes onlyCount 1 (idealTerminate v k.range) k k') (EmitFault onlyCount 1 k) := by
  have hlo := hk.rangeLow
  have hbits := hk.bitsLow
  have hmove : codeTerminate v k = .ok (k.move (idealTerminate v k.range)) := by
    rw [codeTerminate_ok_iff, idealTerminate]
    refine ⟨by omega, ?_⟩
    split_ifs with hv
    · exact ⟨by omega, by simp only [Coder.move, Nat.add_mul]⟩
    · exact renormMps_eq_move (by omega)
  rw [hmove, ok_bind]
  exact afterShift_move_ends hk (idealTerminate_inside hlo hk.rangeHigh v)

theorem bypassChunk_ends {m b : Nat} (hm : m ≤ 8) (hb : b < 2 ^ m) :
    Ends (bypassChunk onlyCount m b k) (fun k' => k'.Within 12 ∧ Codes onlyCount 1 (idealBypass m b k.range) k k')
      (EmitFault onlyCount 1 k) := by
  have hbits := hk.bitsLow
  have hmove : bypassChunk onlyCount m b k = afterShift onlyCount (k.move (idealBypass m b k.range)) := by
    rw [bypassChunk, takeBits_of_le (by dsimp only; omega), ok_bind]
    simp only [Coder.move, idealBypass, Nat.shiftLeft_eq]
  rw [hmove]
  exact afterShift_move_ends hk (idealBypass_inside hk.rangeLow hk.rangeHigh hm hb)

end

/-- The chunk loop (R152): `m` bypass bins in at most `n + 1` chunks, each with at most one emission. -/
theorem bypassRun_ends {onlyCount : BitVec 1} {n fuel m b : Nat} {k : Coder} (hk : k.Within 12) (hfuel : m ≤ fuel)
    (hm : m ≤ 8 * (n + 1)) (hb : b < 2 ^ m) :
    Ends (bypassRun onlyCount fuel m b k)
      (fun k' => k'.Within 12 ∧ Codes onlyCount (n + 1) (idealBypass m b k.range) k k')
      (EmitFault onlyCount (n + 1) k) := by
  induction fuel generalizing n m b k with
  | zero =>
    rw [bypassRun_of_le _ _ (by omega)]
    exact (bypassChunk_ends hk (by omega) hb).mono (fun _ ⟨hk', hc⟩ => ⟨hk', hc.mono (by omega)⟩)
      fun _ hc => hc.mono (by omega)
  | succ fuel ih =>
    rcases Nat.lt_or_ge 8 m with h8 | h8
    · obtain ⟨n, rfl⟩ : ∃ n', n = n' + 1 := Nat.exists_eq_add_of_lt (by omega : 0 < n) |>.imp fun _ h => by omega
      have hdiv : b / 2 ^ (m - 8) < 2 ^ 8 := by
        rw [Nat.div_lt_iff_lt_mul (by positivity), ← pow_add, Nat.add_sub_cancel' (by omega)]
        exact hb
      rw [bypassRun_of_lt _ _ h8]
      refine Ends.bind ((bypassChunk_ends hk (Nat.le_refl 8) hdiv).mono (fun _ h => h) fun c hc => hc.mono (by omega)) ?_
      rintro k1 ⟨hk1, hcodes⟩
      refine (ih (n := n) hk1 (by omega) (by omega) (Nat.mod_lt _ (by positivity))).mono ?_ fun c hc => ?_
      · rintro k' ⟨hk', hrest⟩
        have hrange : k1.range = k.range := hcodes.range
        rw [hrange] at hrest
        refine ⟨hk', ?_⟩
        rw [← idealBypass_followedBy (by omega : 8 ≤ m)]
        exact (hcodes.trans hrest).mono (by omega)
      · exact (hc.of_codes hcodes).mono (by omega)
    · rw [bypassRun_of_le _ _ h8]
      exact (bypassChunk_ends hk h8 hb).mono (fun _ ⟨hk', hc⟩ => ⟨hk', hc.mono (by omega)⟩) fun _ hc => hc.mono (by omega)

/-! ### A bin command as a whole -/

/-- The coder of a bin command with the checks of its operands, on the registers it finds in OPEN. -/
def State.binCode (s : State) (i : Instr) (k : Coder) : Except Stop Coder :=
  match i with
  | .encBin ctx v => do
    let p ← s.readCtx ctx
    codeRegular p v k >>= afterShift s.onlyCount
  | .encEp v => bypassChunk s.onlyCount 1 v.toNat k
  | .encEps bits n => do
    requireEpsFields bits n
    bypassRun s.onlyCount n.toNat n.toNat bits.toNat k
  | .encTrm v => codeTerminate v k >>= afterShift s.onlyCount
  | _ => .ok k

/-- The context table after a bin command: ENC_BIN moves its context (R31), the others leave it. -/
def State.binCtx (s : State) (i : Instr) : Memory :=
  match i with
  | .encBin ctx v =>
    (Memory.read s.ctx ctx.toNat).elim s.ctx fun p => Memory.write s.ctx ctx.toNat (nextContext p v)
  | _ => s.ctx

/-- The state after a bin command that leaves the numbers `k`. -/
def State.afterBin (s : State) (i : Instr) (k : Coder) : State := { s.commit k with ctx := s.binCtx i }

theorem State.binCtx_encBin {s : State} {ctx : BitVec 16} {p : Packed} (hp : Memory.read s.ctx ctx.toNat = some p)
    (v : BitVec 1) : s.binCtx (.encBin ctx v) = Memory.write s.ctx ctx.toNat (nextContext p v) := by
  simp [State.binCtx, hp]

theorem State.binCtx_of_ne {s : State} {i : Instr} (hi : ∀ ctx v, i ≠ .encBin ctx v) : s.binCtx i = s.ctx := by
  unfold State.binCtx
  split
  · exact absurd rfl (hi _ _)
  · rfl

/-- In OPEN a bin command is its coder, and then registers, context and events together (R16). -/
theorem exec_bin {s : State} {r : Regs} {i : Instr} (hr : s.engine = .opened r) (hi : isBin i = true) :
    exec i s = s.complete (encode i) (s.binCode i (Coder.load r) >>= fun k => .ok (s.afterBin i k)) := by
  have hopen := openRegs_of_opened hr
  cases i with
  | encBin ctx v =>
    simp only [exec, execEncBin, hopen, ok_bind, State.binCode, bind_assoc]
    cases hp : s.readCtx ctx with
    | error e => rfl
    | ok p =>
      obtain ⟨-, hread⟩ := (readCtx_ok_iff s ctx p).mp hp
      simp only [ok_bind, State.afterBin, State.binCtx_encBin hread]
      rfl
  | encEp v => simp only [exec, execEncEp, hopen, ok_bind, State.binCode]; rfl
  | encEps bits n => simp only [exec, execEncEps, hopen, ok_bind, State.binCode, bind_assoc]; rfl
  | encTrm v => simp only [exec, execEncTrm, hopen, ok_bind, State.binCode, bind_assoc]; rfl
  | _ => cases hi

theorem readCtx_ends (s : State) (ctx : BitVec 16) :
    Ends (s.readCtx ctx) (fun p => ctx.toNat < s.config.numCtx ∧ Memory.read s.ctx ctx.toNat = some p)
      (fun c => (c = .ctxRange ∧ s.config.numCtx ≤ ctx.toNat) ∨ (c = .ctxUnwritten ∧ Memory.read s.ctx ctx.toNat = none)) := by
  unfold State.readCtx
  split_ifs with h
  · split
    · exact ⟨h, ‹_›⟩
    · exact .inr ⟨rfl, ‹_›⟩
  · exact .inl ⟨rfl, by omega⟩

theorem requireEpsFields_ends (bits : BitVec 32) (n : BitVec 6) :
    Ends (requireEpsFields bits n) (fun _ => n.toNat ≤ 32 ∧ bits.toNat < 2 ^ n.toNat)
      (fun c => (c = .epsCount ∧ 32 < n.toNat) ∨ (c = .epsWide ∧ 2 ^ n.toNat ≤ bits.toNat)) := by
  unfold requireEpsFields
  split_ifs with h1 h2
  · exact .inl ⟨rfl, h1⟩
  · exact .inr ⟨rfl, h2⟩
  · exact ⟨by omega, by omega⟩

/-- The faults of a bin command's operands (R225 to R229). -/
def OperandFault (s : State) (i : Instr) (c : FaultCode) : Prop :=
  ¬ s.Admits i ∧ (c = .ctxRange ∨ c = .ctxUnwritten ∨ c = .ctxState63Lps ∨ c = .epsCount ∨ c = .epsWide)

/-- A bin command inside the bounds performs its ideal step with at most four emissions and keeps the bounds, or an operand is
refused, or an emission faults. -/
theorem binCode_ends {s : State} {r : Regs} {i : Instr} (hr : r.Inv) (hi : isBin i = true) :
    Ends (s.binCode i (Coder.load r))
      (fun k => k.Within 12 ∧ Codes s.onlyCount 4 (idealStep s r i) (Coder.load r) k)
      (fun c => OperandFault s i c ∨ EmitFault s.onlyCount 4 (Coder.load r) c) := by
  have hk := (within_load_iff r).mpr hr
  cases i with
  | encBin ctx v =>
    refine Ends.bind ((readCtx_ends s ctx).mono (fun _ h => h) ?_) ?_
    · rintro c (⟨rfl, hrange⟩ | ⟨rfl, hnone⟩)
      · exact .inl ⟨fun h => absurd h.1 (by omega), .inl rfl⟩
      · exact .inl ⟨fun ⟨_, p, hp, _⟩ => by simp [hnone] at hp, .inr (.inl rfl)⟩
    · rintro p ⟨-, hp⟩
      rw [idealStep_encBin hp]
      refine (encBin_ends hk p v).mono (fun k ⟨hk', hc⟩ => ⟨hk', hc.mono (by omega)⟩) ?_
      rintro c (⟨rfl, h63, hv⟩ | hc)
      · refine .inl ⟨fun ⟨_, q, hq, hadm⟩ => hv ?_, .inr (.inr (.inl rfl))⟩
        obtain rfl : p = q := Option.some.inj (hp.symm.trans hq)
        exact hadm h63
      · exact .inr (hc.mono (by omega))
  | encEp v =>
    exact (bypassChunk_ends hk (by omega) v.isLt).mono (fun k ⟨hk', hc⟩ => ⟨hk', hc.mono (by omega)⟩)
      fun c hc => .inr (hc.mono (by omega))
  | encEps bits n =>
    refine Ends.bind ((requireEpsFields_ends bits n).mono (fun _ h => h) ?_) ?_
    · rintro c (⟨rfl, hn⟩ | ⟨rfl, hbits⟩)
      · exact .inl ⟨fun ⟨h, _⟩ => by omega, .inr (.inr (.inr (.inl rfl)))⟩
      · exact .inl ⟨fun ⟨_, h⟩ => by omega, .inr (.inr (.inr (.inr rfl)))⟩
    · rintro _ ⟨hn, hbits⟩
      exact (bypassRun_ends (n := 3) hk (Nat.le_refl _) (by omega) hbits).mono (fun _ h => h) fun _ => .inr
  | encTrm v =>
    exact (encTrm_ends hk v).mono (fun k ⟨hk', hc⟩ => ⟨hk', hc.mono (by omega)⟩) fun c hc => .inr (hc.mono (by omega))
  | _ => cases hi

/-- From a coding state a bin command whose operands pass its checks completes (R50 to R53, R188). -/
theorem exec_bin_of_coding {s : State} {r : Regs} {i : Instr} (hs : s.Coding r) (hi : isBin i = true) (hadm : s.Admits i) :
    ∃ k, exec i s = .next (s.afterBin i k) ∧ k.Within 12 ∧ Codes s.onlyCount 4 (idealStep s r i) (Coder.load r) k := by
  have hmode : s.onlyCount ≠ 1#1 → s.onlyCount = 0#1 := by have := s.onlyCount.isLt; bv_omega
  have hnofault : ∀ c, ¬ (OperandFault s i c ∨ EmitFault s.onlyCount 4 (Coder.load r) c) := by
    rintro c (⟨hbad, -⟩ | ⟨-, hfull⟩ | ⟨-, hnormal, hcarry⟩)
    · exact hbad hadm
    · exact absurd hs.room (Nat.not_lt.mpr hfull)
    · exact hcarry ((noCarry_load_iff r).mpr (hs.noCarry (hmode hnormal)))
  obtain ⟨k, hk, hspec⟩ := (binCode_ends hs.inv hi).exists_ok hnofault
  refine ⟨k, ?_, hspec⟩
  rw [exec_bin hs.isOpen hi, hk, ok_bind, complete_ok]

/-- Settles O35: the coder of a bin command keeps the bounds, and its frame is that of `State.afterBin`. -/
theorem binCommandsCompleteInsideTheBounds : Obligations.BinCommandsCompleteInsideTheBounds := by
  intro s r i hs hi hadm
  obtain ⟨k, hexec, hk, hcodes⟩ := exec_bin_of_coding hs hi hadm
  have hcarry : s.onlyCount = 0#1 → k.NoCarry := fun h =>
    hcodes.noCarry (by simp [h]) ((noCarry_load_iff r).mpr (hs.noCarry h))
  exact ⟨_, k.store, k.events, hexec, rfl, hk.store_inv, fun h => hk.store_noCarry (hcarry h), State.binCtx_of_ne⟩

/-- Settles O37: each command's coder is its ideal step, chunk by chunk, and an emission keeps the coded value. -/
theorem binCommandsRefineTheIdealCoder : Obligations.BinCommandsRefineTheIdealCoder := by
  intro s r i hs hi hadm
  obtain ⟨k, hexec, hk, hcodes⟩ := exec_bin_of_coding hs.toCoding hi hadm
  have hmode : s.onlyCount ≠ 1#1 := by simp [hs.normal]
  refine ⟨_, k.store, hexec, rfl, ?_, ?_, hk.range_store.trans hcodes.range⟩
  · exact (hk.codedValue_store s.output).trans (by rw [hcodes.value hmode, Coder.value_load])
  · exact (hk.codedWidth_store s.output).trans (by rw [hcodes.width hmode, Coder.width_load])

/-- Settles O36: the table after ENC_BIN is the old one with the commanded context moved. -/
theorem encBinMovesOneContext : Obligations.EncBinMovesOneContext := by
  intro s r ctx v p hs hadm hp
  obtain ⟨k, hexec, -, -⟩ := exec_bin_of_coding hs rfl hadm
  refine ⟨_, k.store, hexec, rfl, fun j => ?_⟩
  have hmps : v = ctxMpsOf p ↔ v.toNat = p.toNat % 2 := by rw [← ctxMpsOf_toNat, BitVec.toNat_inj]
  simp only [State.afterBin, State.binCtx_encBin hp, Memory.read_write, nextContext, hmps]

end Sys2Proof.Machine
end

section
/-! SUPPORT. FINISH inside the bounds: what it writes is the coded value (R45, R116, R118 to R120). -/

namespace Sys2Proof.Machine

/-- What becomes of the pending run at FINISH: events that spell the run with the carry of `low` in it stand behind those written
before, and the carry is off `low` (R118, R119). -/
inductive RunFlushed (k : Coder) : Coder → Prop where
  | wrote (run : List Event) (wellFormed : ∀ e ∈ run, e.wellFormed = true)
      (width : eventsWidth run = eventsWidth k.pending)
      (value : eventsValue run = eventsValue k.pending + k.low / 2 ^ (32 - k.bitsLeft)) :
      RunFlushed k { k with low := k.low % 2 ^ (32 - k.bitsLeft), events := k.events ++ run }

/-- What FINISH leaves (R116): the bounds, and on the channel the coded value less the last 8 bits of `low`. -/
structure Flushed (k k' : Coder) : Prop where
  within : k'.Within 12
  events : ∃ es, k'.events = k.events ++ es ∧ ∀ e ∈ es, e.wellFormed = true
  value (out : List Event) : eventsValue (out ++ k'.events) = k.value out / 256
  width (out : List Event) : eventsWidth (out ++ k'.events) = k.width out

section

variable {k : Coder} (hk : k.Within 12)

theorem emitBytes_of_le {b : Nat} (count : Nat) (k : Coder) (hb : b ≤ 0xFF) :
    emitBytes count b k = .ok { k with events := k.events ++ List.replicate count (.byte (BitVec.ofNat 8 b)) } :=
  (emitBytes_ok_iff ..).mpr ⟨.inr hb, rfl⟩

theorem Coder.wellFormed_pending (k : Coder) : ∀ e ∈ k.pending, e.wellFormed = true := by
  by_cases hn : k.numBufferedBytes = 0
  · simp [Coder.pending, hn]
  · rw [show k.pending = k.carriedRun 0 from if_neg hn]
    exact k.wellFormed_carriedRun 0

theorem Coder.carry_pow (hbh : k.bitsLeft ≤ 23) : 2 ^ (32 - k.bitsLeft) = 2 ^ 8 * 2 ^ (24 - k.bitsLeft) := by
  rw [← pow_add, show 32 - k.bitsLeft = 8 + (24 - k.bitsLeft) by omega]

/-- The coded value less its last 8 bits: the bytes with the carry of `low` added, then the bits of `low` below the carry. -/
theorem Coder.value_div_256 (hbh : k.bitsLeft ≤ 23) (out : List Event) :
    k.value out / 256 = (eventsValue (out ++ k.events ++ k.pending) + k.low / 2 ^ (32 - k.bitsLeft)) * 2 ^ (24 - k.bitsLeft) +
      k.low % 2 ^ (32 - k.bitsLeft) / 2 ^ 8 := by
  have hsplit := Nat.div_add_mod' k.low (2 ^ (32 - k.bitsLeft))
  have hall : k.value out = 2 ^ 8 * ((eventsValue (out ++ k.events ++ k.pending) + k.low / 2 ^ (32 - k.bitsLeft)) *
      2 ^ (24 - k.bitsLeft)) + k.low % 2 ^ (32 - k.bitsLeft) := by
    generalize k.low / 2 ^ (32 - k.bitsLeft) = carry, k.low % 2 ^ (32 - k.bitsLeft) = rest at hsplit ⊢
    rw [Coder.value, ← hsplit, Coder.carry_pow hbh]
    ring
  omega

include hk

/-- The carry position is at most one bit below the top of R53. -/
theorem Coder.Within.carry_le : k.low / 2 ^ (32 - k.bitsLeft) ≤ 1 := by
  have htop := hk.top
  have hlo := hk.rangeLow
  have hbh := hk.bitsHigh
  rw [show 33 - k.bitsLeft = 32 - k.bitsLeft + 1 by omega, pow_succ] at htop
  exact Nat.le_of_lt_succ (Nat.div_lt_of_lt_mul (by omega))

/-- FINISH with a carry (R118): the carry is written into the run, unless the run starts with 0xFF, where R52 fails. -/
theorem finishCarry_ends (hcarry : k.low / 2 ^ (32 - k.bitsLeft) = 1) :
    Ends (finishCarry (32 - k.bitsLeft) k) (RunFlushed k) (fun c => c = .carryOverflow ∧ ¬ k.NoCarry) := by
  have hsplit := Nat.div_add_mod k.low (2 ^ (32 - k.bitsLeft))
  rw [hcarry, Nat.mul_one] at hsplit
  by_cases hb : k.bufferedByte + 1 ≤ 0xFF
  · have hn : 0 < k.numBufferedBytes := by
      refine Nat.pos_of_ne_zero fun h => ?_
      have := hk.sentinel h
      omega
    have hsub : checkedSub k.low (2 ^ (32 - k.bitsLeft)) = .ok (k.low % 2 ^ (32 - k.bitsLeft)) :=
      (checkedSub_ok_iff ..).mpr ⟨by omega, by omega⟩
    have hok : finishCarry (32 - k.bitsLeft) k =
        .ok { k with low := k.low % 2 ^ (32 - k.bitsLeft), events := k.events ++ k.carriedRun 1 } := by
      simp only [finishCarry, emitBytes_of_le _ _ hb, emitBytes_of_le _ _ (Nat.zero_le 0xFF), hsub, ok_bind,
        List.append_assoc]
      rfl
    refine .of_eq_ok hok (.wrote _ (k.wellFormed_carriedRun 1) ?_ ?_)
    · rw [k.eventsWidth_carriedRun 1 hn, k.eventsWidth_pending]
    · rw [k.eventsValue_carriedRun hn (Nat.le_refl 1) hb, hcarry]
  · rw [finishCarry, emitBytes_of_gt Nat.one_ne_zero (by omega), raise_bind]
    have hbyte := hk.byte
    refine ⟨rfl, fun hc => ?_⟩
    have htop := hc (by omega)
    have hlo := hk.rangeLow
    omega

/-- FINISH without a carry (R119) writes the pending run as it is. -/
theorem finishNoCarry_ends (hcarry : k.low / 2 ^ (32 - k.bitsLeft) = 0) {E : FaultCode → Prop} :
    Ends (finishNoCarry k) (RunFlushed k) E := by
  have hbyte := hk.byte
  have hlow : k.low % 2 ^ (32 - k.bitsLeft) = k.low := Nat.mod_eq_of_lt (Nat.lt_of_div_eq_zero (by positivity) hcarry)
  have hok : finishNoCarry k = .ok { k with low := k.low % 2 ^ (32 - k.bitsLeft), events := k.events ++ k.pending } := by
    simp only [finishNoCarry, emitBytes_of_le _ _ (by omega : k.bufferedByte ≤ 0xFF), emitBytes_of_le _ _ (Nat.le_refl 0xFF),
      ok_bind, List.append_assoc, hlow]
    by_cases hn : k.numBufferedBytes = 0
    · simp [Coder.pending, hn]
    · simp [Coder.pending, hn, Nat.pos_of_ne_zero hn]
  exact .of_eq_ok hok (.wrote _ k.wellFormed_pending rfl (by rw [hcarry, Nat.add_zero]))

/-- The last event (R120) behind the flushed run: the bits of `low` below the carry position, but for the last 8. -/
theorem finishLast_ends {k1 : Coder} (h : RunFlushed k k1) {E : FaultCode → Prop} :
    Ends (checkedSub 24 k.bitsLeft >>= fun width => emitBits (k1.low >>> 8) width
      { k1 with numBufferedBytes := if k.numBufferedBytes > 1 then 1 else k.numBufferedBytes }) (Flushed k) E := by
  obtain ⟨hlo, hhi, hbl, hbh, htop, hsent, hbyte, hcount⟩ := hk
  rw [checkedSub_of_le (by omega), ok_bind, emitBits, if_pos (by omega), ends_ok]
  obtain ⟨run, hwf, hwidth, hvalue⟩ := h
  have hmod : k.low % 2 ^ (32 - k.bitsLeft) < 2 ^ 8 * 2 ^ (24 - k.bitsLeft) :=
    Coder.carry_pow hbh ▸ Nat.mod_lt _ (by positivity)
  rw [Nat.shiftRight_eq_div_pow]
  refine ⟨⟨hlo, hhi, hbl, hbh, ?_, ?_, hbyte, ?_⟩, ?_, fun out => ?_, fun out => ?_⟩
  · exact le_trans (Nat.add_le_add_right (Nat.mod_le _ _) _) htop
  · intro h
    dsimp only at h
    exact hsent (by split_ifs at h; exact h)
  · dsimp only
    split_ifs <;> omega
  · refine ⟨run ++ [.bits _ _], List.append_assoc .., List.forall_mem_append.mpr ⟨hwf, ?_⟩⟩
    simp only [List.mem_singleton, forall_eq, Event.wellFormed, Bool.and_eq_true, decide_eq_true_eq]
    exact ⟨by omega, Nat.div_lt_of_lt_mul hmod⟩
  · have hlast (v n : Nat) : eventsValue [.bits v n] = v ∧ eventsWidth [.bits v n] = n := by
      simp [eventsValue, eventsWidth, Event.value, Event.width]
    dsimp only
    rw [← List.append_assoc, eventsValue_append, (hlast ..).1, (hlast ..).2, ← List.append_assoc, eventsValue_append, hwidth,
      hvalue, ← Nat.add_assoc, ← eventsValue_append]
    exact (k.value_div_256 hbh out).symm
  · dsimp only
    simp only [Coder.width, eventsWidth_append, hwidth]
    simp [Event.width, Nat.add_assoc]

/-- FINISH inside the bounds (R116): it flushes the coded value, unless a carry is due into a 0xFF byte. -/
theorem finishFlush_ends : Ends (finishFlush k) (Flushed k) (fun c => c = .carryOverflow ∧ ¬ k.NoCarry) := by
  have hbh := hk.bitsHigh
  have hcarry := hk.carry_le
  rw [finishFlush, checkedSub_of_le (by omega), ok_bind]
  dsimp only
  rw [Nat.shiftRight_eq_div_pow, if_neg (by omega)]
  by_cases h1 : k.low / 2 ^ (32 - k.bitsLeft) = 1
  · rw [if_pos h1]
    exact (finishCarry_ends hk h1).bind fun k1 h => finishLast_ends hk h
  · rw [if_neg h1]
    exact (finishNoCarry_ends hk (Nat.lt_one_iff.mp (lt_of_le_of_ne hcarry h1))).bind fun k1 h => finishLast_ends hk h

end

/-- FINISH in OPEN and in normal mode is its flush, and then the lifecycle, the registers and the events together (R16). -/
theorem exec_finish {s : State} {r : Regs} (hr : s.engine = .opened r) (hmode : s.onlyCount ≠ 1#1) :
    exec .finish s = s.complete (encode .finish)
      (finishFlush (Coder.load r) >>= fun k => .ok ((s.setEngine (.finished k.store)).appendOutput k.events)) := by
  simp only [exec, execFinish, openRegs_of_opened hr, State.requireNormalMode, if_neg hmode, ok_bind]

/-- Settles O26: the flush cannot fail where R52 holds, and what it writes is the coded value. -/
theorem finishFlushesTheCodedValue : Obligations.FinishFlushesTheCodedValue := by
  intro s r hs
  have hmode : s.onlyCount ≠ 1#1 := by simp [hs.normal]
  have hcarry := (noCarry_load_iff r).mpr (hs.noCarry hs.normal)
  obtain ⟨k, hk, hflush⟩ := (finishFlush_ends ((within_load_iff r).mpr hs.inv)).exists_ok fun _ h => h.2 hcarry
  refine ⟨(s.setEngine (.finished k.store)).appendOutput k.events, k.store, ?_, rfl, ?_, ?_⟩
  · rw [exec_finish hs.isOpen hmode, hk, ok_bind, complete_ok]
  · exact (hflush.value s.output).trans (by rw [Coder.value_load])
  · exact (hflush.width s.output).trans (Coder.width_load ..)

end Sys2Proof.Machine
end

section
/-! SUPPORT. A legal word is its command's word: each field put back in its place gives the word's bits under the field's mask, and
the masks of a format make up its used mask (R81, R83, R91). -/

namespace Sys2Proof

/-- A field of a word, put back in its place, is the word under the field's mask. -/
theorem field_in_place (w : Word) (p n : Nat) :
    (w.extractLsb' p n).setWidth 64 <<< p = w &&& ((BitVec.allOnes n).setWidth 64 <<< p) := by
  ext j hj
  simp only [BitVec.getElem_shiftLeft, BitVec.getElem_and, BitVec.getElem_setWidth, BitVec.getLsbD_extractLsb',
    BitVec.getLsbD_allOnes]
  by_cases hjp : j < p
  · simp [hjp]
  · rw [Nat.add_sub_cancel' (by omega), BitVec.getLsbD_eq_getElem hj]
    simp [hjp, Bool.and_comm]

/-- The opcode map read back (R84). -/
theorem toBits_of_ofBits {o : Opcode} : ∀ {b : BitVec 4}, Opcode.ofBits b = some o → o.toBits = b := by
  cases o <;> decide

/-- A word without reserved bits is itself under its opcode's used mask (R83). -/
theorem and_usedMask_of_reservedPart {o : Opcode} {w : Word} (h : reservedPart o w = 0#64) : w &&& o.format.usedMask = w :=
  calc w &&& o.format.usedMask
    _ = w &&& o.format.usedMask ||| w &&& ~~~ o.format.usedMask := by rw [← reservedPart, h, BitVec.or_zero]
    _ = w &&& (o.format.usedMask ||| ~~~ o.format.usedMask) := BitVec.and_or_distrib_left.symm
    _ = w := by rw [BitVec.or_not_self, BitVec.and_allOnes]

/-- Two parts of a word make up the word under both masks. -/
theorem or_eq_and_or {w a b m n : Word} (ha : a = w &&& m) (hb : b = w &&& n) : a ||| b = w &&& (m ||| n) := by
  rw [ha, hb, BitVec.and_or_distrib_left]

/-- A command's fields, put back beside its opcode, make up its word (R81, R83). -/
theorem encode_instr {o : Opcode} {w : Word} (ho : Opcode.ofBits (fieldOp w) = some o) (hr : reservedPart o w = 0#64) :
    encode (o.instr w) = w := by
  have hop : (o.toBits).setWidth 64 = w &&& 0xF#64 := by
    rw [toBits_of_ofBits ho]
    exact (BitVec.shiftLeft_zero _).symm.trans (field_in_place w 0 4)
  have hv : (fieldV w).setWidth 64 <<< 4 = w &&& 0x10#64 := field_in_place w 4 1
  have hn : (fieldN w).setWidth 64 <<< 8 = w &&& 0x3F00#64 := field_in_place w 8 6
  have hsel : (fieldSel w).setWidth 64 <<< 8 = w &&& 0xF00#64 := field_in_place w 8 4
  have hctx : (fieldCtx w).setWidth 64 <<< 16 = w &&& 0xFFFF0000#64 := field_in_place w 16 16
  have hbits : (fieldBits w).setWidth 64 <<< 32 = w &&& 0xFFFFFFFF00000000#64 := field_in_place w 32 32
  have hpacked : (fieldPacked w).setWidth 64 <<< 32 = w &&& 0x7F00000000#64 := field_in_place w 32 7
  have hmask := and_usedMask_of_reservedPart hr
  cases o with
  | start => exact hop.trans hmask
  | encBin => exact (or_eq_and_or (or_eq_and_or hop hv) hctx).trans hmask
  | encEp => exact (or_eq_and_or hop hv).trans hmask
  | encEps => exact (or_eq_and_or (or_eq_and_or hop hn) hbits).trans hmask
  | encTrm => exact (or_eq_and_or hop hv).trans hmask
  | finish => exact hop.trans hmask
  | setCnt => exact (or_eq_and_or hop hv).trans hmask
  | ctxWr => exact (or_eq_and_or (or_eq_and_or hop hctx) hpacked).trans hmask
  | ctxRd => exact (or_eq_and_or hop hctx).trans hmask
  | regRd => exact (or_eq_and_or hop hsel).trans hmask

/-- Decoding loses nothing (R86, R87). -/
theorem encode_of_decode {w : Word} {i : Instr} (h : decode w = .ok i) : encode i = w := by
  unfold decode at h
  split at h
  · cases h
  · rename_i o ho
    split_ifs at h with hr
    cases h
    exact encode_instr ho hr

end Sys2Proof
end

section
/-! SUPPORT. What a command and a step can do, said once: a command completes with one of the effects below, or enters a fault on the
state before it (R16, R236). -/

namespace Sys2Proof.Machine

/-- A fault that a command raises in its checks, before any arithmetic (R237). -/
def FaultCode.OfCheck (c : FaultCode) : Prop := c ≠ .carryOverflow ∧ c ≠ .nbbOverflow ∧ c ≠ .lowOverflow

/-- The effects of the commands that complete, with the conditions under which they do. -/
inductive Completes (s : State) : Instr → State → Prop where
  | start (h : s.lifecycle ≠ .opened) : Completes s .start ((s.setEngine (.opened startRegs)).setOnlyCount 0#1)
  | bin {i : Instr} {r : Regs} {k : Coder} (hi : isBin i = true) (hr : s.engine = .opened r)
      (hk : s.binCode i (Coder.load r) = .ok k) : Completes s i (s.afterBin i k)
  | finish {r : Regs} {k : Coder} (hr : s.engine = .opened r) (hmode : s.onlyCount ≠ 1#1)
      (hk : finishFlush (Coder.load r) = .ok k) :
      Completes s .finish ((s.setEngine (.finished k.store)).appendOutput k.events)
  | setCnt {r : Regs} (v : BitVec 1) (hr : s.engine = .opened r) : Completes s (.setCnt v) (s.setOnlyCount v)
  | ctxWr {ctx : BitVec 16} (p : Packed) (h : ctx.toNat < s.config.numCtx) :
      Completes s (.ctxWr ctx p) (s.putCtx ctx.toNat p)
  | ctxRd (ctx : BitVec 16) (p : Packed) : Completes s (.ctxRd ctx) (s.respond (p.setWidth 32))
  | regRd (sel : BitVec 4) (w : Response) : Completes s (.regRd sel) (s.respond w)

/-- How a command faults: in its checks, or in the arithmetic of a bin command or of FINISH. -/
inductive Raises (s : State) : Instr → FaultCode → Prop where
  | check (i : Instr) {c : FaultCode} (h : c.OfCheck) : Raises s i c
  | bin {i : Instr} {r : Regs} {c : FaultCode} (hi : isBin i = true) (hr : s.engine = .opened r)
      (hk : s.binCode i (Coder.load r) = .error (.raised c)) : Raises s i c
  | finish {r : Regs} {c : FaultCode} (hr : s.engine = .opened r) (hmode : s.onlyCount ≠ 1#1)
      (hk : finishFlush (Coder.load r) = .error (.raised c)) : Raises s .finish c

/-- Fault entry never records the code 0. -/
theorem code_ne_zero (c : FaultCode) : c.code ≠ 0#8 := by cases c <;> decide

/-! ### The checks -/

theorem openRegs_ends (s : State) : Ends s.openRegs (fun r => s.engine = .opened r) FaultCode.OfCheck := by
  unfold State.openRegs
  split
  · assumption
  · exact ⟨nofun, nofun, nofun⟩
  · exact ⟨nofun, nofun, nofun⟩

theorem requireNotOpen_ends (s : State) : Ends s.requireNotOpen (fun _ => s.lifecycle ≠ .opened) FaultCode.OfCheck := by
  unfold State.requireNotOpen
  split
  case h_1 => exact ⟨nofun, nofun, nofun⟩
  case h_2 he => simp [State.lifecycle, he]
  case h_3 he => simp [State.lifecycle, he]

theorem requireCtxInRange_ends (s : State) (ctx : BitVec 16) :
    Ends (s.requireCtxInRange ctx) (fun _ => ctx.toNat < s.config.numCtx) FaultCode.OfCheck := by
  unfold State.requireCtxInRange
  split_ifs with h
  · exact h
  · exact ⟨nofun, nofun, nofun⟩

theorem selectReg_ends (s : State) (sel : BitVec 4) : Ends (s.selectReg sel) (fun _ => True) FaultCode.OfCheck := by
  have hheld : Ends s.heldRegs (fun _ => True) FaultCode.OfCheck := by
    unfold State.heldRegs
    split
    · trivial
    · trivial
    · exact ⟨nofun, nofun, nofun⟩
  unfold State.selectReg
  split_ifs
  · exact ⟨nofun, nofun, nofun⟩
  · trivial
  · exact hheld.bind fun r _ => by split <;> trivial

/-! ### One command -/

section

variable {s t : State} {i : Instr}

/-- A command whose steps end as `Ends` says answers a next state accordingly. -/
theorem next_of_ends {w : Word} {x : Except Stop State} {P : State → Prop} {E : FaultCode → Prop}
    (hx : Ends x P E) (h : s.complete w x = .next t) : P t ∨ ∃ c, E c ∧ t = s.enterFault c w := by
  rcases (complete_next_iff ..).mp h with h | ⟨c, hc, rfl⟩
  · exact .inl (hx.of_ok h)
  · exact .inr ⟨c, hx.of_raised hc, rfl⟩

/-- A command that is one part and its effect completes with the effect, or faults as the part does. -/
theorem next_of_effect {α : Type} {w : Word} {x : Except Stop α} {f : α → State}
    (h : s.complete w (x >>= fun a => .ok (f a)) = .next t) :
    (∃ a, x = .ok a ∧ t = f a) ∨ ∃ c, x = .error (.raised c) ∧ t = s.enterFault c w := by
  rcases (complete_next_iff ..).mp h with h | ⟨c, hc, rfl⟩
  · obtain ⟨a, ha, hf⟩ := (bind_ok_iff ..).mp h
    exact .inl ⟨a, ha, (Except.ok.inj hf).symm⟩
  · simp only [bind_error_iff, reduceCtorEq, and_false, exists_false, or_false] at hc
    exact .inr ⟨c, hc, rfl⟩

/-- A command made of checks and an effect. -/
theorem cases_of_checks {x : Except Stop State} (hx : Ends x (Completes s i) FaultCode.OfCheck)
    (h : s.complete (encode i) x = .next t) : Completes s i t ∨ ∃ c, Raises s i c ∧ t = s.enterFault c (encode i) :=
  (next_of_ends hx h).imp_right fun ⟨c, hc, ht⟩ => ⟨c, .check i hc, ht⟩

/-- Outside OPEN a bin command faults in its checks (R223, R228, R229). -/
theorem exec_bin_cases_of_not_opened (hs : s.lifecycle ≠ .opened) (hi : isBin i = true) (h : exec i s = .next t) :
    Completes s i t ∨ ∃ c, Raises s i c ∧ t = s.enterFault c (encode i) := by
  have hopen : Ends s.openRegs (fun _ => False) FaultCode.OfCheck :=
    (openRegs_ends s).mono (fun r hr => hs ((lifecycle_opened_iff s).mpr ⟨r, hr⟩)) fun _ h => h
  cases i with
  | encBin => exact cases_of_checks (hopen.bind fun _ => False.elim) h
  | encEp => exact cases_of_checks (hopen.bind fun _ => False.elim) h
  | encEps bits n =>
    have hfields : Ends (requireEpsFields bits n) (fun _ => True) FaultCode.OfCheck := by
      refine (requireEpsFields_ends bits n).mono (fun _ _ => trivial) ?_
      rintro c (⟨rfl, -⟩ | ⟨rfl, -⟩) <;> exact ⟨nofun, nofun, nofun⟩
    exact cases_of_checks (hfields.bind fun _ _ => hopen.bind fun _ => False.elim) h
  | encTrm => exact cases_of_checks (hopen.bind fun _ => False.elim) h
  | _ => cases hi

theorem exec_bin_cases (hi : isBin i = true) (h : exec i s = .next t) :
    Completes s i t ∨ ∃ c, Raises s i c ∧ t = s.enterFault c (encode i) := by
  by_cases hs : s.lifecycle = .opened
  · obtain ⟨r, hr⟩ := (lifecycle_opened_iff s).mp hs
    rw [exec_bin hr hi] at h
    rcases next_of_effect h with ⟨k, hk, rfl⟩ | ⟨c, hc, rfl⟩
    · exact .inl (.bin hi hr hk)
    · exact .inr ⟨c, .bin hi hr hc, rfl⟩
  · exact exec_bin_cases_of_not_opened hs hi h

theorem exec_finish_cases (h : exec .finish s = .next t) :
    Completes s .finish t ∨ ∃ c, Raises s .finish c ∧ t = s.enterFault c (encode .finish) := by
  by_cases hs : s.lifecycle = .opened ∧ s.onlyCount ≠ 1#1
  · obtain ⟨r, hr⟩ := (lifecycle_opened_iff s).mp hs.1
    rw [exec_finish hr hs.2] at h
    rcases next_of_effect h with ⟨k, hk, rfl⟩ | ⟨c, hc, rfl⟩
    · exact .inl (.finish hr hs.2 hk)
    · exact .inr ⟨c, .finish hr hs.2 hc, rfl⟩
  · refine cases_of_checks ((openRegs_ends s).bind fun r hr => ?_) h
    have hmode : s.onlyCount = 1#1 := by
      by_contra hne
      exact hs ⟨(lifecycle_opened_iff s).mpr ⟨r, hr⟩, hne⟩
    rw [State.requireNormalMode, if_pos hmode, raise_bind]
    exact ⟨nofun, nofun, nofun⟩

/-- Everything a command that answers a next state can have done. -/
theorem exec_next_cases (h : exec i s = .next t) :
    Completes s i t ∨ ∃ c, Raises s i c ∧ t = s.enterFault c (encode i) := by
  cases i with
  | start => exact cases_of_checks ((requireNotOpen_ends s).bind fun _ => Completes.start) h
  | encBin ctx v => exact exec_bin_cases rfl h
  | encEp v => exact exec_bin_cases rfl h
  | encEps bits n => exact exec_bin_cases rfl h
  | encTrm v => exact exec_bin_cases rfl h
  | finish => exact exec_finish_cases h
  | setCnt v => exact cases_of_checks ((openRegs_ends s).bind fun _ => Completes.setCnt v) h
  | ctxWr ctx p => exact cases_of_checks ((requireCtxInRange_ends s ctx).bind fun _ => Completes.ctxWr p) h
  | ctxRd ctx =>
    have hread : Ends (s.readCtx ctx) (fun _ => True) FaultCode.OfCheck := by
      refine (readCtx_ends s ctx).mono (fun _ _ => trivial) ?_
      rintro c (⟨rfl, -⟩ | ⟨rfl, -⟩) <;> exact ⟨nofun, nofun, nofun⟩
    exact cases_of_checks (hread.bind fun p _ => (ends_ok _).mpr (.ctxRd ctx p)) h
  | regRd sel => exact cases_of_checks ((selectReg_ends s sel).bind fun w _ => (ends_ok _).mpr (.regRd sel w)) h

/-! ### What the effects leave unchanged -/

/-- No effect touches the configuration, the fault state or the host's list. -/
theorem Completes.frame (h : Completes s i t) :
    t.config = s.config ∧ t.fault = s.fault ∧ t.faultCmd = s.faultCmd ∧ t.halted = s.halted ∧ t.program = s.program ∧
      t.position = s.position := by
  cases h <;> exact ⟨rfl, rfl, rfl, rfl, rfl, rfl⟩

theorem eq_of_read_write_ne {m : Memory} {n j : Nat} {p : Packed} (hne : Memory.read (Memory.write m n p) j ≠ Memory.read m j) :
    n = j := by
  by_contra hj
  exact hne (by rw [Memory.read_write, if_neg (Ne.symm hj)])

theorem State.read_binCtx_ne {j : Nat} (hne : Memory.read (s.binCtx i) j ≠ Memory.read s.ctx j) :
    ∃ ctx v, i = .encBin ctx v ∧ ctx.toNat = j := by
  unfold State.binCtx at hne
  split at hne
  · rename_i ctx v
    refine ⟨ctx, v, rfl, ?_⟩
    cases hp : Memory.read s.ctx ctx.toNat with
    | none => simp [hp] at hne
    | some p => exact eq_of_read_write_ne (by simpa [hp] using hne)
  · exact absurd rfl hne

/-- Only ENC_BIN and CTX_WR change a context, and only the one they name (R31). -/
theorem Completes.read_ctx_ne {j : Nat} (h : Completes s i t) (hne : Memory.read t.ctx j ≠ Memory.read s.ctx j) :
    (∃ ctx v, i = .encBin ctx v ∧ ctx.toNat = j) ∨ (∃ ctx p, i = .ctxWr ctx p ∧ ctx.toNat = j) := by
  cases h with
  | bin => exact .inl (State.read_binCtx_ne hne)
  | @ctxWr ctx p => exact .inr ⟨ctx, p, rfl, eq_of_read_write_ne hne⟩
  | _ => exact absurd rfl hne

/-- Only START and FINISH move the lifecycle (R27). -/
theorem Completes.lifecycle_ne (h : Completes s i t) (hne : t.lifecycle ≠ s.lifecycle) :
    (i = .start ∧ s.lifecycle ≠ .opened ∧ t.lifecycle = .opened) ∨
      (i = .finish ∧ s.lifecycle = .opened ∧ t.lifecycle = .finished) := by
  have hopened {r : Regs} (hr : s.engine = .opened r) : s.lifecycle = .opened := (lifecycle_opened_iff s).mpr ⟨r, hr⟩
  cases h with
  | start h => exact .inl ⟨rfl, h, rfl⟩
  | bin _ hr => exact absurd (hopened hr).symm hne
  | finish hr => exact .inr ⟨rfl, hopened hr, rfl⟩
  | _ => exact absurd rfl hne

end

/-! ### One step -/

/-- Everything a step that answers a next state can have been, with the command's effect. -/
theorem step_effect {s t : State} (h : step s = .next t) :
    (s.TakesReset ∧ ∃ rest, t = s.takeReset rest) ∨
    (s.halted = false ∧ s.nextInput = none ∧ t = s) ∨
    (s.halted = false ∧ ∃ w, s.nextInput = some (.command w) ∧
      ((∃ c, t = s.advance.enterFault c w) ∨ (∃ i, decode w = .ok i ∧ Completes s.advance i t))) := by
  rcases step_cases h with ⟨hreset, rest, -, ht⟩ | hidle | ⟨hh, w, hw, ⟨e, -, ht⟩ | ⟨i, hi, hexec⟩⟩
  · exact .inl ⟨hreset, rest, ht⟩
  · exact .inr (.inl hidle)
  · exact .inr (.inr ⟨hh, w, hw, .inl ⟨_, ht⟩⟩)
  · refine .inr (.inr ⟨hh, w, hw, ?_⟩)
    rcases exec_next_cases hexec with hdone | ⟨c, -, ht⟩
    · exact .inr ⟨i, hi, hdone⟩
    · exact .inl ⟨c, by rw [ht, encode_of_decode hi]⟩

end Sys2Proof.Machine
end

section
/-! SUPPORT. The obligations about a step's frame: contexts, lifecycle, fault registers and the host's list. -/

namespace Sys2Proof.Machine

/-- Settles O7: decoding and moving on are what a step does before `exec`. -/
theorem stepRunsTheDecodedCommand : Obligations.StepRunsTheDecodedCommand := by
  intro s w i hh hn hd
  rw [step, if_neg (by simp [hh]), hn]
  simp only [hd]
  rfl

/-- Settles O51: among the effects only those of ENC_BIN and CTX_WR change a context. -/
theorem onlyEncBinAndCtxWrChangeAContext : Obligations.OnlyEncBinAndCtxWrChangeAContext := by
  intro s t j h hne
  rcases step_effect h with ⟨hreset, -⟩ | ⟨-, -, rfl⟩ | ⟨hh, w, hw, ⟨c, rfl⟩ | ⟨i, hi, hdone⟩⟩
  · exact .inl hreset
  · exact absurd rfl hne
  · exact absurd rfl hne
  · refine .inr ⟨w, hh, hw, ?_⟩
    rcases hdone.read_ctx_ne hne with ⟨ctx, v, rfl, hj⟩ | ⟨ctx, p, rfl, hj⟩
    · exact .inl ⟨ctx, v, hi, hj⟩
    · exact .inr ⟨ctx, p, hi, hj⟩

/-- Settles O52: among the effects only those of START and FINISH move the lifecycle. -/
theorem lifecycleMoves : Obligations.LifecycleMoves := by
  intro s t h hne
  rcases step_effect h with ⟨hreset, rest, rfl⟩ | ⟨-, -, rfl⟩ | ⟨hh, w, hw, ⟨c, rfl⟩ | ⟨i, hi, hdone⟩⟩
  · exact .inl ⟨hreset, rfl⟩
  · exact absurd rfl hne
  · exact absurd rfl hne
  · refine .inr ⟨w, hh, hw, ?_⟩
    rcases hdone.lifecycle_ne hne with ⟨rfl, hmove⟩ | ⟨rfl, hmove⟩
    · exact .inl ⟨hi, hmove⟩
    · exact .inr ⟨hi, hmove⟩

/-- Settles O53: no effect touches the fault state, and fault entry records the presented word with a code that is not 0. -/
theorem faultRegistersAreWrittenOnlyByFaultEntry : Obligations.FaultRegistersAreWrittenOnlyByFaultEntry := by
  intro s t h hne
  rcases step_effect h with ⟨hreset, rest, rfl⟩ | ⟨-, -, rfl⟩ | ⟨hh, w, hw, ⟨c, rfl⟩ | ⟨i, -, hdone⟩⟩
  · exact .inl ⟨hreset, rfl, rfl, rfl⟩
  · simp at hne
  · exact .inr ⟨hh, rfl, code_ne_zero c, hw⟩
  · obtain ⟨-, hfault, hcmd, hhalt, -⟩ := hdone.frame
    rcases hne with hne | hne | hne
    · exact absurd hfault hne
    · exact absurd hcmd hne
    · exact absurd hhalt hne

/-- A pulse still to come stands at the position or behind it. -/
theorem State.TakesReset.position_le {s : State} (h : s.TakesReset) : s.position ≤ s.program.length := by
  have hmem : HostInput.reset ∈ s.program.drop s.position := h.elim State.reset_mem_upcoming fun h => h.2
  by_contra hgt
  rw [List.drop_eq_nil_of_le (by omega)] at hmem
  exact absurd hmem List.not_mem_nil

/-- Settles O60: every word presented to a running block moves the position on, and no effect moves it again. -/
theorem positionCountsAcceptedCommands : Obligations.PositionCountsAcceptedCommands := by
  intro s t h
  rcases step_effect h with ⟨hreset, rest, rfl⟩ | hidle | ⟨hh, w, hw, ⟨c, rfl⟩ | ⟨i, -, hdone⟩⟩
  · have hle := hreset.position_le
    exact .inr (.inl ⟨hreset, rfl, by simp [hle]⟩)
  · exact .inr (.inr hidle)
  · exact .inl ⟨hh, ⟨w, hw⟩, rfl, rfl⟩
  · obtain ⟨-, -, -, -, hprogram, hposition⟩ := hdone.frame
    exact .inl ⟨hh, ⟨w, hw⟩, hposition, hprogram⟩

/-- Selectors 6..15 are refused (R234). -/
theorem selectReg_of_gt (s : State) {sel : BitVec 4} (h : 5 < sel.toNat) : s.selectReg sel = raise .badRegSelect := by
  rw [State.selectReg, if_pos h]

/-- Selectors 0..4 need registers that hold a value (R233). -/
theorem selectReg_of_uninit {s : State} {sel : BitVec 4} (hsel : sel.toNat ≤ 4) (hs : s.lifecycle = .uninit) :
    s.selectReg sel = raise .regUninit := by
  have hheld : s.heldRegs = raise .regUninit := by
    unfold State.lifecycle at hs
    unfold State.heldRegs
    split <;> simp_all
  rw [State.selectReg, if_neg (by omega), if_neg (by omega), hheld, raise_bind]

/-- The STATUS word as a number (R42). -/
theorem statusWord_eq (s : State) :
    s.statusWord = BitVec.ofNat 32 (s.onlyCount.toNat + 2 * s.lifecycle.code.toNat) := by
  have hword : ∀ (code : BitVec 2) (v : BitVec 1), 0#29 ++ code ++ v = BitVec.ofNat 32 (v.toNat + 2 * code.toNat) := by
    decide
  exact hword _ _

/-- REG_RD responds with the selected word, or faults. -/
theorem exec_regRd_of_ok {s : State} {sel : BitVec 4} {w : Response} (h : s.selectReg sel = .ok w) :
    exec (.regRd sel) s = .next (s.respond w) := by
  simp only [exec, execRegRd, h, ok_bind, complete_ok]

theorem exec_regRd_of_raise {s : State} {sel : BitVec 4} {c : FaultCode} (h : s.selectReg sel = raise c) :
    exec (.regRd sel) s = .next (s.enterFault c (encode (.regRd sel))) := by
  simp only [exec, execRegRd, h, raise_bind, complete_raise]

/-- Settles O23: each selector is one branch of the read-out. -/
theorem regRdReadOutMap : Obligations.RegRdReadOutMap := by
  intro s
  refine ⟨fun r hr => ?_, ?_, fun sel hsel => ?_, fun sel hsel hs => ?_⟩
  · have hheld : s.heldRegs = .ok r := by rcases hr with h | h <;> simp [State.heldRegs, h]
    have hsel {sel : BitVec 4} {w : Response} (h : s.selectReg sel = .ok w) := exec_regRd_of_ok h
    refine ⟨hsel ?_, hsel ?_, hsel ?_, hsel ?_, hsel ?_⟩ <;> simp [State.selectReg, hheld]
  · rw [exec_regRd_of_ok (sel := 5#4) (congrArg Except.ok (statusWord_eq s))]
    cases s.lifecycle <;> rfl
  · exact exec_regRd_of_raise (selectReg_of_gt s hsel)
  · exact exec_regRd_of_raise (selectReg_of_uninit hsel hs)

end Sys2Proof.Machine
end

section
/-! SUPPORT. The faults of a command inside the bounds: LOW_OVERFLOW is none of them, and CARRY_OVERFLOW only where R52 fails. -/

namespace Sys2Proof.Machine

theorem lowOverflow_of_code {c : FaultCode} : c.code = 15#8 → c = .lowOverflow := by cases c <;> decide

theorem carryOverflow_of_code {c : FaultCode} : c.code = 10#8 → c = .carryOverflow := by cases c <;> decide

/-- Inside the bounds no command raises LOW_OVERFLOW (R235), and one that raises CARRY_OVERFLOW found R52 broken (R187). -/
theorem Raises.inside {s : State} {r : Regs} {i : Instr} {c : FaultCode} (hr : s.engine = .opened r) (hinv : r.Inv)
    (h : Raises s i c) : c ≠ .lowOverflow ∧ (c = .carryOverflow → ¬ r.NoCarryInto0xFF) := by
  have hregs {q : Regs} (hq : s.engine = .opened q) : q = r := by simpa [hr, eq_comm] using hq
  rw [← noCarry_load_iff]
  cases h with
  | check _ h => exact ⟨h.2.2, fun hc => absurd hc h.1⟩
  | bin hi hq hk =>
    obtain rfl := hregs hq
    rcases (binCode_ends hinv hi).of_raised hk with ⟨-, hc⟩ | ⟨rfl, -⟩ | ⟨rfl, -, hcarry⟩
    · rcases hc with rfl | rfl | rfl | rfl | rfl <;> exact ⟨nofun, nofun⟩
    · exact ⟨nofun, nofun⟩
    · exact ⟨nofun, fun _ => hcarry⟩
  | finish hq _ hk =>
    obtain rfl := hregs hq
    obtain ⟨rfl, hcarry⟩ := (finishFlush_ends ((within_load_iff _).mpr hinv)).of_raised hk
    exact ⟨nofun, fun _ => hcarry⟩

/-- Settles O48: a completed command leaves FAULT 0, and the faults inside the bounds are others. -/
theorem lowAndCarryOverflowNeverInsideTheBounds : Obligations.LowAndCarryOverflowNeverInsideTheBounds := by
  intro s t r i hr hinv hfault h
  rcases exec_next_cases h with hdone | ⟨c, hc, rfl⟩
  · obtain ⟨-, hsame, -⟩ := hdone.frame
    rw [hsame, hfault]
    exact ⟨by decide, fun _ _ => by decide⟩
  · obtain ⟨hlow, hcarry⟩ := hc.inside hr hinv
    exact ⟨fun h => hlow (lowOverflow_of_code h), fun _ hno h => hcarry (carryOverflow_of_code h) hno⟩

end Sys2Proof.Machine
end

section
/-! SUPPORT. The invariant of every step (R50, R51, R53, R28, R29, R63): one rule per update of the state, one per command. -/

namespace Sys2Proof.Machine

section

variable {s : State} (hs : s.Inv)

include hs

/-! ### The updates -/

theorem State.Inv.advance : s.advance.Inv := { hs with }

theorem State.Inv.respond (w : Response) : (s.respond w).Inv := { hs with }

theorem State.Inv.takeReset (rest : List HostInput) : (s.takeReset rest).Inv where
  config := hs.config
  engine := trivial
  count := nofun
  halt := ⟨nofun, fun h => absurd rfl h⟩
  codes := Nat.zero_le 15
  clear _ := rfl
  ctxWf := List.Pairwise.nil
  ctxBound := nofun
  events := hs.events

theorem State.Inv.enterFault (c : FaultCode) (w : Word) : (s.enterFault c w).Inv :=
  { hs with
    halt := ⟨fun _ => code_ne_zero c, fun _ => rfl⟩
    codes := (code_bounds c).2
    clear := nofun }

theorem State.Inv.setEngine {e : Engine} (he : e.Inv) (hcount : s.onlyCount = 1#1 → ∃ r, e = .opened r) :
    (s.setEngine e).Inv :=
  { hs with
    engine := he
    count := fun h => (lifecycle_opened_iff _).mpr (hcount h) }

theorem State.Inv.setOnlyCount {v : BitVec 1} (h : v = 1#1 → s.lifecycle = .opened) : (s.setOnlyCount v).Inv :=
  { hs with count := h }

theorem State.Inv.appendOutput {es : List Event} (h : ∀ e ∈ es, e.wellFormed = true) : (s.appendOutput es).Inv :=
  { hs with events := List.forall_mem_append.mpr ⟨hs.events, h⟩ }

theorem State.Inv.putCtx {n : Nat} (p : Packed) (h : n < s.config.numCtx) : (s.putCtx n p).Inv :=
  { hs with
    ctxWf := Memory.wf_write n p hs.ctxWf
    ctxBound := Memory.bound_write p hs.ctxBound h }

/-- Committing registers inside their bounds and well-formed events (R16). -/
theorem State.Inv.commit {k : Coder} (hk : k.Within 12) (he : ∀ e ∈ k.events, e.wellFormed = true) : (s.commit k).Inv :=
  (hs.setEngine (e := .opened k.store) hk.store_inv fun _ => ⟨_, rfl⟩).appendOutput he

/-! ### The commands -/

/-- The registers in OPEN are inside their bounds. -/
theorem State.Inv.regs {r : Regs} (hr : s.engine = .opened r) : r.Inv := by
  have h := hs.engine
  rwa [hr] at h

theorem State.Inv.afterBin {i : Instr} {r : Regs} {k : Coder} (hi : isBin i = true) (hr : s.engine = .opened r)
    (hk : s.binCode i (Coder.load r) = .ok k) : (s.afterBin i k).Inv := by
  obtain ⟨hwithin, hcodes⟩ := (binCode_ends (hs.regs hr) hi).of_ok hk
  obtain ⟨es, hes, hwf⟩ := hcodes.events
  have hcommit : (s.commit k).Inv := hs.commit hwithin (by rw [hes]; exact hwf)
  cases i with
  | encBin ctx v =>
    obtain ⟨p, hp, -⟩ := (bind_ok_iff ..).mp hk
    obtain ⟨hrange, hread⟩ := (readCtx_ok_iff ..).mp hp
    rw [State.afterBin, State.binCtx_encBin hread]
    exact hcommit.putCtx (nextContext p v) hrange
  | _ => exact hcommit

theorem Completes.inv {i : Instr} {t : State} (h : Completes s i t) : t.Inv := by
  cases h with
  | start =>
    have hregs : startRegs.Inv := by decide
    exact (hs.setEngine (e := .opened startRegs) hregs fun _ => ⟨_, rfl⟩).setOnlyCount fun _ => rfl
  | bin hi hr hk => exact hs.afterBin hi hr hk
  | @finish r k hr hmode hk =>
    have hflush := (finishFlush_ends ((within_load_iff _).mpr (hs.regs hr))).of_ok hk
    obtain ⟨es, hes, hwf⟩ := hflush.events
    exact (hs.setEngine (e := .finished k.store) hflush.within.store_inv fun h => absurd h hmode).appendOutput (by rw [hes]; exact hwf)
  | setCnt v hr => exact hs.setOnlyCount fun _ => (lifecycle_opened_iff s).mpr ⟨_, hr⟩
  | ctxWr p h => exact hs.putCtx p h
  | ctxRd ctx p => exact hs.respond _
  | regRd sel w => exact hs.respond w

end

/-- Settles O45: reset, idling, fault entry and every command's effect keep the invariant. -/
theorem stepKeepsTheInvariant : Obligations.StepKeepsTheInvariant := by
  intro s t hs h
  rcases step_effect h with ⟨-, rest, rfl⟩ | ⟨-, -, rfl⟩ | ⟨-, w, -, ⟨c, rfl⟩ | ⟨i, -, hdone⟩⟩
  · exact hs.takeReset rest
  · exact hs
  · exact hs.advance.enterFault c w
  · exact hdone.inv hs.advance

end Sys2Proof.Machine
end

section
/-! SUPPORT. The two context ROMs in closed form, entry by entry (R32, R33, R36, R37). -/

namespace Sys2Proof.Machine

/-- Settles O43, on the 128 entries of the table. -/
theorem nextMpsClosedForm : Obligations.NextMpsClosedForm := by
  unfold Obligations.NextMpsClosedForm
  decide +kernel

/-- Settles O44, on the 128 entries of the table. -/
theorem nextLpsClosedForm : Obligations.NextLpsClosedForm := by
  unfold Obligations.NextLpsClosedForm
  decide +kernel

end Sys2Proof.Machine
end

section
/-! SUPPORT. The obligations about the two channels: no effect takes back an event or a response, and only the read commands
respond (R66, R67, R76). -/

namespace Sys2Proof.Machine

/-- An effect adds events behind those already on the output channel (R66). -/
theorem Completes.output {s t : State} {i : Instr} (h : Completes s i t) : ∃ es, t.output = s.output ++ es := by
  cases h with
  | @bin i r k => exact ⟨k.events, rfl⟩
  | @finish r k => exact ⟨k.events, rfl⟩
  | _ => exact ⟨[], (List.append_nil _).symm⟩

/-- CTX_RD and REG_RD respond with one word, and no other effect touches the response channel (R67). -/
theorem Completes.response {s t : State} {i : Instr} (h : Completes s i t) :
    t.response = s.response ∨
      (∃ x, t.response = s.response ++ [x]) ∧ ((∃ ctx, i = .ctxRd ctx) ∨ (∃ sel, i = .regRd sel)) := by
  cases h with
  | ctxRd ctx p => exact .inr ⟨⟨p.setWidth 32, rfl⟩, .inl ⟨ctx, rfl⟩⟩
  | regRd sel w => exact .inr ⟨⟨w, rfl⟩, .inr ⟨sel, rfl⟩⟩
  | _ => exact .inl rfl

/-- Settles O50: reset, idling and fault entry leave the response channel, and among the effects only those of CTX_RD and REG_RD
append to it. -/
theorem onlyReadCommandsRespond : Obligations.OnlyReadCommandsRespond := by
  intro s t h hne
  rcases step_effect h with ⟨-, rest, rfl⟩ | ⟨-, -, rfl⟩ | ⟨hh, w, hw, ⟨c, rfl⟩ | ⟨i, hi, hdone⟩⟩
  · exact absurd rfl hne
  · exact absurd rfl hne
  · exact absurd rfl hne
  · rcases hdone.response with heq | ⟨⟨x, hx⟩, hread⟩
    · exact absurd heq hne
    · refine ⟨w, x, hh, hw, hx, ?_⟩
      rcases hread with ⟨ctx, rfl⟩ | ⟨sel, rfl⟩
      · exact .inl ⟨ctx, hi⟩
      · exact .inr ⟨sel, hi⟩

/-- A step that answers a next state appends to the output channel and does nothing else to it, hardware reset included
(R66, R250). -/
theorem step_output {s t : State} (h : step s = .next t) : ∃ es, t.output = s.output ++ es := by
  rcases step_effect h with ⟨-, rest, rfl⟩ | ⟨-, -, rfl⟩ | ⟨-, w, -, ⟨c, rfl⟩ | ⟨i, -, hdone⟩⟩
  · exact ⟨[], by simp⟩
  · exact ⟨[], by simp⟩
  · exact ⟨[], by simp⟩
  · exact hdone.output

/-- Settles O49: every step's effect appends events, and a response channel that changes has gained one word. -/
theorem channelsOnlyGrow : Obligations.ChannelsOnlyGrow := by
  intro s t h
  refine ⟨step_output h, ?_⟩
  by_cases hsame : t.response = s.response
  · exact ⟨[], by simp [hsame]⟩
  · obtain ⟨-, x, -, -, hx, -⟩ := onlyReadCommandsRespond s t h hsame
    exact ⟨[x], hx⟩

end Sys2Proof.Machine
end

section
/-! SUPPORT. A command's word decodes to the command: the word keeps each field in its place, apart from the other fields and from
the opcode (R81, R83, R91). -/

namespace Sys2Proof

/-- A field put in its place in a word is read back from there. -/
theorem extract_placed {n p : Nat} (x : BitVec n) (h : p + n ≤ 64) : (x.setWidth 64 <<< p).extractLsb' p n = x := by
  ext j hj
  have hin : p + j < 64 := by omega
  simp [hin, BitVec.getLsbD_eq_getElem hj]

/-- A field put in its place leaves the other places of the word 0. -/
theorem extract_placed_disjoint {n p q m : Nat} (x : BitVec n) (h : q + m ≤ p ∨ p + n ≤ q) :
    (x.setWidth 64 <<< p).extractLsb' q m = 0#m := by
  ext j hj
  have hout : q + j < p ∨ n ≤ q + j - p := by omega
  rcases hout with hbelow | habove
  · simp [hbelow]
  · simp [BitVec.getLsbD_of_ge x _ habove]

/-- The fields of a command's word are the command's operands (R81, R91). -/
theorem instr_encode (i : Instr) : i.opcode.instr (encode i) = i := by
  cases i with
  | start => rfl
  | finish => rfl
  | _ =>
    simp [Instr.opcode, Opcode.instr, encode, fieldV, fieldN, fieldSel, fieldCtx, fieldBits, fieldPacked,
      BitVec.extractLsb'_or, extract_placed, extract_placed_disjoint]

/-- Every command's word carries its opcode and no reserved bit (R83, R84). -/
theorem encodeFits (i : Instr) : Laws.EncodeFits.Statement i := by
  cases i with
  | start => exact Laws.EncodeFits.start
  | encBin ctx v => exact Laws.EncodeFits.encBin ctx v
  | encEp v => exact Laws.EncodeFits.encEp v
  | encEps bits n => exact Laws.EncodeFits.encEps bits n
  | encTrm v => exact Laws.EncodeFits.encTrm v
  | finish => exact Laws.EncodeFits.finish
  | setCnt v => exact Laws.EncodeFits.setCnt v
  | ctxWr ctx packed => exact Laws.EncodeFits.ctxWr ctx packed
  | ctxRd ctx => exact Laws.EncodeFits.ctxRd ctx
  | regRd sel => exact Laws.EncodeFits.regRd sel

/-- The opcode map in both directions (R84). -/
theorem ofBits_eq_some_iff {b : BitVec 4} {o : Opcode} : Opcode.ofBits b = some o ↔ b = o.toBits :=
  ⟨fun h => (toBits_of_ofBits h).symm, fun h => by rw [h]; cases o <;> rfl⟩

/-- What `decode` accepts: an opcode of the map with no reserved bit set (R86, R87). -/
theorem decode_eq_ok_iff {w : Word} {i : Instr} :
    decode w = .ok i ↔ ∃ o : Opcode, fieldOp w = o.toBits ∧ reservedPart o w = 0#64 ∧ i = o.instr w := by
  simp only [← ofBits_eq_some_iff]
  unfold decode
  cases Opcode.ofBits (fieldOp w) with
  | none => simp
  | some o => by_cases hreserved : reservedPart o w = 0#64 <;> simp [hreserved, eq_comm (a := i)]

/-- Settles O1: the word has the command's opcode, no reserved bit, and the operands in its fields. -/
theorem decodeOfEncodeIsTheCommand : Obligations.DecodeOfEncodeIsTheCommand := by
  intro i
  obtain ⟨hop, hreserved⟩ := encodeFits i
  exact decode_eq_ok_iff.mpr ⟨i.opcode, hop, hreserved, (instr_encode i).symm⟩

/-- Settles O2, by the fields of a legal word put back in their places. -/
theorem encodeOfDecodeIsTheWord : Obligations.EncodeOfDecodeIsTheWord :=
  fun _ _ h => encode_of_decode h

/-- Settles O6: each of the words is `encode` of its command, so it decodes to it. -/
theorem sampleWordsDecode : Obligations.SampleWordsDecode := by
  have hword := decodeOfEncodeIsTheCommand
  exact ⟨hword .start, hword (.encBin 2#16 1#1), hword (.encEp 1#1), hword (.encEps 0xABCD#32 16#6), hword (.encTrm 1#1),
    hword (.setCnt 1#1), hword (.ctxWr 2#16 0x3C#7), hword (.regRd 5#4)⟩

end Sys2Proof
end

section
/-! SUPPORT. The rows of the opcode table: `mask` and `match` test the opcode and the reserved bits at once (R87). -/

namespace Sys2Proof

/-- The opcodes in the order of the table's rows (R84). -/
def Opcode.all : List Opcode :=
  [.start, .encBin, .encEp, .encEps, .encTrm, .finish, .setCnt, .ctxWr, .ctxRd, .regRd]

theorem Opcode.mem_all (o : Opcode) : o ∈ Opcode.all := by cases o <;> decide

/-- The rows of opcode_table.json, each as its `match` and `mask` (R87). -/
def Opcode.tableRows : List (Word × Word) := Opcode.all.map fun o => (o.tableMatch, o.tableMask)

/-- A word has an opcode exactly when its low four bits, as a word, are the opcode's `match`. -/
theorem fieldOp_eq_toBits_iff {w : Word} {o : Opcode} : fieldOp w = o.toBits ↔ w &&& 0xF#64 = o.tableMatch := by
  have hlow : w &&& 0xF#64 = (fieldOp w).setWidth 64 :=
    ((BitVec.shiftLeft_zero _).symm.trans (field_in_place w 0 4)).symm
  rw [hlow, Opcode.tableMatch]
  exact ⟨congrArg _, fun h => by simpa using congrArg (BitVec.setWidth 4) h⟩

/-- A word matches an opcode's row exactly when it has the opcode and no reserved bit (R87). -/
theorem and_tableMask_eq_tableMatch_iff {w : Word} {o : Opcode} :
    w &&& o.tableMask = o.tableMatch ↔ fieldOp w = o.toBits ∧ reservedPart o w = 0#64 := by
  rw [fieldOp_eq_toBits_iff]
  constructor
  · intro hrow
    obtain ⟨hmask, hmatch⟩ : o.tableMask &&& 0xF#64 = 0xF#64 ∧ o.tableMatch &&& 0xF#64 = o.tableMatch := by cases o <;> decide
    obtain ⟨hmask', hmatch'⟩ : o.tableMask &&& ~~~ o.format.usedMask = ~~~ o.format.usedMask ∧
        o.tableMatch &&& ~~~ o.format.usedMask = 0#64 := by cases o <;> decide
    constructor
    · rw [← hmask, ← BitVec.and_assoc, hrow, hmatch]
    · rw [reservedPart, ← hmask', ← BitVec.and_assoc, hrow, hmatch']
  · rintro ⟨hop, hreserved⟩
    rw [reservedPart] at hreserved
    rw [Opcode.tableMask, BitVec.and_or_distrib_left, hop, hreserved, BitVec.or_zero]

/-- A word is legal exactly when it matches some row. -/
theorem exists_decode_eq_ok_iff_tableRows {w : Word} :
    (∃ i, decode w = .ok i) ↔ ∃ row ∈ Opcode.tableRows, w &&& row.2 = row.1 := by
  simp only [decode_eq_ok_iff, ← and_assoc, ← and_tableMask_eq_tableMatch_iff]
  constructor
  · rintro ⟨-, o, hrow, -⟩
    exact ⟨_, List.mem_map_of_mem o.mem_all, hrow⟩
  · rintro ⟨_, hmem, hrow⟩
    obtain ⟨o, -, rfl⟩ := List.mem_map.mp hmem
    exact ⟨o.instr w, o, hrow, rfl⟩

/-- Settles O5: the ten printed rows are those of the ten opcodes. -/
theorem legalWordsAreTheTableRows : Obligations.LegalWordsAreTheTableRows :=
  fun _ => exists_decode_eq_ok_iff_tableRows

end Sys2Proof
end

section
/-! SUPPORT. Words that are no command (R85, R86, R221). -/

namespace Sys2Proof

/-- The numbers outside the opcode map (R85). -/
theorem ofBits_eq_none_iff : ∀ {b : BitVec 4}, Opcode.ofBits b = none ↔ b.toNat = 0 ∨ 11 ≤ b.toNat := by decide

/-- `decode` refuses a word for its opcode exactly when the opcode is 0x0 or 0xB..0xF (R85, R87). -/
theorem decode_eq_illegalOpcode_iff {w : Word} :
    decode w = .error .illegalOpcode ↔ w.toNat % 16 = 0 ∨ 11 ≤ w.toNat % 16 := by
  have hop : (fieldOp w).toNat = w.toNat % 16 := by simp [fieldOp]
  rw [← hop, ← ofBits_eq_none_iff]
  unfold decode
  cases Opcode.ofBits (fieldOp w) with
  | none => simp
  | some o => by_cases hreserved : reservedPart o w = 0#64 <;> simp [hreserved]

namespace Machine

/-- A presented word that is no command faults, once the host has moved on (R221, R222). -/
theorem step_of_decode_error {s : State} {w : Word} {e : DecodeError} (hh : s.halted = false)
    (hw : s.nextInput = some (.command w)) (he : decode w = .error e) :
    step s = .next (s.advance.enterFault (DecodeError.faultCode e) w) := by
  simp [step, hh, hw, he, State.whenRejected]

/-- Settles O3: the word is refused for its opcode, and the fault entered is the host's move and code 1. -/
theorem illegalOpcodeRaisesCode1 : Obligations.IllegalOpcodeRaisesCode1 :=
  fun s w hh hw hop => ⟨s.advance.enterFault .illegalOpcode w,
    step_of_decode_error hh hw (decode_eq_illegalOpcode_iff.mpr hop), rfl⟩

end Machine

end Sys2Proof
end

section
/-! SUPPORT. What every bin command counts in count-only mode (R127): an emission takes 8 positions off `bits_left` and counts them
as one byte (R186), so only the shift steps raise the count. -/

namespace Sys2Proof.Machine

/-- R127's count on a command's numbers. -/
def Coder.counted (k : Coder) : Nat := 8 * k.numBufferedBytes + (23 - k.bitsLeft)

theorem Coder.counted_load (r : Regs) : (Coder.load r).counted = countedBits r := rfl

theorem Coder.Within.countedBits_store {k : Coder} (hk : k.Within 12) : countedBits k.store = k.counted :=
  congrArg Coder.counted hk.load_store

/-- From `k` to `k'` the count rises by `n`, as long as `bits_left` starts inside R51. -/
def CountsBy (n : Nat) (k k' : Coder) : Prop := k.bitsLeft ≤ 23 → k'.bitsLeft ≤ 23 ∧ k'.counted = k.counted + n

section

variable {m n b fuel : Nat} {p : Packed} {v : BitVec 1} {k k1 k' : Coder}

theorem CountsBy.refl (k : Coder) : CountsBy 0 k k := fun hb => ⟨hb, rfl⟩

theorem CountsBy.trans (h1 : CountsBy m k k1) (h2 : CountsBy n k1 k') : CountsBy (m + n) k k' := fun hb => by
  obtain ⟨hb1, hc1⟩ := h1 hb
  obtain ⟨hb2, hc2⟩ := h2 hb1
  exact ⟨hb2, by omega⟩

/-- Taking `n` positions off `bits_left` counts them. -/
theorem countsBy_of_bitsLeft (hn : n ≤ k.bitsLeft) (hbits : k'.bitsLeft = k.bitsLeft - n)
    (hcount : k'.numBufferedBytes = k.numBufferedBytes) : CountsBy n k k' := fun hb => by
  simp only [Coder.counted, hbits, hcount]
  omega

/-- An emission gives 8 positions back to `bits_left` for the byte it counts (R186). -/
theorem emit_countsBy (h12 : k.bitsLeft < 12) (h : emit 1#1 k = .ok k') : CountsBy 0 k k' := fun _ => by
  obtain ⟨-, hlead, -⟩ := (emit_ok_iff h12).mp h
  cases hlead with
  | counted =>
    simp only [Coder.counted]
    omega
  | deferred hmode => exact absurd rfl hmode
  | wrote hmode => exact absurd rfl hmode
  | filled hmode => exact absurd rfl hmode

theorem afterShift_countsBy (h : afterShift 1#1 k = .ok k') : CountsBy 0 k k' := by
  obtain ⟨-, ⟨-, rfl⟩ | ⟨h12, hemit⟩⟩ := afterShift_ok h
  · exact .refl _
  · exact emit_countsBy h12 hemit

/-! ### The shift steps -/

theorem renormMps_countsBy {rest : Nat} (h : renormMps { k with range := rest } = .ok k') :
    CountsBy (idealMps rest).shift k k' := by
  rw [idealMps]
  rcases (renormMps_ok_iff ..).mp h with ⟨hlt, hbits, rfl⟩ | ⟨hge, rfl⟩
  · rw [if_pos hlt]
    exact countsBy_of_bitsLeft hbits rfl rfl
  · rw [if_neg (Nat.not_lt.mpr hge)]
    exact CountsBy.refl k

theorem codeRegular_countsBy (h : codeRegular p v k = .ok k') : CountsBy (idealRegular p v k.range).shift k k' := by
  rw [idealRegular]
  by_cases hv : v = ctxMpsOf p
  · rw [if_pos hv]
    exact renormMps_countsBy ((codeRegular_mps_ok_iff hv ..).mp h).2
  · obtain ⟨-, -, hbits, rfl⟩ := (codeRegular_lps_ok_iff hv ..).mp h
    rw [if_neg hv]
    exact countsBy_of_bitsLeft hbits rfl rfl

theorem codeTerminate_countsBy (h : codeTerminate v k = .ok k') : CountsBy (idealTerminate v k.range).shift k k' := by
  obtain ⟨-, h⟩ := (codeTerminate_ok_iff ..).mp h
  rw [idealTerminate]
  split_ifs at h ⊢
  · obtain ⟨hbits, rfl⟩ := h
    exact countsBy_of_bitsLeft hbits rfl rfl
  · exact renormMps_countsBy h

theorem bypassChunk_countsBy (h : bypassChunk 1#1 m b k = .ok k') : CountsBy m k k' := by
  obtain ⟨hbits, h⟩ := (bypassChunk_ok_iff ..).mp h
  refine CountsBy.trans ?_ (afterShift_countsBy h)
  exact countsBy_of_bitsLeft hbits rfl rfl

/-- The chunks of a bypass run count its bins (R152). -/
theorem bypassRun_countsBy (h : bypassRun 1#1 fuel m b k = .ok k') : CountsBy m k k' := by
  induction fuel generalizing m b k with
  | zero => exact bypassChunk_countsBy h
  | succ fuel ih =>
    rcases Nat.lt_or_ge 8 m with h8 | h8
    · rw [bypassRun_of_lt _ _ h8, bind_ok_iff] at h
      obtain ⟨k1, hchunk, hrest⟩ := h
      have hcount := (bypassChunk_countsBy hchunk).trans (ih hrest)
      rwa [Nat.add_sub_cancel' (by omega)] at hcount
    · rw [bypassRun_of_le _ _ h8] at h
      exact bypassChunk_countsBy h

end

/-! ### A bin command as a whole -/

/-- A bin command that completes in count-only mode counts the positions of its ideal step. -/
theorem binCode_countsBy {s : State} {r : Regs} {i : Instr} {k' : Coder} (hmode : s.onlyCount = 1#1) (hi : isBin i = true)
    (h : s.binCode i (Coder.load r) = .ok k') : CountsBy (idealStep s r i).shift (Coder.load r) k' := by
  cases i with
  | encBin ctx v =>
    simp only [State.binCode, hmode, bind_ok_iff, readCtx_ok_iff] at h
    obtain ⟨p, ⟨-, hp⟩, k1, hcode, hshift⟩ := h
    rw [idealStep_encBin hp]
    exact (codeRegular_countsBy hcode).trans (afterShift_countsBy hshift)
  | encEp v =>
    rw [State.binCode, hmode] at h
    exact bypassChunk_countsBy h
  | encEps bits n =>
    simp only [State.binCode, hmode, bind_ok_iff] at h
    obtain ⟨-, -, hrun⟩ := h
    exact bypassRun_countsBy hrun
  | encTrm v =>
    simp only [State.binCode, hmode, bind_ok_iff] at h
    obtain ⟨k1, hcode, hshift⟩ := h
    exact (codeTerminate_countsBy hcode).trans (afterShift_countsBy hshift)
  | _ => cases hi

/-- In count-only mode no carry is written, so that room in the counter and admissible operands are enough to complete. -/
theorem binCode_of_counting {s : State} {r : Regs} {i : Instr} (hs : s.Coding r) (hmode : s.onlyCount = 1#1)
    (hi : isBin i = true) (hadm : s.Admits i) : ∃ k, s.binCode i (Coder.load r) = .ok k ∧ k.Within 12 := by
  refine ((binCode_ends hs.inv hi).mono (fun _ h => h.1) fun _ h => h).exists_ok ?_
  rintro c (⟨hbad, -⟩ | ⟨-, hfull⟩ | ⟨-, hnormal, -⟩)
  · exact hbad hadm
  · exact absurd hs.room (Nat.not_lt.mpr hfull)
  · exact hnormal hmode

/-- Settles O41: the shift steps of a command count their positions, and an emission leaves the count as it is. -/
theorem countedBitsCountTheShifts : Obligations.CountedBitsCountTheShifts := by
  intro s r i hs hmode hi hadm
  obtain ⟨⟨-, -, -, hbits, -⟩, -⟩ := hs.inv
  obtain ⟨k, hk, hwithin⟩ := binCode_of_counting hs hmode hi hadm
  obtain ⟨-, hcount⟩ := binCode_countsBy hmode hi hk hbits
  refine ⟨s.afterBin i k, k.store, ?_, rfl, ?_⟩
  · rw [exec_bin hs.isOpen hi, hk, ok_bind, complete_ok]
  · rw [hwithin.countedBits_store, hcount, Coder.counted_load]

end Sys2Proof.Machine
end

section
/-! SUPPORT. FINISH written out: the events and registers it leaves with a carry and without one (R116, R118 to R120), from every
register state with `bits_left` in 12..23. -/

namespace Sys2Proof.Machine

/-- FINISH's effect (R116) where `run` is what it writes for the pending bytes and `low` is what is left below the carry. -/
def Coder.flushed (k : Coder) (low : Nat) (run : List Event) : Coder :=
  { k with
    low := low
    numBufferedBytes := if 1 < k.numBufferedBytes then 1 else k.numBufferedBytes
    events := k.events ++ run ++ [.bits (low / 256) (24 - k.bitsLeft)] }

/-- The carry branch (R118) writes the run with the carry in it and takes the carry off `low`. -/
theorem finishCarry_eq {k : Coder} {carryPos : Nat} (hlow : 2 ^ carryPos ≤ k.low) (hb : k.bufferedByte < 0xFF) :
    finishCarry carryPos k = .ok { k with low := k.low - 2 ^ carryPos, events := k.events ++ k.carriedRun 1 } := by
  simp only [finishCarry, emitBytes_of_le 1 k hb, emitBytes_of_le _ _ (Nat.zero_le 0xFF), checkedSub_of_le hlow, ok_bind,
    List.append_assoc]
  rfl

/-- The branch without a carry (R119) writes the pending run. -/
theorem finishNoCarry_eq {k : Coder} (hb : k.bufferedByte ≤ 0xFF) :
    finishNoCarry k = .ok { k with events := k.events ++ k.pending } := by
  simp only [finishNoCarry, emitBytes_of_le _ _ hb, emitBytes_of_le _ _ (Nat.le_refl 0xFF), ok_bind, List.append_assoc]
  by_cases hn : k.numBufferedBytes = 0
  · simp [Coder.pending, hn]
  · simp [Coder.pending, hn, Nat.pos_of_ne_zero hn]

section

variable {k : Coder} (hlo : 12 ≤ k.bitsLeft) (hhi : k.bitsLeft ≤ 23)

include hlo hhi

/-- The flush (R116) is its branch for the pending run, and behind it the last event (R120). -/
theorem finishFlush_of_run {low : Nat} {run : List Event} (hcarry : k.low / 2 ^ (32 - k.bitsLeft) ≤ 1)
    (h : (if k.low / 2 ^ (32 - k.bitsLeft) = 1 then finishCarry (32 - k.bitsLeft) k else finishNoCarry k) =
      .ok { k with low := low, events := k.events ++ run }) :
    finishFlush k = .ok (k.flushed low run) := by
  have hlast : (checkedSub 24 k.bitsLeft >>= fun width => emitBits (low >>> 8) width
      { k with
        low := low
        numBufferedBytes := if k.numBufferedBytes > 1 then 1 else k.numBufferedBytes
        events := k.events ++ run }) = .ok (k.flushed low run) := by
    rw [checkedSub_of_le (by omega), ok_bind, emitBits_ok_iff, Nat.shiftRight_eq_div_pow]
    exact ⟨by omega, rfl⟩
  rw [finishFlush, checkedSub_of_le (by omega), ok_bind]
  dsimp only
  rw [Nat.shiftRight_eq_div_pow, if_neg (Nat.not_lt.mpr hcarry)]
  by_cases h1 : k.low / 2 ^ (32 - k.bitsLeft) = 1
  · rw [if_pos h1] at h ⊢
    rw [h, ok_bind]
    exact hlast
  · rw [if_neg h1] at h ⊢
    rw [h, ok_bind]
    exact hlast

theorem finishFlush_of_carry (hcarry : k.low / 2 ^ (32 - k.bitsLeft) = 1) (hb : k.bufferedByte < 0xFF) :
    finishFlush k = .ok (k.flushed (k.low - 2 ^ (32 - k.bitsLeft)) (k.carriedRun 1)) := by
  have hlow : 2 ^ (32 - k.bitsLeft) ≤ k.low := (Nat.div_pos_iff.mp (by omega)).2
  refine finishFlush_of_run hlo hhi hcarry.le ?_
  rw [if_pos hcarry, finishCarry_eq hlow hb]

theorem finishFlush_of_no_carry (hlow : k.low < 2 ^ (32 - k.bitsLeft)) (hb : k.bufferedByte ≤ 0xFF) :
    finishFlush k = .ok (k.flushed k.low k.pending) := by
  have hcarry : k.low / 2 ^ (32 - k.bitsLeft) = 0 := Nat.div_eq_of_lt hlow
  refine finishFlush_of_run hlo hhi (by omega) ?_
  rw [if_neg (by omega), finishNoCarry_eq hb]

end

theorem Coder.store_flushed (r : Regs) (low : Nat) (run : List Event) :
    ((Coder.load r).flushed low run).store = { r with
      low := BitVec.ofNat 32 low
      numBufferedBytes := if 1 < r.numBufferedBytes.toNat then 1#32 else r.numBufferedBytes } := by
  by_cases hn : 1 < r.numBufferedBytes.toNat
  · rw [if_pos hn, Coder.flushed, if_pos (show 1 < (Coder.load r).numBufferedBytes from hn)]
    simp [Coder.store, Coder.load]
  · rw [if_neg hn, Coder.flushed, if_neg (show ¬ 1 < (Coder.load r).numBufferedBytes from hn)]
    simp [Coder.store, Coder.load]

/-- FINISH in OPEN and normal mode whose flush writes `run` and leaves `low`: the frame of R116. -/
theorem exec_finish_of_flushed {s : State} {r : Regs} {low : Nat} {run : List Event} (hr : s.engine = .opened r)
    (hmode : s.onlyCount = 0#1) (h : finishFlush (Coder.load r) = .ok ((Coder.load r).flushed low run)) :
    exec .finish s = .next { s with
      engine := .finished { r with
        low := BitVec.ofNat 32 low
        numBufferedBytes := if 1 < r.numBufferedBytes.toNat then 1#32 else r.numBufferedBytes }
      output := s.output ++ (run ++ [.bits (low / 256) (24 - r.bitsLeft.toNat)]) } := by
  rw [exec_finish hr (by simp [hmode]), h, ok_bind, complete_ok, Coder.store_flushed]
  rfl

/-- Settles O24: the run that FINISH writes starts with `buffered_byte + 1` and goes on with 0x00 bytes. -/
theorem finishWithCarryFlushesTheRunPlusOne : Obligations.FinishWithCarryFlushesTheRunPlusOne := by
  intro s r hr hmode hlo hhi hcarry hb
  have hbyte : r.bufferedByte.toNat < 0xFF := by bv_omega
  have hrun : (Coder.load r).carriedRun 1 =
      .byte (r.bufferedByte + 1#8) :: List.replicate (r.numBufferedBytes.toNat - 1) (.byte 0#8) := by
    simp [Coder.carriedRun, Coder.load, BitVec.ofNat_add]
  have hexec := exec_finish_of_flushed hr hmode (finishFlush_of_carry (k := Coder.load r) hlo hhi hcarry hbyte)
  rwa [hrun] at hexec

/-- Settles O25: FINISH writes the pending run, which is empty while nothing is pending. -/
theorem finishWithoutCarryFlushesTheRun : Obligations.FinishWithoutCarryFlushesTheRun := by
  intro s r hr hmode hlo hhi hlow
  have hbyte : r.bufferedByte.toNat ≤ 0xFF := Nat.le_of_lt_succ r.bufferedByte.isLt
  have hnone : r.numBufferedBytes = 0#32 ↔ r.numBufferedBytes.toNat = 0 := BitVec.toNat_inj.symm
  have hrun : (Coder.load r).pending = if r.numBufferedBytes = 0#32 then [] else
      .byte r.bufferedByte :: List.replicate (r.numBufferedBytes.toNat - 1) (.byte 0xFF#8) := by
    simp [Coder.pending, Coder.load, hnone]
  have hlowKept : BitVec.ofNat 32 (Coder.load r).low = r.low := by simp [Coder.load]
  have hexec := exec_finish_of_flushed hr hmode (finishFlush_of_no_carry (k := Coder.load r) hlo hhi hlow hbyte)
  rwa [hrun, hlowKept, ← List.append_assoc] at hexec

end Sys2Proof.Machine
end

section
/-! SUPPORT. The commands of 40_engine_control.md that are a check and one update: START, SET_CNT, CTX_WR and CTX_RD. -/

namespace Sys2Proof.Machine

/-- Outside OPEN the check of R224 passes. -/
theorem requireNotOpen_of_not_opened {s : State} (h : s.lifecycle ≠ .opened) : s.requireNotOpen = .ok () := by
  unfold State.lifecycle at h
  unfold State.requireNotOpen
  split <;> simp_all

/-- Below NUM_CTX the check of R225 passes. -/
theorem requireCtxInRange_of_lt {s : State} {ctx : BitVec 16} (h : ctx.toNat < s.config.numCtx) :
    s.requireCtxInRange ctx = .ok () := if_pos h

/-- Settles O19: the check of R224 passes, and the effect is R112's. -/
theorem startSetsTheStreamRegisters : Obligations.StartSetsTheStreamRegisters := by
  intro s hs
  rw [exec, execStart, requireNotOpen_of_not_opened hs]
  rfl

/-- Settles O20: the check of R223 passes, and the effect is the flag's. -/
theorem setCntWritesOnlyTheFlag : Obligations.SetCntWritesOnlyTheFlag := by
  intro s v hs
  obtain ⟨r, hr⟩ := (lifecycle_opened_iff s).mp hs
  rw [exec, execSetCnt, openRegs_of_opened hr]
  rfl

/-- Settles O21: the table after CTX_WR is the old one with one entry written. -/
theorem ctxWrWritesOneContext : Obligations.CtxWrWritesOneContext := by
  intro s ctx p hctx
  refine ⟨s.putCtx ctx.toNat p, ?_, rfl, fun j => Memory.read_write s.ctx ctx.toNat j p⟩
  rw [exec, execCtxWr, requireCtxInRange_of_lt hctx]
  rfl

/-- Settles O22: the context is read, and its packed form responded. -/
theorem ctxRdRespondsWithTheContext : Obligations.CtxRdRespondsWithTheContext := by
  intro s ctx p hctx hp
  rw [exec, execCtxRd, (readCtx_ok_iff s ctx p).mpr ⟨hctx, hp⟩, BitVec.ofNat_toNat]
  rfl

end Sys2Proof.Machine
end

section
/-! SUPPORT. Streams in normal mode that agree in what R156 compares: a bin command performs the same ideal step on both, so they
still agree after it. -/

namespace Sys2Proof.Machine

/-- From `s` with registers `r` to `t` with registers `q` the open stream performs the ideal step `d` in normal mode, with at most
`n` emissions, and stays inside the bounds (R45, R50 to R53). -/
structure StreamCodes (n : Nat) (d : IdealStep) (s : State) (r : Regs) (t : State) (q : Regs) : Prop where
  isOpen : t.engine = .opened q
  normal : t.onlyCount = 0#1
  config : t.config = s.config
  inv : q.Inv
  noCarry : q.NoCarryInto0xFF
  count : q.numBufferedBytes.toNat ≤ r.numBufferedBytes.toNat + n
  range : q.range.toNat = d.range
  value : codedValue t.output q = codedValue s.output r * 2 ^ d.shift + d.addend
  width : codedWidth t.output q = codedWidth s.output r + d.shift
  events : (∀ e ∈ s.output, e.wellFormed = true) → ∀ e ∈ t.output, e.wellFormed = true

section

variable {m n : Nat} {d e : IdealStep} {s t u : State} {r q p : Regs} {i : Instr}

theorem StreamCodes.refl (hs : s.CodingNormal r) : StreamCodes 0 (.stay r.range.toNat) s r s r :=
  ⟨hs.isOpen, hs.normal, rfl, hs.inv, hs.noCarry hs.normal, Nat.le_refl _, rfl, by simp, rfl, id⟩

theorem StreamCodes.trans (h1 : StreamCodes m d s r t q) (h2 : StreamCodes n e t q u p) :
    StreamCodes (m + n) (d.followedBy e) s r u p where
  isOpen := h2.isOpen
  normal := h2.normal
  config := h2.config.trans h1.config
  inv := h2.inv
  noCarry := h2.noCarry
  count := by have := h1.count; have := h2.count; omega
  range := h2.range
  value := by
    rw [h2.value, h1.value, IdealStep.followedBy, pow_add]
    ring
  width := by rw [h2.width, h1.width, IdealStep.followedBy, Nat.add_assoc]
  events h := h2.events (h1.events h)

/-- With room for four more emissions the stream can be coded on (R188). -/
theorem StreamCodes.codingNormal (h : StreamCodes n d s r t q) (hroom : r.numBufferedBytes.toNat + n + 4 < 2 ^ 32) :
    t.CodingNormal q :=
  ⟨⟨h.isOpen, h.inv, fun _ => h.noCarry, by have := h.count; omega⟩, h.normal⟩

/-- The coder of a bin command codes the stream as it codes its numbers. -/
theorem StreamCodes.of_codes {k : Coder} (hs : s.CodingNormal r) (hk : k.Within 12)
    (hcodes : Codes s.onlyCount n d (Coder.load r) k) : StreamCodes n d s r (s.afterBin i k) k.store := by
  have hmode : s.onlyCount ≠ 1#1 := by simp [hs.normal]
  obtain ⟨es, hes, hwf⟩ := hcodes.events
  refine ⟨rfl, hs.normal, rfl, hk.store_inv, hk.store_noCarry ?_, ?_, hk.range_store.trans hcodes.range, ?_, ?_, fun h => ?_⟩
  · exact hcodes.noCarry hmode ((noCarry_load_iff r).mpr (hs.noCarry hs.normal))
  · exact (congrArg Coder.numBufferedBytes hk.load_store).trans_le hcodes.count
  · exact (hk.codedValue_store s.output).trans (by rw [hcodes.value hmode, Coder.value_load])
  · exact (hk.codedWidth_store s.output).trans (by rw [hcodes.width hmode, Coder.width_load])
  · rw [show (s.afterBin i k).output = s.output ++ k.events from rfl, hes]
    exact List.forall_mem_append.mpr ⟨h, hwf⟩

/-- In normal mode a bin command performs its ideal step on the stream. -/
theorem exec_bin_streamCodes (hs : s.CodingNormal r) (hi : isBin i = true) (hadm : s.Admits i) :
    ∃ t q, exec i s = .next t ∧ StreamCodes 4 (idealStep s r i) s r t q ∧ t.ctx = s.binCtx i := by
  obtain ⟨k, hexec, hk, hcodes⟩ := exec_bin_of_coding hs.toCoding hi hadm
  exact ⟨_, k.store, hexec, .of_codes hs hk hcodes, rfl⟩

end

/-! ### Two streams -/

section

variable {m n : Nat} {d : IdealStep} {s t s' t' : State} {r q r' q' : Regs} {i : Instr}

theorem SameCode.refl (s : State) (r : Regs) : SameCode s r s r := ⟨rfl, rfl, rfl, rfl, rfl⟩

/-- Neither the ideal step nor the new contexts look at `low` or the pending run. -/
theorem SameCode.idealStep_eq (h : SameCode s r t q) (i : Instr) : idealStep s r i = idealStep t q i := by
  simp only [idealStep, h.range, h.ctx]

theorem SameCode.binCtx_eq (h : SameCode s r t q) (i : Instr) : s.binCtx i = t.binCtx i := by
  simp only [State.binCtx, h.ctx]

theorem SameCode.admits_iff (h : SameCode s r t q) (i : Instr) : s.Admits i ↔ t.Admits i := by
  simp only [State.Admits, h.ctx, h.config]

/-- Streams that agree still agree after the same ideal step, however many emissions went with it on either side. -/
theorem SameCode.of_streamCodes (h : SameCode s r t q) (hs : StreamCodes m d s r s' r') (ht : StreamCodes n d t q t' q')
    (hctx : s'.ctx = t'.ctx) : SameCode s' r' t' q' where
  value := by rw [hs.value, ht.value, h.value]
  width := by rw [hs.width, ht.width, h.width]
  range := BitVec.eq_of_toNat_eq (hs.range.trans ht.range.symm)
  ctx := hctx
  config := by rw [hs.config, ht.config, h.config]

end

/-- Settles O39: both streams perform the same ideal step, which is all that R156's four quantities depend on. -/
theorem sameCodeStaysTheSame : Obligations.SameCodeStaysTheSame := by
  intro s t r q i hs ht h hi hadm
  obtain ⟨s', r', hexecS, hcodesS, hctxS⟩ := exec_bin_streamCodes hs hi hadm
  obtain ⟨t', q', hexecT, hcodesT, hctxT⟩ := exec_bin_streamCodes ht hi ((h.admits_iff i).mp hadm)
  rw [h.idealStep_eq] at hcodesS
  refine ⟨s', t', r', q', hexecS, hexecT, hcodesS.isOpen, hcodesT.isOpen, h.of_streamCodes hcodesS hcodesT ?_⟩
  rw [hctxS, hctxT, h.binCtx_eq]

end Sys2Proof.Machine
end

section
/-! SUPPORT. The bin commands where no emission is due: the shift step is all they do (R140). -/

namespace Sys2Proof.Machine

/-! ### The shift step alone -/

section

variable {onlyCount : BitVec 1} {s : State} {r : Regs} {k : Coder} {d : IdealStep} {i : Instr}

theorem afterShift_move_of_no_emission (hbits : 12 + d.shift ≤ k.bitsLeft) (hlow : k.low * 2 ^ d.shift + d.addend < 2 ^ 32) :
    afterShift onlyCount (k.move d) = .ok (k.move d) :=
  afterShift_of_no_emission hlow (Nat.le_sub_of_add_le hbits)

/-- Inside the bounds (R53) the new `low` fits its register as long as `bits_left` stays at 12 or more. -/
theorem Regs.Bounded.low_move_lt (hr : r.Bounded) (hd : d.Inside r.range.toNat) (hbits : 12 + d.shift ≤ r.bitsLeft.toNat) :
    r.low.toNat * 2 ^ d.shift + d.addend < 2 ^ 32 := by
  obtain ⟨-, -, -, hbh, htop⟩ := hr
  have hmoved := hd.top_le htop
  have hpow : 2 ^ (33 - r.bitsLeft.toNat + d.shift) ≤ 2 ^ 31 := Nat.pow_le_pow_right (by omega) (by omega)
  omega

theorem bypassChunk_of_no_emission {m b : Nat} (hbits : 12 + m ≤ k.bitsLeft) (hlow : k.low * 2 ^ m + k.range * b < 2 ^ 32) :
    bypassChunk onlyCount m b k = .ok (k.move (idealBypass m b k.range)) :=
  (bypassChunk_ok_iff ..).mpr ⟨by omega, afterShift_move_of_no_emission (d := idealBypass m b k.range) hbits hlow⟩

/-- The registers that a shift step leaves. -/
def Regs.move (r : Regs) (d : IdealStep) : Regs :=
  { r with
    low := BitVec.ofNat 32 (r.low.toNat * 2 ^ d.shift + d.addend)
    range := BitVec.ofNat 9 d.range
    bitsLeft := BitVec.ofNat 6 (r.bitsLeft.toNat - d.shift) }

theorem Coder.store_move_load (r : Regs) (d : IdealStep) : ((Coder.load r).move d).store = r.move d := by
  simp [Coder.store, Coder.move, Coder.load, Regs.move]

/-- A bypass step leaves `range` as it is (R148). -/
theorem Regs.move_idealBypass (r : Regs) (m b : Nat) : r.move (idealBypass m b r.range.toNat) = { r with
    low := BitVec.ofNat 32 (r.low.toNat * 2 ^ m + r.range.toNat * b)
    bitsLeft := BitVec.ofNat 6 (r.bitsLeft.toNat - m) } := by
  simp [Regs.move, idealBypass]

/-- The MPS path doubles `low` together with `range`, or leaves `low` and `bits_left` as they are (R144). -/
theorem Regs.move_idealMps (r : Regs) (rest : Nat) : r.move (idealMps rest) =
    if rest < 256 then { r with
      low := BitVec.ofNat 32 (2 * r.low.toNat)
      range := BitVec.ofNat 9 (2 * rest)
      bitsLeft := BitVec.ofNat 6 (r.bitsLeft.toNat - 1) }
    else { r with range := BitVec.ofNat 9 rest } := by
  rw [idealMps]
  split_ifs
  · simp [Regs.move, Nat.mul_comm]
  · simp [Regs.move]

/-- The MPS path asks for one position of `bits_left`, and only where it doubles. -/
theorem idealMps_shift_le {rest bitsLeft : Nat} (hbl : 12 ≤ bitsLeft) (h : rest < 256 → 13 ≤ bitsLeft) :
    12 + (idealMps rest).shift ≤ bitsLeft := by
  rw [idealMps]
  split_ifs with hlt
  · exact h hlt
  · exact hbl

/-- A bin command whose coder is a shift step changes the registers and its context, and nothing else. -/
theorem exec_bin_of_move (hr : s.engine = .opened r) (hi : isBin i = true)
    (hk : s.binCode i (Coder.load r) = .ok ((Coder.load r).move d)) :
    exec i s = .next { s with engine := .opened (r.move d), ctx := s.binCtx i } := by
  have houtput : s.output ++ ((Coder.load r).move d).events = s.output := List.append_nil _
  rw [exec_bin hr hi, hk, ok_bind, complete_ok, ← Coder.store_move_load]
  simp only [State.afterBin, State.commit, State.appendOutput, State.setEngine, houtput]

end

/-! ### ENC_BIN (R142) -/

section

variable {s : State} {r : Regs} {ctx : BitVec 16} {p : Packed} {v : BitVec 1} {d : IdealStep}

/-- ENC_BIN whose arithmetic is a shift step with no emission due: registers, the commanded context, and nothing else. -/
theorem exec_encBin_of_move (hr : s.engine = .opened r) (hb : r.Bounded) (hctx : ctx.toNat < s.config.numCtx)
    (hp : Memory.read s.ctx ctx.toNat = some p) (hcode : codeRegular p v (Coder.load r) = .ok ((Coder.load r).move d))
    (hd : d.Inside r.range.toNat) (hbits : 12 + d.shift ≤ r.bitsLeft.toNat) :
    ∃ t, exec (.encBin ctx v) s = .next t ∧ t = { s with engine := .opened (r.move d), ctx := t.ctx } ∧
      ∀ j, Memory.read t.ctx j = if j = ctx.toNat then some (nextContext p v) else Memory.read s.ctx j := by
  have hk : s.binCode (.encBin ctx v) (Coder.load r) = .ok ((Coder.load r).move d) := by
    rw [State.binCode, (readCtx_ok_iff ..).mpr ⟨hctx, hp⟩, ok_bind, hcode, ok_bind]
    exact afterShift_move_of_no_emission hbits (hb.low_move_lt hd hbits)
  refine ⟨_, exec_bin_of_move hr rfl hk, rfl, fun j => ?_⟩
  rw [State.binCtx_encBin hp, Memory.read_write]

theorem ctxMpsOf_eq_iff (p : Packed) (v : BitVec 1) : v = ctxMpsOf p ↔ v.toNat = p.toNat % 2 := by
  rw [← ctxMpsOf_toNat, BitVec.toNat_inj]

end

/-! ### ENC_TRM (R158) and ENC_EPS (R151) -/

/-- A terminate bin is its ideal step, with the sentinel of R113 or without it. -/
theorem codeTerminate_eq_move {k : Coder} (v : BitVec 1) (hr : 2 ≤ k.range) (hb : 7 ≤ k.bitsLeft) :
    codeTerminate v k = .ok (k.move (idealTerminate v k.range)) := by
  rw [codeTerminate_ok_iff, idealTerminate]
  refine ⟨hr, ?_⟩
  split_ifs with hv
  · exact ⟨hb, by simp only [Coder.move, Nat.add_mul]⟩
  · exact renormMps_eq_move (by omega)

theorem exec_encTrm_of_no_emission {s : State} {r : Regs} {v : BitVec 1} (hr : s.engine = .opened r) (hb : r.Bounded)
    (hbits : 12 + (idealTerminate v r.range.toNat).shift ≤ r.bitsLeft.toNat) :
    exec (.encTrm v) s = .next { s with engine := .opened (r.move (idealTerminate v r.range.toNat)) } := by
  have ⟨hlo, hhi, hbl, _, _⟩ := hb
  have hk : s.binCode (.encTrm v) (Coder.load r) = .ok ((Coder.load r).move (idealTerminate v r.range.toNat)) := by
    rw [State.binCode, codeTerminate_eq_move v (le_trans (by omega) hlo) (le_trans (by omega) hbl), ok_bind]
    exact afterShift_move_of_no_emission hbits (hb.low_move_lt (idealTerminate_inside hlo hhi v) hbits)
  exact exec_bin_of_move hr rfl hk

theorem requireEpsFields_of_lt {bits : BitVec 32} {n : BitVec 6} (hn : n.toNat ≤ 32) (hbits : bits.toNat < 2 ^ n.toNat) :
    requireEpsFields bits n = .ok () := by
  rw [requireEpsFields, if_neg (by omega), if_neg (by omega)]

/-! ### The obligations -/

/-- Settles O27: at a state up to 62 the LPS path is a shift step into the upper subinterval (R143). -/
theorem encBinLpsWithoutEmission : Obligations.EncBinLpsWithoutEmission := by
  intro s r ctx p v hr hb hctx hp hstate hv lps shift hbits
  have ⟨hlo, hhi, _, _, _⟩ := hb
  have hlps : v ≠ ctxMpsOf p := fun h => hv ((ctxMpsOf_eq_iff p v).mp h)
  have h63 : ctxStateOf p ≠ 63 := by rw [ctxStateOf_eq]; omega
  have hideal : idealRegular p v r.range.toNat = ⟨shift, (r.range.toNat - lps) * 2 ^ shift, lps * 2 ^ shift⟩ := by
    rw [idealRegular, if_neg hlps, ctxStateOf_eq]
  have hinside := hideal ▸ idealRegular_inside hlo hhi (fun h => absurd h h63)
  have hcode : codeRegular p v (Coder.load r) =
      .ok ((Coder.load r).move ⟨shift, (r.range.toNat - lps) * 2 ^ shift, lps * 2 ^ shift⟩) := by
    obtain ⟨hle, -, -⟩ := mps_width_bounds hlo hhi (ctxStateOf_lt p)
    rw [codeRegular_lps_ok_iff hlps, ctxStateOf_eq]
    rw [ctxStateOf_eq] at h63 hle
    exact ⟨h63, hle, (Nat.le_add_left ..).trans hbits, by simp only [Coder.move, Nat.add_mul]; rfl⟩
  obtain ⟨t, hexec, hframe, hread⟩ := exec_encBin_of_move hr hb hctx hp hcode hinside hbits
  rw [nextContext, if_neg hlps] at hread
  exact ⟨t, hexec, by rwa [Nat.add_mul], hread⟩

/-- Settles O28: the MPS path is the reduced width, and a doubling where it fell below 256 (R144). -/
theorem encBinMpsWithoutEmission : Obligations.EncBinMpsWithoutEmission := by
  intro s r ctx p v hr hb hctx hp hv rest hbits
  have ⟨hlo, hhi, hbl, _, _⟩ := hb
  have hmps : v = ctxMpsOf p := (ctxMpsOf_eq_iff p v).mpr hv
  have hideal : idealRegular p v r.range.toNat = idealMps rest := by
    rw [idealRegular, if_pos hmps, ctxStateOf_eq]
  have hinside := hideal ▸ idealRegular_inside hlo hhi (fun _ => hmps)
  have hcode : codeRegular p v (Coder.load r) = .ok ((Coder.load r).move (idealMps rest)) := by
    obtain ⟨hle, -, -⟩ := mps_width_bounds hlo hhi (ctxStateOf_lt p)
    rw [codeRegular_mps_ok_iff hmps, ctxStateOf_eq]
    rw [ctxStateOf_eq] at hle
    exact ⟨hle, renormMps_eq_move (k := Coder.load r) (le_trans (by omega) hbl)⟩
  obtain ⟨t, hexec, hframe, hread⟩ := exec_encBin_of_move hr hb hctx hp hcode hinside (idealMps_shift_le hbl hbits)
  rw [nextContext, if_pos hmps] at hread
  exact ⟨t, hexec, by rwa [Regs.move_idealMps] at hframe, hread⟩

/-- Settles O31: the terminate bin 1 is a shift step by 7, and the terminate bin 0 an MPS with an LPS width of 2 (R158 to R160). -/
theorem encTrmWithoutEmission : Obligations.EncTrmWithoutEmission := by
  intro s r hr hb
  have ⟨_, _, hbl, _, _⟩ := hb
  have hzero (hbits : r.range.toNat - 2 < 256 → 13 ≤ r.bitsLeft.toNat) :
      exec (.encTrm 0#1) s = .next { s with engine := .opened (r.move (idealMps (r.range.toNat - 2))) } :=
    exec_encTrm_of_no_emission hr hb (idealMps_shift_le hbl hbits)
  simp only [Regs.move_idealMps] at hzero
  refine ⟨fun hbits => ?_, fun hlt hbits => ?_, fun hge => ?_⟩
  · rw [exec_encTrm_of_no_emission (v := 1#1) hr hb hbits, Nat.add_mul]
    rfl
  · rw [hzero fun _ => hbits, if_pos hlt]
  · have hnot := Nat.not_lt.mpr hge
    rw [hzero fun h => absurd h hnot, if_neg hnot]

/-- Settles O29: a bypass bin is a shift step (R148). -/
theorem encEpWithoutEmission : Obligations.EncEpWithoutEmission := by
  intro s r v hr hbits hlow
  have hk : s.binCode (.encEp v) (Coder.load r) = .ok ((Coder.load r).move (idealBypass 1 v.toNat r.range.toNat)) :=
    bypassChunk_of_no_emission hbits (by rwa [pow_one, Nat.mul_comm _ 2])
  rw [exec_bin_of_move hr rfl hk, Regs.move_idealBypass, pow_one, Nat.mul_comm _ 2]
  rfl

/-- Settles O30: at most 8 bins are one chunk, which is a shift step (R152, R154). -/
theorem encEpsOneChunkWithoutEmission : Obligations.EncEpsOneChunkWithoutEmission := by
  intro s r bits n hr hn hlt hbits hlow
  have hk : s.binCode (.encEps bits n) (Coder.load r) =
      .ok ((Coder.load r).move (idealBypass n.toNat bits.toNat r.range.toNat)) := by
    rw [State.binCode, requireEpsFields_of_lt (by omega) hlt, ok_bind, bypassRun_of_le _ _ hn]
    exact bypassChunk_of_no_emission hbits hlow
  rw [exec_bin_of_move hr rfl hk, Regs.move_idealBypass]
  rfl

end Sys2Proof.Machine
end

section
/-! SUPPORT. The bitstream is its number written out in its width (R64): events that spell the same number in the same width hold
the same bits, however they cut them. -/

namespace Sys2Proof.Machine

theorem msbFirst_append (a : Nat) {b n : Nat} (m : Nat) (hb : b < 2 ^ n) :
    msbFirst (a * 2 ^ n + b) (m + n) = msbFirst a m ++ msbFirst b n := by
  have hbit (i : Nat) : (a * 2 ^ n + b).testBit i = if i < n then b.testBit i else a.testBit (i - n) := by
    rw [Nat.mul_comm, Nat.testBit_two_pow_mul_add a hb]
  simp only [msbFirst, List.range_add, List.map_append, List.map_map, hbit]
  congr 1
  · refine List.map_congr_left fun i hi => ?_
    have hi := List.mem_range.mp hi
    rw [if_neg (by omega), show m + n - 1 - i - n = m - 1 - i by omega]
  · refine List.map_congr_left fun i hi => ?_
    have hi := List.mem_range.mp hi
    rw [Function.comp_apply, if_pos (by omega), show m + n - 1 - (m + i) = n - 1 - i by omega]

/-- A well-formed event's value has no more bits than the event (R63). -/
theorem Event.value_lt_of_wellFormed {e : Event} (h : e.wellFormed = true) : e.value < 2 ^ e.width := by
  cases e with
  | byte b => exact b.isLt
  | bits v n =>
    simp only [Event.wellFormed, Bool.and_eq_true, decide_eq_true_eq] at h
    exact h.2

/-- Well-formed events spell a number below the power of two of their width. -/
theorem eventsValue_lt {es : List Event} (h : ∀ e ∈ es, e.wellFormed = true) : eventsValue es < 2 ^ eventsWidth es := by
  induction es with
  | nil => simp
  | cons e es ih =>
    obtain ⟨he, hes⟩ := List.forall_mem_cons.mp h
    have hhead : (e.value + 1) * 2 ^ eventsWidth es ≤ 2 ^ e.width * 2 ^ eventsWidth es :=
      Nat.mul_le_mul_right _ (Event.value_lt_of_wellFormed he)
    have hrest := ih hes
    rw [eventsValue_cons, eventsWidth_cons, pow_add]
    rw [Nat.add_mul] at hhead
    omega

theorem bitstream_eq_msbFirst {es : List Event} (h : ∀ e ∈ es, e.wellFormed = true) :
    bitstream es = msbFirst (eventsValue es) (eventsWidth es) := by
  induction es with
  | nil => rfl
  | cons e es ih =>
    obtain ⟨-, hes⟩ := List.forall_mem_cons.mp h
    rw [eventsValue_cons, eventsWidth_cons, msbFirst_append _ _ (eventsValue_lt hes), ← ih hes]
    rfl

end Sys2Proof.Machine
end

section
/-! SUPPORT. ENC_EPS against single bypass bins (R156): both perform the same ideal step on the stream, and FINISH writes what it
codes. -/

namespace Sys2Proof.Machine

/-! ### FINISH of streams that agree -/

theorem finishCarry_range {carryPos : Nat} {k k' : Coder} (h : finishCarry carryPos k = .ok k') : k'.range = k.range := by
  simp only [finishCarry, bind_ok_iff, emitBytes_ok_iff] at h
  obtain ⟨_, ⟨-, rfl⟩, _, ⟨-, rfl⟩, _, -, h⟩ := h
  cases h
  rfl

theorem finishNoCarry_range {k k' : Coder} (h : finishNoCarry k = .ok k') : k'.range = k.range := by
  simp only [finishNoCarry, bind_ok_iff, emitBytes_ok_iff] at h
  obtain ⟨_, ⟨-, rfl⟩, -, rfl⟩ := h
  rfl

theorem emitLastBits_range {a b v : Nat} {k k' : Coder} (h : (checkedSub a b >>= fun width => emitBits v width k) = .ok k') :
    k'.range = k.range := by
  simp only [bind_ok_iff, emitBits_ok_iff] at h
  obtain ⟨_, -, -, rfl⟩ := h
  rfl

/-- FINISH leaves `range` as it is (R116). -/
theorem finishFlush_range {k k' : Coder} (h : finishFlush k = .ok k') : k'.range = k.range := by
  obtain ⟨carryPos, -, h⟩ := (bind_ok_iff ..).mp h
  dsimp only at h
  split at h
  · simp at h
  · split at h
    · obtain ⟨k1, hrun, hlast⟩ := (bind_ok_iff ..).mp h
      exact (emitLastBits_range hlast).trans (finishCarry_range (k' := k1) hrun)
    · obtain ⟨k1, hrun, hlast⟩ := (bind_ok_iff ..).mp h
      exact (emitLastBits_range hlast).trans (finishNoCarry_range (k' := k1) hrun)

/-- FINISH on a coding stream: the bits of the coded value, and `range` and the contexts as they were (R45, R116). -/
theorem exec_finish_bitstream {s : State} {r : Regs} (hs : s.CodingNormal r) (hwf : ∀ e ∈ s.output, e.wellFormed = true) :
    ∃ t q, exec .finish s = .next t ∧ t.engine = .finished q ∧ q.range = r.range ∧ t.ctx = s.ctx ∧
      bitstream t.output = msbFirst (codedValue s.output r / 256) (codedWidth s.output r) := by
  have hcarry := (noCarry_load_iff r).mpr (hs.noCarry hs.normal)
  obtain ⟨k, hk, hflush⟩ := (finishFlush_ends ((within_load_iff r).mpr hs.inv)).exists_ok fun _ h => h.2 hcarry
  obtain ⟨es, hes, hesWf⟩ := hflush.events
  have hout : ∀ e ∈ s.output ++ k.events, e.wellFormed = true := List.forall_mem_append.mpr ⟨hwf, by rwa [hes]⟩
  refine ⟨(s.setEngine (.finished k.store)).appendOutput k.events, k.store, ?_, rfl, ?_, rfl, ?_⟩
  · rw [exec_finish hs.isOpen (by simp [hs.normal]), hk, ok_bind, complete_ok]
  · exact BitVec.eq_of_toNat_eq (hflush.within.range_store.trans (finishFlush_range hk))
  · rw [← Coder.value_load, ← Coder.width_load, ← hflush.value, ← hflush.width]
    exact bitstream_eq_msbFirst hout

/-! ### Runs of commands -/

theorem execAll_cons_of_next {i : Instr} {rest : List Instr} {s t : State} (h : exec i s = .next t) :
    execAll (i :: rest) s = execAll rest t := by
  rw [execAll, h]

theorem ofBool_testBit_zero (x : Nat) : BitVec.ofBool (x.testBit 0) = BitVec.ofNat 1 x := by
  apply BitVec.eq_of_toNat_eq
  rcases Nat.mod_two_eq_zero_or_one x with h | h <;> simp [h]

/-- The single bins of `n + 1` bits: the most significant bit, then the single bins of the rest. -/
theorem singleBins_succ (b n : Nat) :
    singleBins b (n + 1) = .encEp (BitVec.ofNat 1 (b / 2 ^ n)) :: singleBins (b % 2 ^ n) n := by
  have hsplit : msbFirst b (n + 1) = msbFirst (b / 2 ^ n) 1 ++ msbFirst (b % 2 ^ n) n := by
    rw [← msbFirst_append _ _ (Nat.mod_lt b (by positivity)), Nat.div_add_mod', Nat.add_comm]
  rw [singleBins, hsplit, List.map_append, ← ofBool_testBit_zero]
  rfl

/-- A bypass run splits at any place: its top bins, then the rest (R152). -/
theorem idealBypass_followedBy_rest (m n b w : Nat) :
    (idealBypass m (b / 2 ^ n) w).followedBy (idealBypass n (b % 2 ^ n) w) = idealBypass (m + n) b w := by
  simp only [IdealStep.followedBy, idealBypass, Nat.mul_assoc, ← Nat.mul_add, Nat.div_add_mod']

section

variable {s : State} {r : Regs}

/-- ENC_EP performs its bypass step on the stream, with at most one emission. -/
theorem exec_encEp_streamCodes (hs : s.CodingNormal r) (v : BitVec 1) :
    ∃ t q, exec (.encEp v) s = .next t ∧ StreamCodes 1 (idealBypass 1 v.toNat r.range.toNat) s r t q ∧ t.ctx = s.ctx := by
  have hnofault : ∀ c, ¬ EmitFault s.onlyCount 1 (Coder.load r) c := by
    rintro c (⟨-, hfull⟩ | ⟨-, -, hcarry⟩)
    · exact absurd hs.room (Nat.not_lt.mpr (le_trans hfull (Nat.add_le_add_left (by omega) _)))
    · exact hcarry ((noCarry_load_iff r).mpr (hs.noCarry hs.normal))
  obtain ⟨k, hk, hwithin, hcodes⟩ :=
    (bypassChunk_ends ((within_load_iff r).mpr hs.inv) (by omega : 1 ≤ 8) v.isLt).exists_ok hnofault
  refine ⟨s.afterBin (.encEp v) k, k.store, ?_, .of_codes hs hwithin hcodes, rfl⟩
  rw [exec_bin hs.isOpen rfl, State.binCode, hk, ok_bind, complete_ok]

/-- The single bins of `n` bits code their bypass run, with at most one emission each. -/
theorem execAll_singleBins {n b : Nat} (rest : List Instr) (hs : s.CodingNormal r)
    (hroom : r.numBufferedBytes.toNat + n + 4 < 2 ^ 32) (hb : b < 2 ^ n) :
    ∃ t q, execAll (singleBins b n ++ rest) s = execAll rest t ∧
      StreamCodes n (idealBypass n b r.range.toNat) s r t q ∧ t.ctx = s.ctx := by
  induction n generalizing s r b with
  | zero =>
    obtain rfl : b = 0 := by simpa using hb
    exact ⟨s, r, rfl, .refl hs, rfl⟩
  | succ n ih =>
    obtain ⟨t, q, hexec, hcodes, hctx⟩ := exec_encEp_streamCodes hs (BitVec.ofNat 1 (b / 2 ^ n))
    have hcount := hcodes.count
    obtain ⟨u, p, hexecs, hcodes', hctx'⟩ := ih (hcodes.codingNormal (by omega)) (by omega) (Nat.mod_lt b (by positivity))
    have hbit : (BitVec.ofNat 1 (b / 2 ^ n)).toNat = b / 2 ^ n :=
      Nat.mod_eq_of_lt (Nat.div_lt_of_lt_mul (by rwa [← pow_add]))
    refine ⟨u, p, ?_, ?_, hctx'.trans hctx⟩
    · rw [singleBins_succ, List.cons_append, execAll_cons_of_next hexec, hexecs]
    · have hrange : q.range.toNat = r.range.toNat := hcodes.range
      rw [hrange] at hcodes'
      have hrun := hcodes.trans hcodes'
      rwa [hbit, idealBypass_followedBy_rest, Nat.add_comm] at hrun

end

/-- Settles O38: the run and its single bins perform the same ideal step, and FINISH writes the coded value. -/
theorem encEpsCodesTheSameBitsAsSingleBins : Obligations.EncEpsCodesTheSameBitsAsSingleBins := by
  intro s r bits n hs hwf hn hbits hroom
  obtain ⟨s1, r1, hrun1, hcodes1, hctx1⟩ := exec_bin_streamCodes (i := .encEps bits n) hs rfl ⟨hn, hbits⟩
  obtain ⟨s2, r2, hrun2, hcodes2, hctx2⟩ := execAll_singleBins [.finish] hs (by omega) hbits
  have hsame : SameCode s1 r1 s2 r2 := (SameCode.refl s r).of_streamCodes hcodes1 hcodes2 (hctx1.trans hctx2.symm)
  obtain ⟨t, q, hfinish1, hq, hrange, hctx, hstream⟩ :=
    exec_finish_bitstream (hcodes1.codingNormal (by omega)) (hcodes1.events hwf)
  obtain ⟨u, q', hfinish2, hq', hrange', hctx', hstream'⟩ :=
    exec_finish_bitstream (hcodes2.codingNormal (by omega)) (hcodes2.events hwf)
  refine ⟨t, u, q, q', ?_, ?_, ?_, hq, hq', ?_, ?_⟩
  · rw [execAll_cons_of_next hrun1, execAll_cons_of_next hfinish1, execAll]
  · rw [hrun2, execAll_cons_of_next hfinish2, execAll]
  · rw [hstream, hstream', hsame.value, hsame.width]
  · rw [hrange, hrange', hsame.range]
  · rw [hctx, hctx', hsame.ctx]

end Sys2Proof.Machine
end

section
/-! SUPPORT. The bytes an emission writes and keeps pending, in either mode and from any register state (R181, R186), and R188's bound
on what one emission writes. -/

namespace Sys2Proof.Machine

/-! ### One emission -/

section

variable {onlyCount : BitVec 1} {lead : Nat} {k k' : Coder}

/-- Where the shared steps answer, no emission was due and nothing changed, or one was and the lead byte had its effect (R140). -/
theorem afterShift_effect (h : afterShift onlyCount k = .ok k') :
    (12 ≤ k.bitsLeft ∧ k' = k) ∨ (k.bitsLeft < 12 ∧ LeadEffect onlyCount k.lead k.leadTaken k') := by
  obtain ⟨-, hnone | ⟨h12, hemit⟩⟩ := afterShift_ok h
  · exact .inl hnone
  · obtain ⟨-, heffect, -⟩ := (emit_ok_iff h12).mp hemit
    exact .inr ⟨h12, heffect⟩

/-- The bytes written by the command so far and those pending. -/
def Coder.bytes (k : Coder) : Nat := k.events.length + k.numBufferedBytes

@[simp] theorem Coder.bytes_leadTaken (k : Coder) : k.leadTaken.bytes = k.bytes := rfl

/-- Whatever becomes of a lead byte, it is one byte more, written, pending or counted. -/
theorem LeadEffect.bytes_eq (h : LeadEffect onlyCount lead k k') : k'.bytes = k.bytes + 1 := by
  cases h with
  | counted => rfl
  | deferred => rfl
  | wrote _ _ hn =>
    simp only [Coder.bytes, List.length_append, List.length_cons, List.length_replicate]
    omega
  | filled _ _ hn => simp [Coder.bytes, hn]

/-- A lead byte in count-only mode is counted, and nothing else happens (R186). -/
theorem LeadEffect.eq_of_counting (h : LeadEffect 1#1 lead k k') :
    k' = { k with numBufferedBytes := k.numBufferedBytes + 1 } := by
  cases h with
  | counted => rfl
  | deferred hmode => exact absurd rfl hmode
  | wrote hmode => exact absurd rfl hmode
  | filled hmode => exact absurd rfl hmode

/-- A lead byte writes the pending run or nothing (R183, R184, R186). -/
theorem LeadEffect.written_le (h : LeadEffect onlyCount lead k k') :
    k'.events.length ≤ k.events.length + k.numBufferedBytes := by
  cases h with
  | counted => exact Nat.le_add_right ..
  | deferred => exact Nat.le_add_right ..
  | wrote _ _ hn =>
    simp only [List.length_append, List.length_cons, List.length_replicate]
    omega
  | filled => exact Nat.le_add_right ..

/-- The shared steps write at most the pending run (R188). -/
theorem afterShift_written_le (h : afterShift onlyCount k = .ok k') :
    k'.events.length ≤ k.events.length + k.numBufferedBytes := by
  rcases afterShift_effect h with ⟨-, rfl⟩ | ⟨-, heffect⟩
  · exact Nat.le_add_right ..
  · exact heffect.written_le

end

/-! ### The shift steps before it -/

/-- `k'` has the bytes of `k`: those pending and those written. -/
structure Coder.SameBytes (k k' : Coder) : Prop where
  bufferedByte : k'.bufferedByte = k.bufferedByte
  numBufferedBytes : k'.numBufferedBytes = k.numBufferedBytes
  events : k'.events = k.events

section

variable {p : Packed} {v : BitVec 1} {k k' : Coder}

theorem renormMps_sameBytes {rest : Nat} (h : renormMps { k with range := rest } = .ok k') : k.SameBytes k' := by
  rcases (renormMps_ok_iff ..).mp h with ⟨-, -, rfl⟩ | ⟨-, rfl⟩
  · exact ⟨rfl, rfl, rfl⟩
  · exact ⟨rfl, rfl, rfl⟩

theorem codeRegular_sameBytes (h : codeRegular p v k = .ok k') : k.SameBytes k' := by
  by_cases hv : v = ctxMpsOf p
  · exact renormMps_sameBytes ((codeRegular_mps_ok_iff hv ..).mp h).2
  · obtain ⟨-, -, -, rfl⟩ := (codeRegular_lps_ok_iff hv ..).mp h
    exact ⟨rfl, rfl, rfl⟩

theorem codeTerminate_sameBytes (h : codeTerminate v k = .ok k') : k.SameBytes k' := by
  obtain ⟨-, h⟩ := (codeTerminate_ok_iff ..).mp h
  split_ifs at h
  · obtain ⟨-, rfl⟩ := h
    exact ⟨rfl, rfl, rfl⟩
  · exact renormMps_sameBytes h

/-- One chunk of bypass bins is a shift step, and then the shared steps (R152). -/
theorem bypassChunk_eq_afterShift {m : Nat} (hbits : m ≤ k.bitsLeft) (onlyCount : BitVec 1) (pattern : Nat) :
    bypassChunk onlyCount m pattern k = afterShift onlyCount (k.move (idealBypass m pattern k.range)) := by
  rw [bypassChunk, takeBits_of_le (by exact hbits), ok_bind, Nat.shiftLeft_eq]
  rfl

/-- ENC_BIN, ENC_EP and ENC_TRM are a shift step that touches no byte and does not look at the mode, and then the shared steps. -/
theorem binCode_eq_afterShift {s : State} {i : Instr} (hi : isBin i = true) (hone : ∀ bits n, i ≠ .encEps bits n)
    (h : s.binCode i k = .ok k') :
    ∃ k1, k.SameBytes k1 ∧ ∀ onlyCount, (s.setOnlyCount onlyCount).binCode i k = afterShift onlyCount k1 := by
  cases i with
  | encBin ctx v =>
    simp only [State.binCode, bind_ok_iff] at h
    obtain ⟨p, hp, k1, hcode, -⟩ := h
    refine ⟨k1, codeRegular_sameBytes hcode, fun onlyCount => ?_⟩
    rw [State.binCode, show (s.setOnlyCount onlyCount).readCtx ctx = .ok p from hp, ok_bind, hcode, ok_bind]
    rfl
  | encEp v =>
    obtain ⟨hbits, -⟩ := (bypassChunk_ok_iff ..).mp h
    exact ⟨k.move (idealBypass 1 v.toNat k.range), ⟨rfl, rfl, rfl⟩, fun onlyCount =>
      bypassChunk_eq_afterShift hbits onlyCount v.toNat⟩
  | encEps bits n => exact absurd rfl (hone bits n)
  | encTrm v =>
    simp only [State.binCode, bind_ok_iff] at h
    obtain ⟨k1, hcode, -⟩ := h
    refine ⟨k1, codeTerminate_sameBytes hcode, fun onlyCount => ?_⟩
    rw [State.binCode, hcode, ok_bind]
    rfl
  | _ => cases hi

end

/-- Settles O42: the shift step writes nothing, the one emission after it at most the pending run, and fault entry nothing. -/
theorem oneEmissionWritesAtMostThePendingRun : Obligations.OneEmissionWritesAtMostThePendingRun := by
  intro s t r i hr hi hone h
  rw [exec_bin hr hi] at h
  rcases next_of_effect h with ⟨k, hk, rfl⟩ | ⟨c, -, rfl⟩
  · obtain ⟨k1, hbytes, hmode⟩ := binCode_eq_afterShift hi hone hk
    have hle := afterShift_written_le ((hmode s.onlyCount).symm.trans hk)
    rw [hbytes.events, hbytes.numBufferedBytes] at hle
    exact ⟨k.events, rfl, hle.trans_eq (Nat.zero_add _)⟩
  · exact ⟨[], (List.append_nil _).symm, Nat.zero_le _⟩

end Sys2Proof.Machine
end

section
/-! SUPPORT. A bin command in count-only mode beside the same command in normal mode (R54, R186): the shift steps agree, emissions are
due at the same places, and each is one byte in either mode. -/

namespace Sys2Proof.Machine

/-- `c` is in count-only mode what `k` is in normal mode: the same interval, nothing written, `buffered_byte` still `byte`, and a count
of the bytes that `k` wrote or keeps pending (R54). -/
structure Counterpart (byte : Nat) (k c : Coder) : Prop where
  low : c.low = k.low
  range : c.range = k.range
  bitsLeft : c.bitsLeft = k.bitsLeft
  events : c.events = []
  bufferedByte : c.bufferedByte = byte
  count : c.numBufferedBytes = k.bytes

section

variable {onlyCount : BitVec 1} {byte m b fuel : Nat} {k c k' c' : Coder}

/-- Before the first emission a command's numbers are their own counterpart. -/
theorem Counterpart.of_no_events (h : k.events = []) : Counterpart k.bufferedByte k k :=
  ⟨rfl, rfl, rfl, h, rfl, by simp [Coder.bytes, h]⟩

/-- A shift step keeps counterparts. -/
theorem Counterpart.move (h : Counterpart byte k c) (d : IdealStep) : Counterpart byte (k.move d) (c.move d) :=
  ⟨by simp only [Coder.move, h.low], rfl, by simp only [Coder.move, h.bitsLeft], h.events, h.bufferedByte, h.count⟩

/-- A lead byte that is counted beside one that has its effect in the other mode. -/
theorem Counterpart.leadEffect (h : Counterpart byte k c) (hk : LeadEffect onlyCount k.lead k.leadTaken k')
    (hc : LeadEffect 1#1 c.lead c.leadTaken c') : Counterpart byte k' c' := by
  obtain ⟨hlow, hrange, hbits⟩ := hk.frame
  obtain rfl := hc.eq_of_counting
  refine ⟨?_, h.range.trans hrange.symm, ?_, h.events, h.bufferedByte, ?_⟩
  · rw [hlow]
    simp only [Coder.leadTaken, h.low, h.bitsLeft]
  · rw [hbits]
    exact congrArg (· + 8) h.bitsLeft
  · rw [hk.bytes_eq, Coder.bytes_leadTaken, ← h.count]
    rfl

/-- `bits_left` decides in both modes alike whether an emission is due (R180). -/
theorem Counterpart.afterShift (h : Counterpart byte k c) (hk : afterShift onlyCount k = .ok k')
    (hc : afterShift 1#1 c = .ok c') : Counterpart byte k' c' := by
  have hbits := h.bitsLeft
  rcases afterShift_effect hk with ⟨hk12, rfl⟩ | ⟨hk12, hk⟩
  · rcases afterShift_effect hc with ⟨-, rfl⟩ | ⟨hc12, -⟩
    · exact h
    · omega
  · rcases afterShift_effect hc with ⟨hc12, -⟩ | ⟨-, hc⟩
    · omega
    · exact h.leadEffect hk hc

theorem Counterpart.bypassChunk (h : Counterpart byte k c) (hk : bypassChunk onlyCount m b k = .ok k')
    (hc : bypassChunk 1#1 m b c = .ok c') : Counterpart byte k' c' := by
  obtain ⟨hbits, -⟩ := (bypassChunk_ok_iff ..).mp hk
  obtain ⟨hbits', -⟩ := (bypassChunk_ok_iff ..).mp hc
  rw [bypassChunk_eq_afterShift hbits] at hk
  rw [bypassChunk_eq_afterShift hbits', h.range] at hc
  exact (h.move _).afterShift hk hc

/-- Chunk by chunk (R152). -/
theorem Counterpart.bypassRun (h : Counterpart byte k c) (hk : bypassRun onlyCount fuel m b k = .ok k')
    (hc : bypassRun 1#1 fuel m b c = .ok c') : Counterpart byte k' c' := by
  induction fuel generalizing m b k c with
  | zero => exact h.bypassChunk hk hc
  | succ fuel ih =>
    rcases Nat.lt_or_ge 8 m with h8 | h8
    · rw [bypassRun_of_lt _ _ h8, bind_ok_iff] at hk hc
      obtain ⟨k1, hk1, hk⟩ := hk
      obtain ⟨c1, hc1, hc⟩ := hc
      exact ih (h.bypassChunk hk1 hc1) hk hc
    · rw [bypassRun_of_le _ _ h8] at hk hc
      exact h.bypassChunk hk hc

end

/-! ### A bin command as a whole -/

section

variable {s : State} {r : Regs} {i : Instr} {k c : Coder}

/-- The coder of a bin command, completed in both modes from the same registers, ends in counterparts. -/
theorem counterpart_of_binCode (hi : isBin i = true) (hk : s.binCode i (Coder.load r) = .ok k)
    (hc : (s.setOnlyCount 1#1).binCode i (Coder.load r) = .ok c) : Counterpart r.bufferedByte.toNat k c := by
  by_cases hone : ∀ bits n, i ≠ .encEps bits n
  · obtain ⟨k1, hbytes, hmode⟩ := binCode_eq_afterShift hi hone hk
    have hsame : Counterpart k1.bufferedByte k1 k1 := .of_no_events hbytes.events
    rw [hbytes.bufferedByte] at hsame
    exact hsame.afterShift ((hmode s.onlyCount).symm.trans hk) ((hmode 1#1).symm.trans hc)
  · obtain ⟨bits, n, rfl⟩ : ∃ bits n, i = .encEps bits n := by simpa using hone
    simp only [State.binCode, bind_ok_iff] at hk hc
    obtain ⟨-, -, hk⟩ := hk
    obtain ⟨-, -, hc⟩ := hc
    exact (Counterpart.of_no_events rfl).bypassRun hk hc

/-- In normal mode R52 lets every carry be written, so that room in the counter and admissible operands are enough to complete. -/
theorem binCode_of_normal (hs : s.CodingNormal r) (hi : isBin i = true) (hadm : s.Admits i) :
    ∃ k, s.binCode i (Coder.load r) = .ok k ∧ k.Within 12 := by
  refine ((binCode_ends hs.inv hi).mono (fun _ h => h.1) fun _ h => h).exists_ok ?_
  rintro c (⟨hbad, -⟩ | ⟨-, hfull⟩ | ⟨-, -, hcarry⟩)
  · exact hbad hadm
  · exact absurd hs.room (Nat.not_lt.mpr hfull)
  · exact hcarry ((noCarry_load_iff r).mpr (hs.noCarry hs.normal))

/-- The bounds without R52 are those of count-only mode. -/
theorem State.Coding.setOnlyCount_one (hs : s.Coding r) : (s.setOnlyCount 1#1).Coding r :=
  ⟨hs.isOpen, hs.inv, fun h => absurd h (by simp), hs.room⟩

end

/-- Settles O40: both modes complete, and what they leave are counterparts. -/
theorem countModeFollowsNormalMode : Obligations.CountModeFollowsNormalMode := by
  intro s r i hs hi hadm
  obtain ⟨k, hk, hkw⟩ := binCode_of_normal hs hi hadm
  obtain ⟨c, hc, hcw⟩ := binCode_of_counting hs.toCoding.setOnlyCount_one rfl hi hadm
  have hpart := counterpart_of_binCode hi hk hc
  refine ⟨s.afterBin i k, (s.setOnlyCount 1#1).afterBin i c, k.store, c.store, k.events, ?_, ?_, rfl, rfl, rfl,
    congrArg (BitVec.ofNat 32) hpart.low, congrArg (BitVec.ofNat 9) hpart.range, congrArg (BitVec.ofNat 6) hpart.bitsLeft,
    rfl, ?_, ?_, ?_⟩
  · rw [exec_bin hs.isOpen hi, hk, ok_bind, complete_ok]
  · have hexec := exec_bin (s := s.setOnlyCount 1#1) hs.isOpen hi
    rw [hc, ok_bind, complete_ok] at hexec
    exact hexec
  · exact (congrArg (s.output ++ ·) hpart.events).trans (List.append_nil _)
  · rw [Coder.store, hpart.bufferedByte, BitVec.ofNat_toNat, BitVec.setWidth_eq]
  · have hcount : c.store.numBufferedBytes.toNat = c.numBufferedBytes := congrArg Coder.numBufferedBytes hcw.load_store
    have hcount' : k.store.numBufferedBytes.toNat = k.numBufferedBytes := congrArg Coder.numBufferedBytes hkw.load_store
    rw [hcount, hcount', hpart.count, Coder.bytes]

end Sys2Proof.Machine
end

section
/-! SUPPORT. ENC_EP at the last position before an emission, from any open state: the lead byte's effect is all that follows the shift
step (R148, R181). -/

namespace Sys2Proof.Machine

section

variable {s : State} {r : Regs} {v : BitVec 1}

/-- `low` after the shift step of ENC_EP (R148). -/
def Regs.epLow (r : Regs) (v : BitVec 1) : Nat := 2 * r.low.toNat + r.range.toNat * v.toNat

/-- The lead byte that ENC_EP at `bits_left` 12 emits (R181). -/
def Regs.epLead (r : Regs) (v : BitVec 1) : Nat := r.epLow v / 2 ^ 13

/-- The numbers on which that lead byte acts: the lead is off `low`, and `bits_left` is 19. -/
def Regs.epLeadTaken (r : Regs) (v : BitVec 1) : Coder := { Coder.load r with low := r.epLow v % 2 ^ 13, bitsLeft := 19 }

/-- ENC_EP at `bits_left` 12 emits, and completes with what becomes of the lead byte. -/
theorem exec_encEp_of_leadEffect {k : Coder} (hr : s.engine = .opened r) (hbits : r.bitsLeft = 12#6)
    (hlead : r.epLead v ≤ 0x1FF) (h : LeadEffect s.onlyCount (r.epLead v) (r.epLeadTaken v) k)
    (hcount : k.numBufferedBytes < 2 ^ 32) :
    exec (.encEp v) s = .next { s with
      engine := .opened { r with
        low := BitVec.ofNat 32 (r.epLow v % 2 ^ 13)
        bitsLeft := 19#6
        bufferedByte := BitVec.ofNat 8 k.bufferedByte
        numBufferedBytes := BitVec.ofNat 32 k.numBufferedBytes }
      output := s.output ++ k.events } := by
  have hload : (Coder.load r).bitsLeft = 12 := congrArg BitVec.toNat hbits
  have hlow : r.epLow v < 2 ^ 32 := by rw [Regs.epLead] at hlead; omega
  have hmove : (Coder.load r).move (idealBypass 1 v.toNat (Coder.load r).range) =
      { Coder.load r with low := r.epLow v, bitsLeft := 11 } := by
    simp only [Coder.move, idealBypass, hload, pow_one, Nat.mul_comm _ 2]
    rfl
  have hk : s.binCode (.encEp v) (Coder.load r) = .ok k := by
    rw [State.binCode, bypassChunk_eq_afterShift (by omega), hmove, afterShift_of_emission hlow (Nat.lt_succ_self 11),
      emit_ok_iff (Nat.lt_succ_self 11)]
    exact ⟨hlead, h, hcount⟩
  have hstore : k.store = { r with
      low := BitVec.ofNat 32 (r.epLow v % 2 ^ 13)
      bitsLeft := 19#6
      bufferedByte := BitVec.ofNat 8 k.bufferedByte
      numBufferedBytes := BitVec.ofNat 32 k.numBufferedBytes } := by
    obtain ⟨hlow', hrange', hbits'⟩ := h.frame
    simp [Coder.store, hlow', hrange', hbits', Regs.epLeadTaken, Coder.load]
  rw [exec_bin hr rfl, hk, ok_bind, complete_ok, ← hstore]
  rfl

/-- A lead byte that is only counted, deferred or in count-only mode: the frame of R183 and R186. -/
theorem exec_encEp_of_counted (hr : s.engine = .opened r) (hbits : r.bitsLeft = 12#6) (hlead : r.epLead v ≤ 0x1FF)
    (hmode : s.onlyCount = 1#1 ∨ r.epLead v = 0xFF) (hfull : r.numBufferedBytes ≠ 0xFFFFFFFF#32) :
    exec (.encEp v) s = .next { s with engine := .opened { r with
      low := BitVec.ofNat 32 (r.epLow v % 2 ^ 13)
      bitsLeft := 19#6
      numBufferedBytes := r.numBufferedBytes + 1#32 } } := by
  have heffect : LeadEffect s.onlyCount (r.epLead v) (r.epLeadTaken v)
      { r.epLeadTaken v with numBufferedBytes := r.numBufferedBytes.toNat + 1 } := by
    by_cases hcount : s.onlyCount = 1#1
    · exact .counted hcount
    · exact .deferred hcount (hmode.resolve_left hcount)
  have hroom : r.numBufferedBytes.toNat + 1 < 2 ^ 32 := by bv_omega
  rw [exec_encEp_of_leadEffect hr hbits hlead heffect hroom]
  simp [Regs.epLeadTaken, Coder.load, BitVec.ofNat_add]

end

/-! ### The obligations -/

/-- Settles O32: the lead byte writes the pending run, and its 0xFF bytes become 0x00 behind a carry (R184). -/
theorem emissionWritesThePendingRun : Obligations.EmissionWritesThePendingRun := by
  intro s r v hr hnormal hbits low lead hlead hff hn hb
  have hmode : s.onlyCount ≠ 1#1 := by simp [hnormal]
  have hpos : 0 < r.numBufferedBytes.toNat := by bv_omega
  have hcarry : lead >>> 8 = lead / 256 := Nat.shiftRight_eq_div_pow ..
  have heffect := LeadEffect.wrote (k := r.epLeadTaken v) hmode hff hpos (by rwa [hcarry])
  have hrun : BitVec.ofNat 8 ((0xFF + lead / 256) &&& 0xFF) = if 0xFF < lead then 0#8 else 0xFF#8 := by
    split_ifs with hgt
    · rw [show lead / 256 = 1 by omega]
      rfl
    · rw [show lead / 256 = 0 by omega]
      rfl
  rw [hcarry, hrun] at heffect
  rw [exec_encEp_of_leadEffect hr hbits hlead heffect (by simp), Nat.and_two_pow_sub_one_eq_mod lead 8]
  rfl

/-- Settles O33: a lead byte of 0xFF is counted only, and one below it with nothing pending only fills the buffer. -/
theorem emissionDefersOrFillsTheBuffer : Obligations.EmissionDefersOrFillsTheBuffer := by
  intro s r v hr hnormal hbits low lead
  refine ⟨fun hff hfull => exec_encEp_of_counted hr hbits (hff.trans_le (by decide)) (.inr hff) hfull, fun hlt hn => ?_⟩
  have hmode : s.onlyCount ≠ 1#1 := by simp [hnormal]
  have heffect := LeadEffect.filled (k := r.epLeadTaken v) hmode hlt.ne (congrArg BitVec.toNat hn) hlt.le
  rw [(Nat.and_two_pow_sub_one_eq_mod lead 8).trans (Nat.mod_eq_of_lt (by omega))] at heffect
  rw [exec_encEp_of_leadEffect hr hbits (hlt.le.trans (by decide)) heffect (by simp)]
  simp [Regs.epLeadTaken, Regs.epLow, Coder.load, low]

/-- Settles O34: in count-only mode every lead byte is counted only. -/
theorem countModeEmissionOnlyCounts : Obligations.CountModeEmissionOnlyCounts := fun _ _ _ hr hmode hbits hlead hfull =>
  exec_encEp_of_counted hr hbits hlead (.inl hmode) hfull

end Sys2Proof.Machine
end

section
/-! SUPPORT. The bins of the host's pseudo-instructions (43_binarization.md): unary prefixes as numbers, the split of a bypass run, the
subtracting loop shared by COEFF_REMAIN and EGK, and truncated unary. -/

namespace Sys2Proof.Machine

/-! ### Bypass runs as bins -/

theorem msbFirst_div_append_mod (v m n : Nat) : msbFirst (v / 2 ^ n) m ++ msbFirst (v % 2 ^ n) n = msbFirst v (m + n) := by
  rw [← msbFirst_append _ _ (Nat.mod_lt v (by positivity)), Nat.div_add_mod']

theorem msbFirst_two_pow_sub_one (q : Nat) : msbFirst (2 ^ q - 1) q = List.replicate q true := by
  refine List.eq_replicate_iff.mpr ⟨by simp [msbFirst], fun b hb => ?_⟩
  obtain ⟨i, hi, rfl⟩ := List.mem_map.mp hb
  have hi := List.mem_range.mp hi
  rw [Nat.testBit_two_pow_sub_one, decide_eq_true (by omega)]

/-- The unary prefix of R201 and R210: `q` ones and the stop bit. -/
theorem msbFirst_prefix (q : Nat) : msbFirst (2 ^ (q + 1) - 2) (q + 1) = List.replicate q true ++ [false] := by
  rw [← msbFirst_two_pow_sub_one, show 2 ^ (q + 1) - 2 = (2 ^ q - 1) * 2 ^ 1 + 0 by omega, msbFirst_append _ _ (by decide)]
  rfl

/-! ### The split of R213 -/

/-- The commands are ENC_EPS commands inside R228 and R229, and their bins one after the other are the `l` bins of `v`. -/
def CodesRun (v l : Nat) (commands : List Instr) : Prop :=
  ∃ pieces : List BypassRun, commands = pieces.map (fun r => epsCommand r.value r.length) ∧
    (∀ r ∈ pieces, r.length ≤ 32 ∧ r.value < 2 ^ r.length) ∧
    pieces.flatMap (fun r => msbFirst r.value r.length) = msbFirst v l

theorem codesRun_single {v l : Nat} (hl : l ≤ 32) (hv : v < 2 ^ l) : CodesRun v l [epsCommand v l] :=
  ⟨[⟨v, l⟩], rfl, by simp [hl, hv], by simp⟩

theorem CodesRun.cons {v l m : Nat} {commands : List Instr} (hm : m ≤ 32) (hv : v / 2 ^ l < 2 ^ m)
    (h : CodesRun (v % 2 ^ l) l commands) : CodesRun v (m + l) (epsCommand (v / 2 ^ l) m :: commands) := by
  obtain ⟨pieces, rfl, hlegal, hbins⟩ := h
  refine ⟨⟨v / 2 ^ l, m⟩ :: pieces, rfl, List.forall_mem_cons.mpr ⟨⟨hm, hv⟩, hlegal⟩, ?_⟩
  rw [List.flatMap_cons, hbins, msbFirst_div_append_mod]

/-- The split codes its run: every turn takes the 32 top bins off. -/
theorem codesRun_splitRun {fuel v l : Nat} (hfuel : l ≤ fuel) (hv : v < 2 ^ l) : CodesRun v l (splitRun fuel v l) := by
  induction fuel generalizing v l with
  | zero => exact codesRun_single (hfuel.trans (by decide)) hv
  | succ fuel ih =>
    rw [splitRun]
    split_ifs with hl
    · obtain ⟨rest, rfl⟩ := Nat.exists_eq_add_of_le hl.le
      rw [Nat.add_sub_cancel_left, Nat.shiftRight_eq_div_pow, Nat.and_two_pow_sub_one_eq_mod]
      have htop : v / 2 ^ rest < 2 ^ 32 := Nat.div_lt_of_lt_mul (by rwa [← pow_add, Nat.add_comm])
      exact (ih (by omega) (Nat.mod_lt v (by positivity))).cons le_rfl htop
    · exact codesRun_single (not_lt.mp hl) hv

/-! ### The subtracting loop of R203 and R210 -/

/-- `q` turns of the loop take `2^length`, ..., `2^(length + q - 1)` off `code`, and what is left fits the raised length. -/
theorem escapeLoop_spec {fuel code length : Nat} (hfuel : code < fuel) :
    ∃ q rest, escapeLoop fuel code length = (rest, length + q) ∧ rest < 2 ^ (length + q) ∧
      code = (2 ^ (length + q) - 2 ^ length) + rest := by
  induction fuel generalizing code length with
  | zero => exact absurd hfuel (Nat.not_lt_zero code)
  | succ fuel ih =>
    rw [escapeLoop]
    split_ifs with hcode
    · have hpos : 0 < 2 ^ length := by positivity
      obtain ⟨q, rest, hloop, hrest, hsum⟩ := ih (code := code - 2 ^ length) (length := length + 1) (by omega)
      have hlength : length + 1 + q = length + (q + 1) := by omega
      have hraised : 2 ^ (length + 1) ≤ 2 ^ (length + (q + 1)) := Nat.pow_le_pow_right (by decide) (by omega)
      rw [hlength] at hloop hrest hsum
      exact ⟨q + 1, rest, hloop, hrest, by omega⟩
    · exact ⟨0, code, rfl, not_le.mp hcode, by simp⟩

/-- EGK's variables after `q` turns of its loop (R210), `s` left of the symbol. -/
def EgkVars.afterTurns (k q s : Nat) : EgkVars := { bins := 2 ^ q - 1, nbits := q, count := k + q, s := s }

theorem EgkVars.afterTurns_succ (k q s : Nat) : afterTurns k (q + 1) (s - 2 ^ (k + q)) =
    { bins := 2 * (afterTurns k q s).bins + 1, nbits := (afterTurns k q s).nbits + 1,
      count := (afterTurns k q s).count + 1, s := (afterTurns k q s).s - 2 ^ (afterTurns k q s).count } := by
  have hpos : 0 < 2 ^ q := by positivity
  have hbins : 2 ^ (q + 1) - 1 = 2 * (2 ^ q - 1) + 1 := by omega
  simp [afterTurns, hbins, Nat.add_assoc]

/-- EGK's loop is the subtracting loop of COEFF_REMAIN, with its turns counted and a one written per turn. -/
theorem egkLoop_afterTurns {fuel k q s q' s' : Nat} (h : escapeLoop fuel s (k + q) = (s', k + q')) :
    egkLoop fuel (.afterTurns k q s) = .afterTurns k q' s' := by
  induction fuel generalizing q s with
  | zero =>
    obtain ⟨rfl, hq⟩ := Prod.mk.inj h
    rw [egkLoop, Nat.add_left_cancel hq]
  | succ fuel ih =>
    rw [escapeLoop] at h
    rw [egkLoop, ← EgkVars.afterTurns_succ]
    split_ifs at h with hs
    · exact (if_pos hs).trans (ih h)
    · obtain ⟨rfl, hq⟩ := Prod.mk.inj h
      rw [Nat.add_left_cancel hq] at hs ⊢
      exact if_neg hs

/-- EGK's run is the prefix of `q` turns above what the subtracting loop leaves (R210, step 4). -/
theorem egkRun_of_escapeLoop {symbol k q s : Nat} (h : escapeLoop (symbol + 1) symbol k = (s, k + q)) (hs : s < 2 ^ (k + q)) :
    egkRun symbol k = ⟨(2 ^ (q + 1) - 2) * 2 ^ (k + q) + s, (q + 1) + (k + q)⟩ := by
  have hloop : egkLoop (symbol + 1) { bins := 0, nbits := 0, count := k, s := symbol } = .afterTurns k q s :=
    egkLoop_afterTurns (q := 0) h
  have hones : 2 * (2 ^ q - 1) = 2 ^ (q + 1) - 2 := by omega
  simp only [egkRun, hloop, EgkVars.afterTurns, hones, ← Nat.shiftLeft_eq, Nat.shiftLeft_add_eq_or_of_lt hs]

/-! ### Truncated unary (R205, R208) -/

/-- Only the bin at place 0 is coded under `base`. -/
theorem underContexts_eq_map_zipIdx (base offset : Nat) (bins : List (BitVec 1)) :
    underContexts base offset bins = bins.zipIdx.map fun x =>
      .encBin (BitVec.ofNat 16 (if x.2 = 0 then base else base + offset)) x.1 := by
  cases bins with
  | nil => rfl
  | cons b rest =>
    rw [underContexts, List.zipIdx_cons, List.map_cons, if_pos rfl]
    nth_rw 1 [← List.zipIdx_map_fst 1 rest]
    rw [List.map_map]
    exact congrArg _ (List.map_congr_left fun x hx => by
      rw [Function.comp_apply, if_neg (Nat.one_le_iff_ne_zero.mp (List.le_snd_of_mem_zipIdx hx))])

theorem tuEp_of_le {symbol max : Nat} (h : symbol ≤ max) :
    tuEp symbol max = .ok ((truncatedUnaryBins symbol max).map .encEp) :=
  if_neg (by omega)

theorem tuCtx_of_le {symbol max base offset : Nat} (h : symbol ≤ max) (hindex : base + offset < 65536) :
    tuCtx symbol max base offset = .ok (underContexts base offset (truncatedUnaryBins symbol max)) := by
  rw [tuCtx, if_neg (by omega), if_neg (by omega)]
  rfl

theorem truncatedUnaryBins_of_le {symbol max : Nat} (h : symbol ≤ max) :
    truncatedUnaryBins symbol max =
      if max = 0 then [] else List.replicate symbol 1#1 ++ if symbol = max then [] else [0#1] := by
  obtain rfl | hlt := h.eq_or_lt
  · simp [truncatedUnaryBins]
  · simp [truncatedUnaryBins, hlt, hlt.ne]

/-! ### The obligations -/

/-- Settles O54, by induction on the bound of the split's loop. -/
theorem splitRunsKeepTheBins : Obligations.SplitRunsKeepTheBins := fun _ _ hv => codesRun_splitRun le_rfl hv

/-- Settles O55: the prefix run is ones and a stop bit, and what the suffix run takes off leaves `symbol mod 2^r` (R202). -/
theorem coeffRemainShortForm : Obligations.CoeffRemainShortForm := by
  intro symbol r _ hshort
  have hsuffix : symbol - symbol / 2 ^ r * 2 ^ r = symbol % 2 ^ r := by rw [Nat.mod_eq_sub, Nat.mul_comm]
  simp only [coeffRemainRuns, Nat.shiftLeft_eq, Nat.shiftRight_eq_div_pow, if_pos hshort, hsuffix, List.flatMap_cons,
    List.flatMap_nil, List.append_nil, msbFirst_prefix]

/-- Settles O56: the loop's turns are the ones of the prefix above the first three. -/
theorem coeffRemainLongForm : Obligations.CoeffRemainLongForm := by
  intro symbol r _ hlong
  obtain ⟨q, code, hloop, hcode, hsum⟩ := escapeLoop_spec (length := r) (Nat.lt_succ_self (symbol - 3 * 2 ^ r))
  refine ⟨code, r + q, Nat.le_add_right r q, hcode, by omega, ?_⟩
  have hprefix : 3 + (r + q) + 1 - r = 3 + (r + q) - r + 1 := by omega
  simp only [coeffRemainRuns, Nat.shiftLeft_eq, if_neg (not_lt.mpr hlong), hloop, hprefix, List.flatMap_cons,
    List.flatMap_nil, List.append_nil, msbFirst_prefix]

/-- Settles O57: EGK's loop is the subtracting loop, and its run is the prefix above the rest of the symbol. -/
theorem egkCodesPrefixAndRemainder : Obligations.EgkCodesPrefixAndRemainder := by
  intro symbol k
  obtain ⟨q, s, hloop, hs, hsum⟩ := escapeLoop_spec (length := k) (Nat.lt_succ_self symbol)
  refine ⟨q, s, hs, hsum, ?_⟩
  rw [egkRun_of_escapeLoop hloop hs, msbFirst_append _ _ hs, msbFirst_prefix]

/-- Settles O58: both versions issue the model's `truncatedUnaryBins` (which has the plain name), TU_CTX by place in the list. -/
theorem truncatedUnaryBins_shape : Obligations.TruncatedUnaryBins := by
  intro symbol max base offset hle hindex
  refine ⟨truncatedUnaryBins symbol max, truncatedUnaryBins_of_le hle, tuEp_of_le hle, ?_⟩
  rw [tuCtx_of_le hle hindex, underContexts_eq_map_zipIdx]

end Sys2Proof.Machine
end

section
/-! SUPPORT. Commands that one of their checks refuses: the first check that fails gives the fault, whatever would have followed
(R236, R237). -/

namespace Sys2Proof.Machine

/-! ### Fault entry -/

/-- A command whose first part raises a fault is fault entry, whatever it would have done next (R236). -/
theorem complete_bind_of_raise {α : Type} {s : State} {w : Word} {x : Except Stop α} {f : α → Except Stop State} {c : FaultCode}
    (h : x = raise c) : s.complete w (x >>= f) = .next (s.faultedBy c.code w) := by
  rw [h, raise_bind, complete_raise, State.enterFault_eq_faultedBy]

/-- In OPEN a bin command whose coder raises a fault is fault entry. -/
theorem exec_bin_of_raise {s : State} {r : Regs} {i : Instr} {c : FaultCode} (hr : s.engine = .opened r) (hi : isBin i = true)
    (h : s.binCode i (Coder.load r) = raise c) : exec i s = .next (s.faultedBy c.code (encode i)) := by
  rw [exec_bin hr hi, complete_bind_of_raise h]

/-- Settles O11: a command that completes leaves the halt as it was, so a new halt is fault entry. -/
theorem faultsArePrecise : Obligations.FaultsArePrecise := by
  intro i s t hrunning h hhalted
  rcases exec_next_cases h with hdone | ⟨c, -, rfl⟩
  · obtain ⟨-, -, -, hsame, -⟩ := hdone.frame
    simp [hsame, hrunning] at hhalted
  · exact ⟨c.code, (code_bounds c).1, (code_bounds c).2, s.enterFault_eq_faultedBy c (encode i)⟩

/-! ### The checks -/

section

variable {s : State} {ctx : BitVec 16} {bits : BitVec 32} {n : BitVec 6}

/-- In OPEN the check of R224 raises ALREADY_OPEN. -/
theorem requireNotOpen_of_opened (h : s.lifecycle = .opened) : s.requireNotOpen = raise .alreadyOpen := by
  obtain ⟨r, hr⟩ := (lifecycle_opened_iff s).mp h
  rw [State.requireNotOpen, hr]

/-- At or above NUM_CTX the check of R225 raises CTX_RANGE. -/
theorem requireCtxInRange_of_ge (h : s.config.numCtx ≤ ctx.toNat) : s.requireCtxInRange ctx = raise .ctxRange :=
  if_neg (Nat.not_lt.mpr h)

theorem readCtx_of_ge (h : s.config.numCtx ≤ ctx.toNat) : s.readCtx ctx = raise .ctxRange := if_neg (Nat.not_lt.mpr h)

/-- An entry without a value raises CTX_UNWRITTEN (R226). -/
theorem readCtx_of_unwritten (hctx : ctx.toNat < s.config.numCtx) (h : Memory.read s.ctx ctx.toNat = none) :
    s.readCtx ctx = raise .ctxUnwritten := by
  rw [State.readCtx, if_pos hctx, h]

/-- A count above 32 raises EPS_COUNT (R228). -/
theorem requireEpsFields_of_count (h : 32 < n.toNat) : requireEpsFields bits n = raise .epsCount := if_pos h

/-- A value that does not fit its count raises EPS_WIDE (R229). -/
theorem requireEpsFields_of_wide (hn : n.toNat ≤ 32) (h : 2 ^ n.toNat ≤ bits.toNat) : requireEpsFields bits n = raise .epsWide := by
  rw [requireEpsFields, if_neg (Nat.not_lt.mpr hn), if_pos h]

theorem requireEpsFields_of_legal (hn : n.toNat ≤ 32) (h : bits.toNat < 2 ^ n.toNat) : requireEpsFields bits n = .ok () := by
  rw [requireEpsFields, if_neg (Nat.not_lt.mpr hn), if_neg (Nat.not_le.mpr h)]

end

/-! ### The obligations -/

/-- Settles O12: five of the commands check the lifecycle first, and ENC_EPS does so once its fields have passed. -/
theorem notOpenIsRaisedOutsideOpen : Obligations.NotOpenIsRaisedOutsideOpen := by
  intro s hs
  have hopen := openRegs_of_not_opened hs
  refine ⟨fun _ _ => complete_bind_of_raise hopen, fun _ => complete_bind_of_raise hopen, fun bits n hn hbits => ?_,
    fun _ => complete_bind_of_raise hopen, complete_bind_of_raise hopen, fun _ => complete_bind_of_raise hopen⟩
  rw [exec, execEncEps, requireEpsFields_of_legal hn hbits, ok_bind]
  exact complete_bind_of_raise hopen

/-- Settles O13: CTX_WR and CTX_RD check the context operand first, and so does ENC_BIN in OPEN. -/
theorem contextOperandFaults : Obligations.ContextOperandFaults := by
  intro s ctx
  have hbin {c : FaultCode} (h : s.readCtx ctx = raise c) (v : BitVec 1) (hs : s.lifecycle = .opened) :
      exec (.encBin ctx v) s = .next (s.faultedBy c.code (encode (.encBin ctx v))) := by
    obtain ⟨r, hr⟩ := (lifecycle_opened_iff s).mp hs
    exact exec_bin_of_raise hr rfl (by rw [State.binCode, h, raise_bind])
  refine ⟨fun hge => ?_, fun hlt hnone => ?_⟩
  · exact ⟨hbin (readCtx_of_ge hge), fun _ => complete_bind_of_raise (requireCtxInRange_of_ge hge),
      complete_bind_of_raise (readCtx_of_ge hge)⟩
  · have hread := readCtx_of_unwritten hlt hnone
    exact ⟨hbin hread, complete_bind_of_raise hread⟩

/-- Settles O14: the context passes its checks, and its arithmetic starts with the look at state 63. -/
theorem lpsAtState63RaisesCode7 : Obligations.LpsAtState63RaisesCode7 := by
  intro s r ctx p v hr hctx hp hstate hlps
  have hcode : codeRegular p v (Coder.load r) = raise .ctxState63Lps :=
    codeRegular_state63 (mt (ctxMpsOf_eq_iff p v).mp hlps) ((ctxStateOf_eq p).trans hstate) _
  refine exec_bin_of_raise hr rfl (c := .ctxState63Lps) ?_
  rw [State.binCode, (readCtx_ok_iff s ctx p).mpr ⟨hctx, hp⟩, ok_bind, hcode, raise_bind]

/-- Settles O15: ENC_EPS checks its fields before the lifecycle. -/
theorem epsFieldFaults : Obligations.EpsFieldFaults := fun _ _ _ =>
  ⟨fun hn => complete_bind_of_raise (requireEpsFields_of_count hn),
    fun hn hbits => complete_bind_of_raise (requireEpsFields_of_wide hn hbits)⟩

/-- Settles O16: START checks the lifecycle first, and FINISH in OPEN the mode. -/
theorem startAndFinishAreRefusedInOpen : Obligations.StartAndFinishAreRefusedInOpen := by
  intro s hs
  refine ⟨complete_bind_of_raise (requireNotOpen_of_opened hs), fun hmode => ?_⟩
  obtain ⟨r, hr⟩ := (lifecycle_opened_iff s).mp hs
  have hcheck : s.requireNormalMode = raise .finishInCount := if_pos hmode
  rw [exec, execFinish, openRegs_of_opened hr, ok_bind]
  exact complete_bind_of_raise hcheck

end Sys2Proof.Machine
end

section
/-! SUPPORT. Legal opcodes with a reserved bit (R83, R222). -/

namespace Sys2Proof

/-- `op` is the word's remainder by 16 (R81). -/
theorem fieldOp_toNat (w : Word) : (fieldOp w).toNat = w.toNat % 16 := by simp [fieldOp]

/-- `decode` refuses a word for its reserved bits exactly when the opcode is legal and one of them is 1 (R87). -/
theorem decode_eq_reservedBits_iff {w : Word} :
    decode w = .error .reservedBits ↔ ∃ o : Opcode, fieldOp w = o.toBits ∧ reservedPart o w ≠ 0#64 := by
  simp only [← ofBits_eq_some_iff]
  unfold decode
  cases Opcode.ofBits (fieldOp w) with
  | none => simp
  | some o => by_cases hreserved : reservedPart o w = 0#64 <;> simp [hreserved]

namespace Machine

/-- Settles O4: the ten printed rows are the opcodes with the used masks of their formats. -/
theorem reservedBitsRaiseCode2 : Obligations.ReservedBitsRaiseCode2 := by
  rintro s w hh hw ⟨row, hmem, hop, hreserved⟩
  obtain ⟨o, -, rfl⟩ := List.mem_map (f := fun o : Opcode => (o.toBits.toNat, o.format.usedMask)) (l := Opcode.all).mp hmem
  have hdecode : decode w = .error .reservedBits :=
    decode_eq_reservedBits_iff.mpr ⟨o, BitVec.eq_of_toNat_eq ((fieldOp_toNat w).trans hop), hreserved⟩
  exact ⟨s.advance.enterFault .reservedBits w, step_of_decode_error hh hw hdecode, rfl⟩

end Machine

end Sys2Proof
end

section
/-! SUPPORT. The steps that perform no command: a halted block's, and an idle block's (R238, R240, R247). -/

namespace Sys2Proof.Machine

/-- With no pulse to come a block that waits for reset has no step. -/
theorem State.awaitReset_stuck {s : State} (h : HostInput.reset ∉ s.upcoming) : s.awaitReset = .fault .halted := by
  rw [State.awaitReset, afterReset_eq_none.mpr h]

/-- Settles O8: a halted block waits for reset, and an idle one stays. -/
theorem haltedBlockStepsOnlyByReset : Obligations.HaltedBlockStepsOnlyByReset := by
  intro s
  refine ⟨fun hh hno => ?_, fun hh t h => ?_, fun hh hidle => ?_⟩
  · rw [step_halted hh]
    exact State.awaitReset_stuck hno
  · rw [step_halted hh] at h
    obtain ⟨rest, hrest, rfl⟩ := State.awaitReset_next h
    obtain ⟨skipped, hlist, -⟩ := afterReset_eq_some.mp hrest
    have hpulse : HostInput.reset ∈ s.upcoming := by simp [hlist]
    exact ⟨hpulse, rfl, rfl, rfl, rfl, rfl⟩
  · simp [step, hh, hidle, State.whenIdle]

end Sys2Proof.Machine
end

section
/-! SUPPORT. The faults of an emission, at ENC_EP from any open state (R187, R230, R232, R235). -/

namespace Sys2Proof.Machine

/-- Where a part of a command has no value to answer, it raises a fault of the given kind. -/
theorem Ends.exists_raise {α : Type} {x : Except Stop α} {P : α → Prop} {E : FaultCode → Prop} (h : Ends x P E)
    (hP : ∀ a, ¬ P a) : ∃ c, x = raise c ∧ E c := by
  rcases x with (c | f) | a
  · exact ⟨c, rfl, h⟩
  · exact h.elim
  · exact absurd h (hP a)

/-! ### The emission -/

section

variable {onlyCount : BitVec 1} {lead : Nat} {k k' : Coder}

/-- A lead with two carries has no place to go (R187). -/
theorem emit_of_lead_gt (h : 0x1FF < k.lead) : emit onlyCount k = raise .carryOverflow := by
  rw [Coder.lead, ← Nat.shiftRight_eq_div_pow] at h
  exact if_pos h

/-- Any other lead has its effect, and then the count is checked (R181). -/
theorem emit_of_lead_le (h12 : k.bitsLeft < 12) (h : k.lead ≤ 0x1FF) :
    emit onlyCount k = emitLead onlyCount k.lead k.leadTaken >>= checkCount := by
  have hmask : k.low &&& (0xFFFFFFFF >>> (k.bitsLeft + 8)) = k.low % 2 ^ (24 - k.bitsLeft) := by
    rw [and_mask_eq_mod _ (by omega), show 32 - (k.bitsLeft + 8) = 24 - k.bitsLeft by omega]
  simp only [emit, hmask]
  rw [Nat.shiftRight_eq_div_pow]
  exact if_neg (Nat.not_lt.mpr h)

/-- In normal mode a carry with nothing buffered, or into a buffered 0xFF, has no effect that could take it (R187). -/
theorem not_leadEffect_of_unwritable (hmode : onlyCount ≠ 1#1) (hcarry : 0xFF < lead)
    (h : k.numBufferedBytes = 0 ∨ k.bufferedByte = 0xFF) : ¬ LeadEffect onlyCount lead k k' := by
  intro heffect
  cases heffect with
  | counted hcount => exact hmode hcount
  | deferred _ hff => omega
  | wrote _ _ hn hb =>
    rw [Nat.shiftRight_eq_div_pow] at hb
    omega
  | filled _ _ _ hle => omega

theorem emitLead_of_unwritable (hmode : onlyCount ≠ 1#1) (hcarry : 0xFF < lead)
    (h : k.numBufferedBytes = 0 ∨ k.bufferedByte = 0xFF) : emitLead onlyCount lead k = raise .carryOverflow := by
  obtain ⟨c, hraise, rfl, -⟩ := (emitLead_ends onlyCount lead k).exists_raise fun _ => not_leadEffect_of_unwritable hmode hcarry h
  exact hraise

/-- The three cases of R187 raise CARRY_OVERFLOW. -/
theorem emit_of_unwritable (hmode : onlyCount ≠ 1#1) (h12 : k.bitsLeft < 12)
    (h : 0x1FF < k.lead ∨ (0xFF < k.lead ∧ (k.numBufferedBytes = 0 ∨ k.bufferedByte = 0xFF))) :
    emit onlyCount k = raise .carryOverflow := by
  rcases Nat.lt_or_ge 0x1FF k.lead with hgt | hle
  · exact emit_of_lead_gt hgt
  · obtain ⟨hcarry, hfull⟩ := h.resolve_left (Nat.not_lt.mpr hle)
    rw [emit_of_lead_le h12 hle, emitLead_of_unwritable (k := k.leadTaken) hmode hcarry hfull, raise_bind]

/-- In count-only mode a counter at its last value raises NBB_OVERFLOW (R186, R232). -/
theorem emit_of_count_full (hmode : onlyCount = 1#1) (h12 : k.bitsLeft < 12) (hle : k.lead ≤ 0x1FF)
    (hfull : k.numBufferedBytes = 0xFFFFFFFF) : emit onlyCount k = raise .nbbOverflow := by
  rw [emit_of_lead_le h12 hle, emitLead_of_effect (.counted hmode), ok_bind, checkCount]
  exact if_pos (by simp [Coder.leadTaken, hfull])

end

/-! ### ENC_EP (R148) -/

section

variable {s : State} {r : Regs} {v : BitVec 1} {c : FaultCode}

/-- The numbers after the shift step of ENC_EP (R148). -/
def Regs.epShifted (r : Regs) (v : BitVec 1) : Coder := { Coder.load r with low := r.epLow v, bitsLeft := r.bitsLeft.toNat - 1 }

/-- ENC_EP with a bit position left is its shift step, and then the shared steps (R140, R148). -/
theorem binCode_encEp (hbits : 1 ≤ r.bitsLeft.toNat) :
    s.binCode (.encEp v) (Coder.load r) = afterShift s.onlyCount (r.epShifted v) := by
  have hmove : (Coder.load r).move (idealBypass 1 v.toNat (Coder.load r).range) = r.epShifted v := by
    simp only [Coder.move, idealBypass, pow_one, Nat.mul_comm _ 2]
    rfl
  rw [State.binCode, bypassChunk_eq_afterShift hbits, hmove]

theorem Regs.epShifted_bitsLeft (hbits : r.bitsLeft = 12#6) : (r.epShifted v).bitsLeft = 11 := by simp [Regs.epShifted, hbits]

theorem Regs.epShifted_bitsLeft_lt (hbits : r.bitsLeft = 12#6) : (r.epShifted v).bitsLeft < 12 := by
  simp [Regs.epShifted_bitsLeft hbits]

theorem Regs.epShifted_lead (hbits : r.bitsLeft = 12#6) : (r.epShifted v).lead = r.epLead v := by
  rw [Coder.lead, Regs.epShifted_bitsLeft hbits]
  rfl

/-- ENC_EP at `bits_left` 12 emits, and faults as the emission does. -/
theorem exec_encEp_of_emit_raise (hr : s.engine = .opened r) (hbits : r.bitsLeft = 12#6) (hlow : r.epLow v < 2 ^ 32)
    (h : emit s.onlyCount (r.epShifted v) = raise c) : exec (.encEp v) s = .next (s.faultedBy c.code (encode (.encEp v))) := by
  refine exec_bin_of_raise hr rfl ?_
  rw [binCode_encEp (by simp [hbits]), afterShift_of_emission hlow (Regs.epShifted_bitsLeft_lt hbits), h]

end

/-! ### The obligations -/

/-- Settles O17: the lead that ENC_EP emits is one of R187's unwritable ones. -/
theorem unwritableCarryRaisesCode10 : Obligations.UnwritableCarryRaisesCode10 := by
  intro s r v hr hnormal hbits hlow lead h
  refine exec_encEp_of_emit_raise (c := .carryOverflow) hr hbits hlow ?_
  refine emit_of_unwritable (by simp [hnormal]) (Regs.epShifted_bitsLeft_lt hbits) ?_
  rw [Regs.epShifted_lead hbits]
  rcases h with hgt | ⟨hcarry, hn⟩ | ⟨hcarry, hb⟩
  · exact .inl hgt
  · exact .inr ⟨hcarry, .inl (congrArg BitVec.toNat hn)⟩
  · exact .inr ⟨hcarry, .inr (congrArg BitVec.toNat hb)⟩

/-- Settles O18: the count is checked after the emission, and `low` after the shift step, before any emission. -/
theorem counterAndLowOverflowFaults : Obligations.CounterAndLowOverflowFaults := by
  intro s r v hr
  refine ⟨fun hmode hbits hfull hlow => ?_, fun hbits hlow => ?_⟩
  · have hlead : (r.epShifted v).lead ≤ 0x1FF := by
      rw [Regs.epShifted_lead hbits, Regs.epLead, Regs.epLow]
      omega
    refine exec_encEp_of_emit_raise (c := .nbbOverflow) hr hbits (hlow.trans (by decide)) ?_
    exact emit_of_count_full hmode (Regs.epShifted_bitsLeft_lt hbits) hlead (congrArg BitVec.toNat hfull)
  · refine exec_bin_of_raise (c := .lowOverflow) hr rfl ?_
    rw [binCode_encEp hbits, afterShift_of_overflow hlow]

end Sys2Proof.Machine
end

section
/-! SUPPORT. The host's trailing bits (R262). -/

namespace Sys2Proof.Machine

/-- How many bits 0 follow the trailing 1 of a stream of `length` bits (R262). -/
def trailingZeros (length : Nat) : Nat := (8 - (length + 1) % 8) % 8

theorem trailingBits_eq (length : Nat) : trailingBits length = true :: List.replicate (trailingZeros length) false := rfl

theorem trailingZeros_lt (length : Nat) : trailingZeros length < 8 := Nat.mod_lt _ (by decide)

/-- The 1 and the zeros bring any length to a byte boundary. -/
theorem trailingZeros_align (length : Nat) : (length + (trailingZeros length + 1)) % 8 = 0 := by
  rw [trailingZeros]
  omega

theorem alignedStream_length (es : List Event) :
    (alignedStream es).length = (bitstream es).length + (trailingZeros (bitstream es).length + 1) := by
  rw [alignedStream, trailingBits_eq, List.length_append, List.length_cons, List.length_replicate]

/-- Settles O59: the zeros are those that fill the byte the trailing 1 stands in. -/
theorem trailingBitsAlignTheStream : Obligations.TrailingBitsAlignTheStream := by
  intro es
  refine ⟨trailingZeros (bitstream es).length, trailingZeros_lt _, rfl, ?_⟩
  rw [alignedStream_length]
  exact trailingZeros_align _

end Sys2Proof.Machine
end

section
/-! SUPPORT. Hardware reset: the step a reset pulse causes, and the state after it (R250, R251, R266). -/

namespace Sys2Proof.Machine

/-- A reset pulse presented next is taken, whether the block is halted or not (R240, R250). -/
theorem step_of_reset {s : State} (h : s.nextInput = some .reset) : step s = s.awaitReset := by
  cases hh : s.halted with
  | true => exact step_halted hh
  | false => simp [step, hh, h]

/-- Both kinds of reset step wait for the host's next pulse. -/
theorem State.TakesReset.step_eq {s : State} (h : s.TakesReset) : step s = s.awaitReset := by
  rcases h with hnext | ⟨hh, -⟩
  · exact step_of_reset hnext
  · exact step_halted hh

theorem State.awaitReset_of_upcoming {s : State} {skipped rest : List HostInput} (h : s.upcoming = skipped ++ .reset :: rest)
    (hskip : HostInput.reset ∉ skipped) : s.awaitReset = .next (s.takeReset rest) := by
  rw [State.awaitReset, afterReset_eq_some.mpr ⟨skipped, h, hskip⟩]

/-- A pulse at the front of the inputs to come, or anywhere in them where the block is halted, makes the step a reset. -/
theorem State.takesReset_of_upcoming {s : State} {skipped rest : List HostInput} (h : s.upcoming = skipped ++ .reset :: rest)
    (hskip : s.halted = false → skipped = []) : s.TakesReset := by
  cases hh : s.halted with
  | true => exact .inr ⟨hh, by simp [h]⟩
  | false =>
    rw [hskip hh] at h
    refine .inl ?_
    rw [State.nextInput, ← List.head?_drop, ← State.upcoming, h]
    rfl

theorem State.lifecycle_resetWith (c : Config) : (State.resetWith c).lifecycle = .uninit := rfl

theorem State.statusPort_resetWith (c : Config) : (State.resetWith c).statusPort = (0#1, 0#8, 0#64) := rfl

/-- The state after reset meets the invariant for every legal `NUM_CTX` (R8, R251). -/
theorem State.inv_resetWith {c : Config} (hc : c.Valid) : (State.resetWith c).Inv where
  config := hc
  engine := trivial
  count := nofun
  halt := ⟨nofun, fun h => absurd rfl h⟩
  codes := Nat.zero_le 15
  clear _ := rfl
  ctxWf := List.Pairwise.nil
  ctxBound := nofun
  events := nofun

theorem Config.valid_standard : Config.standard.Valid := by decide

/-- Settles O9: the step takes the pulse, and the fields are those `takeReset` leaves. -/
theorem hardwareResetClearsAllButTheChannels : Obligations.HardwareResetClearsAllButTheChannels := by
  intro s skipped rest hlist hskip hrun
  have hstep : step s = .next (s.takeReset rest) :=
    (State.takesReset_of_upcoming hlist hrun).step_eq.trans (State.awaitReset_of_upcoming hlist hskip)
  exact ⟨s.takeReset rest, hstep, rfl, rfl, rfl, rfl, rfl, rfl, fun j => Memory.read_nil j, rfl, rfl, rfl, rfl, rfl⟩

/-- Settles O10: each premise is a field of the reset state or a view of one. -/
theorem resetStateMeetsTheLaunchPremises : Obligations.ResetStateMeetsTheLaunchPremises := fun c =>
  ⟨State.statusPort_resetWith c, State.lifecycle_resetWith c, rfl, rfl, rfl, Memory.read_nil, State.resetWith_config c⟩

/-- Settles O46: the invariant holds at every legal `NUM_CTX`, the standard one among them. -/
theorem resetMeetsTheInvariant : Obligations.ResetMeetsTheInvariant :=
  ⟨fun _ hc => State.inv_resetWith hc, State.inv_resetWith Config.valid_standard⟩

end Sys2Proof.Machine
end
